-- ==== Sys2Proof/Word.lean ====
section
/-! DEFINITION. The words of the PicoSynth CORE (spec/00_scope.md R9, R10; spec/20_memory.md R65; spec/30_encoding.md R80):
the 32-bit register word, the 24-bit event word, and one raw host access as the window receives it, before it is decoded. -/

namespace Sys2Proof

/-- One byte of the register window (R64). -/
abbrev Byte := BitVec 8

/-- A 32-bit register, phase or OUTBUF word (R42, R43, R24). -/
abbrev Word := BitVec 32

/-- An event word `status, data1, data2`, status in the high byte (R80). -/
abbrev EventWord := BitVec 24

/-- The direction of a host access (R61: the map's reads and writes). -/
inductive AccessKind where
  | read
  | write
  deriving DecidableEq, Repr

/-- A host access to the CORE's register window, as the host issues it: an address of the host's own address space
(CORE_BASE plus the window offset, R60, R61), a width in bits, a direction, and the data word of a write (a read's
`data` is not looked at).  R65 admits only 32-bit accesses at offsets that are multiples of 4; the decoder judges it. -/
structure Access where
  addr : Nat
  bits : Nat
  kind : AccessKind
  data : Word
  deriving DecidableEq, Repr

end Sys2Proof
end

