-- ==== Sys2Proof/Config.lean ====
section
/-! DEFINITION. The CORE's parameters (spec/00_scope.md R7, R8): the fixed ones as constants, the others as the fields of
`Config`, which the state carries as its constant part (R20).  Below them, the free values: constants without a body, one
for each value that the spec leaves open.  The reference contents and the legal ranges stand in Machine/Rom.lean. -/

namespace Sys2Proof

/-- NUM_CHANNELS (R7). -/
abbrev numChannels : Nat := 16
/-- NUM_CONTROLLERS (R7). -/
abbrev numControllers : Nat := 128
/-- NUM_WAVES (R7). -/
abbrev numWaves : Nat := 4
/-- ENV_MAX, the envelope ceiling (R7, R27). -/
abbrev envMax : Nat := 0x7FFF
/-- POW_SIZE (R7, R32). -/
abbrev powSize : Nat := 16384
/-- POW_UNITY (R7, R32). -/
abbrev powUnity : Nat := 32768
/-- SCALE_SHIFT (R7, R183, R184). -/
abbrev scaleShift : Nat := 7
/-- MIX_SHIFT (R7, R186). -/
abbrev mixShift : Nat := 8
/-- PENV_SHIFT (R7, R165). -/
abbrev penvShift : Nat := 9
/-- VIB_SHIFT (R7, R166). -/
abbrev vibShift : Nat := 19
/-- VIB_RATE_SHIFT (R7, R166). -/
abbrev vibRateShift : Nat := 21
/-- CC_MODWHEEL, the controller number of the modulation wheel (R7, D26). -/
abbrev ccModwheel : Fin numControllers := 1
/-- CC_VOLUME, the controller number of channel volume (R7, D26). -/
abbrev ccVolume : Fin numControllers := 7
/-- CC_PAN, the controller number of pan (R7, D26). -/
abbrev ccPan : Fin numControllers := 10

/-- Window offset of EVENT (R61). -/
@[simp] abbrev offEvent : Nat := 0x0000
/-- Window offset of RENDER (R61). -/
@[simp] abbrev offRender : Nat := 0x0004
/-- Window offset of STATUS (R61). -/
@[simp] abbrev offStatus : Nat := 0x0008
/-- Window offset of CTRL (R61). -/
@[simp] abbrev offCtrl : Nat := 0x000C
/-- First window offset of VOICE_STAT (R61). -/
@[simp] abbrev offVoiceStat : Nat := 0x0100
/-- First window offset above VOICE_STAT (R61: 0x0100 to 0x08FF). -/
@[simp] abbrev offVoiceStatEnd : Nat := 0x0900
/-- First window offset of OUTBUF (R61, R63). -/
@[simp] abbrev offOutbuf : Nat := 0x1000
/-- Bytes in the register window (R60: 8 KiB). -/
@[simp] abbrev windowBytes : Nat := 0x2000

/-- A patch record's fields (R35), as R84's layout is decoded.  `penvDepth` is read as two's complement. -/
structure Patch where
  wave     : BitVec 2
  ampA     : BitVec 7
  ampD     : BitVec 7
  ampS     : BitVec 7
  ampR     : BitVec 7
  master   : BitVec 7
  penvEn   : Bool
  penvA    : BitVec 7
  penvD    : BitVec 7
  penvS    : BitVec 7
  penvR    : BitVec 7
  penvDepth : BitVec 8
  vibWave  : BitVec 2
  vibDepth : BitVec 7
  vibRate  : BitVec 7
  deriving DecidableEq, Repr

/-- The CORE's configuration (R7: "The model takes each one as a configuration argument").  NUM_PATCHES is the length of
`patchRom`; a record is its 16 bytes (R84); `waveRom` holds the samples of the four waveforms (R30). -/
structure Config where
  /-- NUM_VOICES, 1..256. -/
  numVoices  : Nat
  /-- SAMPLE_RATE in Hz, above 0; used only to build NOTE_ROM (R31).  DESIGN CHOICE (notes/assumptions/21.md): a whole
  number of Hz, which R7's range "> 0" does not say. -/
  sampleRate : Nat
  /-- MAX_FRAMES, 1..512. -/
  maxFrames  : Nat
  /-- EVQ_DEPTH, 1..255. -/
  evqDepth   : Nat
  /-- TABLE_BITS, 1..16. -/
  tableBits  : Nat
  /-- ENV_SHIFT, 0..8. -/
  envShift   : Nat
  /-- BEND_RANGE in semitones, 0..24. -/
  bendRange  : Nat
  /-- WAVE_ROM. -/
  waveRom    : Vector (List (BitVec 16)) numWaves
  /-- PATCH_ROM. -/
  patchRom   : List (Vector Byte 16)
  /-- CORE_BASE, the window's base address in the host's address space: open, a platform parameter (R60, U6). -/
  coreBase   : Nat
  deriving DecidableEq, Repr

/-- NUM_PATCHES (R7, R33). -/
abbrev Config.numPatches (cfg : Config) : Nat := cfg.patchRom.length

/-- FREE VALUE (notes/assumptions/4.md).  The byte at window offset `a` of OUTBUF that reset number `epoch` left there:
"Its contents at reset are unspecified, and a model draws any value" (R43, R240, U5). -/
opaque Config.freeOutByte (epoch a : Nat) : Byte

/-- FREE VALUE (notes/assumptions/5.md).  What the `draw`-th VOICE_STAT read made while a render is in progress returns:
"any value, 32 bits, drawn fresh on each read" (R205, U3). -/
opaque Config.freeVoiceStat (draw : Nat) : Word

/-- FREE VALUE (notes/assumptions/11.md).  The NOTE_ROM entry of note `n` for a SAMPLE_RATE so low that R31's formula gives
a number that a 32-bit phase step cannot hold; R31 states no entry there. -/
opaque Config.freeNoteStep (sampleRate n : Nat) : Word

end Sys2Proof
end

