-- ==== Sys2Proof/Syntax.lean ====
section
/-! DEFINITION. The commands of the PicoSynth CORE, one constructor per row of spec/opcode_table.json: ten event rows
(spec/30_encoding.md R82) and thirteen host-access rows (R86). -/

namespace Sys2Proof

/-- A decoded command.  Event rows carry channel `c` and the 7-bit data values (R81, R83); host-access rows carry the
fields of the written word (R80, R85, R86) or the position that the offset names (R61, R63, R205). -/
inductive Instr where
  /-- NON_STATUS (R130): an event word with bit 23 clear. -/
  | nonStatus
  /-- NOTE_OFF (R100): note `n` on channel `c`; the velocity `v` is ignored. -/
  | noteOff (c : BitVec 4) (n v : BitVec 7)
  /-- NOTE_ON_V0 (R101): a note-on with velocity 0. -/
  | noteOnV0 (c : BitVec 4) (n : BitVec 7)
  /-- NOTE_ON (R102): note `n` at velocity `v ≠ 0` on channel `c`. -/
  | noteOn (c : BitVec 4) (n v : BitVec 7)
  /-- POLY_PRESSURE (R131). -/
  | polyPressure
  /-- CONTROL_CHANGE (R120): controller `k` of channel `c` becomes `v`. -/
  | controlChange (c : BitVec 4) (k v : BitVec 7)
  /-- PROGRAM_CHANGE (R122): program `p` on channel `c`. -/
  | programChange (c : BitVec 4) (p : BitVec 7)
  /-- CHANNEL_PRESSURE (R123): pressure `p` on channel `c`. -/
  | channelPressure (c : BitVec 4) (p : BitVec 7)
  /-- PITCH_BEND (R125): bend LSB `l` and MSB `m` on channel `c`. -/
  | pitchBend (c : BitVec 4) (l m : BitVec 7)
  /-- SYSTEM (R132). -/
  | system
  /-- EVENT_WR (R200): enqueue the event word `e`. -/
  | eventWr (e : EventWord)
  /-- EVENT_RD (R204). -/
  | eventRd
  /-- RENDER_WR (R201): request a block of `frames` frames. -/
  | renderWr (frames : BitVec 16)
  /-- RENDER_RD (R204). -/
  | renderRd
  /-- STATUS_RD (R202). -/
  | statusRd
  /-- STATUS_WR (R202): clear the sticky bits whose written bit is 1 (w[1], w[2], w[3]). -/
  | statusWr (clrDone clrEvovf clrRnovr : Bool)
  /-- CTRL_RD (R203). -/
  | ctrlRd
  /-- CTRL_WR (R203): IE becomes w[0]. -/
  | ctrlWr (ie : Bool)
  /-- VOICE_STAT_RD (R205): word 0 or, with `word1`, word 1 of voice `i`. -/
  | voiceStatRd (i : BitVec 8) (word1 : Bool)
  /-- OUTBUF_RD (R206): word `k`. -/
  | outbufRd (k : BitVec 10)
  /-- OUTBUF_WR (R206): word `k` becomes `w`. -/
  | outbufWr (k : BitVec 10) (w : Word)
  /-- RESERVED_RD (R62): a read of the reserved window offset `off`. -/
  | reservedRd (off : BitVec 13)
  /-- RESERVED_WR (R62): a write to the reserved or read-only window offset `off`. -/
  | reservedWr (off : BitVec 13)
  deriving DecidableEq, Repr

end Sys2Proof
end

