-- ==== Sys2Proof/WellFormed.lean ====
section
/-! DEFINITION. Which commands are well formed: the side conditions of the opcode table's rows (spec/30_encoding.md R82, R86;
spec/20_memory.md R61, R62, R65) that a constructor's operand types do not already hold. -/

namespace Sys2Proof

/-- The aligned offsets that a read finds reserved by the map itself (R61, R62): 0x0010 to 0x00FF and 0x0900 to 0x0FFF.
A read of an absent voice or of an OUTBUF word above the buffer is VOICE_STAT_RD or OUTBUF_RD and reads 0 there
(notes/assumptions/20.md). -/
abbrev ReservedRead (off : BitVec 13) : Prop :=
  off.toNat % 4 = 0 ∧ ((0x0010 ≤ off.toNat ∧ off.toNat < 0x0100) ∨ (0x0900 ≤ off.toNat ∧ off.toNat < 0x1000))

/-- The aligned offsets that a write finds reserved or read-only (R61, R62): 0x0010 to 0x0FFF, VOICE_STAT among them. -/
abbrev ReservedWrite (off : BitVec 13) : Prop :=
  off.toNat % 4 = 0 ∧ 0x0010 ≤ off.toNat ∧ off.toNat < 0x1000

/-- NOTE_ON needs a non-zero velocity, since NOTE_ON_V0 is tested first (R82); the reserved rows need a reserved
offset (R62).  Every other row admits every operand. -/
def Instr.wellFormed : Instr → Bool
  | .nonStatus => true
  | .noteOff _ _ _ => true
  | .noteOnV0 _ _ => true
  | .noteOn _ _ v => decide (v ≠ 0)
  | .polyPressure => true
  | .controlChange _ _ _ => true
  | .programChange _ _ => true
  | .channelPressure _ _ => true
  | .pitchBend _ _ _ => true
  | .system => true
  | .eventWr _ => true
  | .eventRd => true
  | .renderWr _ => true
  | .renderRd => true
  | .statusRd => true
  | .statusWr _ _ _ => true
  | .ctrlRd => true
  | .ctrlWr _ => true
  | .voiceStatRd _ _ => true
  | .outbufRd _ => true
  | .outbufWr _ _ => true
  | .reservedRd off => decide (ReservedRead off)
  | .reservedWr off => decide (ReservedWrite off)

end Sys2Proof
end

