-- ==== Sys2Proof/Decode.lean ====
section
/-! DEFINITION. The three formats that the CORE decodes (spec/30_encoding.md): event words (R80 to R83), host accesses
(R85, R86 and the address map R61), and patch records (R84); after each decoder the encoder of the same format.
Event words decode totally (R82, R87); a host access is rejected by name when R65 does not admit it. -/

namespace Sys2Proof

/-! ## Event words -/

/-- The command nibble `cmd = w[23:20]` (R81). -/
def eventCommand (w : EventWord) : BitVec 4 := w.extractLsb' 20 4
/-- The channel `c = w[19:16]` (R81). -/
def eventChannel (w : EventWord) : BitVec 4 := w.extractLsb' 16 4
/-- The data value `d1 = w[14:8]`; bit 15 is ignored (R81). -/
def eventData1 (w : EventWord) : BitVec 7 := w.extractLsb' 8 7
/-- The data value `d2 = w[6:0]`; bit 7 is ignored (R81). -/
def eventData2 (w : EventWord) : BitVec 7 := w.extractLsb' 0 7

/-- The opcode map (R82): every event word decodes to exactly one row. -/
def decodeEvent (w : EventWord) : Instr :=
  match (eventCommand w).toNat with
  | 8  => .noteOff (eventChannel w) (eventData1 w) (eventData2 w)
  | 9  => if eventData2 w = 0 then .noteOnV0 (eventChannel w) (eventData1 w)
          else .noteOn (eventChannel w) (eventData1 w) (eventData2 w)
  | 10 => .polyPressure
  | 11 => .controlChange (eventChannel w) (eventData1 w) (eventData2 w)
  | 12 => .programChange (eventChannel w) (eventData1 w)
  | 13 => .channelPressure (eventChannel w) (eventData1 w)
  | 14 => .pitchBend (eventChannel w) (eventData1 w) (eventData2 w)
  | 15 => .system
  | _  => .nonStatus

/-! ## Host accesses -/

/-- Why the window does not admit a host access. -/
inductive Reject where
  /-- The access is not 32 bits wide (R65). -/
  | notWord
  /-- The address lies outside the CORE's window (R60, R68). -/
  | outsideWindow
  /-- The offset is not a multiple of 4 (R65). -/
  | misaligned
  deriving DecidableEq, Repr

/-- The OUTBUF word index `k = (offset − 0x1000) >> 2` (R206). -/
def outbufIndex (off : Nat) : BitVec 10 := BitVec.ofNat 10 ((off - offOutbuf) / 4)
/-- The voice index `i = (offset − 0x0100) >> 3` (R205). -/
def voiceStatIndex (off : Nat) : BitVec 8 := BitVec.ofNat 8 ((off - offVoiceStat) / 8)
/-- The word select `offset[2]` (R205). -/
def voiceStatWord1 (off : Nat) : Bool := decide ((off / 4) % 2 = 1)

/-- A read of an aligned window offset (R61, R86). -/
def decodeRead (off : Nat) : Instr :=
  if off = offEvent then .eventRd
  else if off = offRender then .renderRd
  else if off = offStatus then .statusRd
  else if off = offCtrl then .ctrlRd
  else if offOutbuf ≤ off then .outbufRd (outbufIndex off)
  else if offVoiceStat ≤ off ∧ off < offVoiceStatEnd then .voiceStatRd (voiceStatIndex off) (voiceStatWord1 off)
  else .reservedRd (BitVec.ofNat 13 off)

/-- A write of the word `w` to an aligned window offset (R61, R80, R85, R86). -/
def decodeWrite (off : Nat) (w : Word) : Instr :=
  if off = offEvent then .eventWr (w.extractLsb' 0 24)
  else if off = offRender then .renderWr (w.extractLsb' 0 16)
  else if off = offStatus then .statusWr (w.getLsbD 1) (w.getLsbD 2) (w.getLsbD 3)
  else if off = offCtrl then .ctrlWr (w.getLsbD 0)
  else if offOutbuf ≤ off then .outbufWr (outbufIndex off) w
  else .reservedWr (BitVec.ofNat 13 off)

/-- The command that a host access stands for, with the window at host address `base` (R60, R61, R65). -/
def decodeAccess (base : Nat) (a : Access) : Except Reject Instr :=
  if a.bits ≠ 32 then .error .notWord
  else if a.addr < base ∨ base + windowBytes ≤ a.addr then .error .outsideWindow
  else if (a.addr - base) % 4 ≠ 0 then .error .misaligned
  else match a.kind with
    | .read => .ok (decodeRead (a.addr - base))
    | .write => .ok (decodeWrite (a.addr - base) a.data)

/-! ## The encoder -/

/-- The words of a command: an event word for an event row, a host access for a host-access row. -/
inductive Image where
  | event (w : EventWord)
  | access (a : Access)
  deriving DecidableEq, Repr

/-- Decoding either format. -/
def decode (base : Nat) : Image → Except Reject Instr
  | .event w => .ok (decodeEvent w)
  | .access a => decodeAccess base a

/-- An event word from its command nibble, channel and two data values, ignored bits 0 (R80, R89). -/
def eventWord (cmd c : BitVec 4) (d1 d2 : BitVec 7) : EventWord := cmd ++ c ++ (0#1 ++ d1) ++ (0#1 ++ d2)

/-- A 32-bit read of the window offset `off`. -/
def readAccess (base off : Nat) : Access := ⟨base + off, 32, .read, 0⟩
/-- A 32-bit write of `w` to the window offset `off`. -/
def writeAccess (base off : Nat) (w : Word) : Access := ⟨base + off, 32, .write, w⟩

/-- The STATUS write word that clears the named sticky bits (R86). -/
def statusWriteWord (clrDone clrEvovf clrRnovr : Bool) : Word :=
  0#28 ++ BitVec.ofBool clrRnovr ++ BitVec.ofBool clrEvovf ++ BitVec.ofBool clrDone ++ 0#1

/-- The words of a well-formed command, every ignored bit 0 (R80, R82, R85, R86, R61). -/
def encode (base : Nat) : Instr → Image
  | .nonStatus => .event (eventWord 0x0 0 0 0)
  | .noteOff c n v => .event (eventWord 0x8 c n v)
  | .noteOnV0 c n => .event (eventWord 0x9 c n 0)
  | .noteOn c n v => .event (eventWord 0x9 c n v)
  | .polyPressure => .event (eventWord 0xA 0 0 0)
  | .controlChange c k v => .event (eventWord 0xB c k v)
  | .programChange c p => .event (eventWord 0xC c p 0)
  | .channelPressure c p => .event (eventWord 0xD c p 0)
  | .pitchBend c l m => .event (eventWord 0xE c l m)
  | .system => .event (eventWord 0xF 0 0 0)
  | .eventWr e => .access (writeAccess base offEvent (0#8 ++ e))
  | .eventRd => .access (readAccess base offEvent)
  | .renderWr frames => .access (writeAccess base offRender (0#16 ++ frames))
  | .renderRd => .access (readAccess base offRender)
  | .statusRd => .access (readAccess base offStatus)
  | .statusWr d e r => .access (writeAccess base offStatus (statusWriteWord d e r))
  | .ctrlRd => .access (readAccess base offCtrl)
  | .ctrlWr ie => .access (writeAccess base offCtrl (0#31 ++ BitVec.ofBool ie))
  | .voiceStatRd i word1 => .access (readAccess base (offVoiceStat + 8 * i.toNat + 4 * word1.toNat))
  | .outbufRd k => .access (readAccess base (offOutbuf + 4 * k.toNat))
  | .outbufWr k w => .access (writeAccess base (offOutbuf + 4 * k.toNat) w)
  | .reservedRd off => .access (readAccess base off.toNat)
  | .reservedWr off => .access (writeAccess base off.toNat 0)

/-! ## Patch records -/

/-- Bits [6:0] of byte `b` of a record; bit 7 is ignored (R84). -/
def patchField7 (r : Vector Byte 16) (b : Fin 16) : BitVec 7 := r[b].extractLsb' 0 7
/-- Bits [1:0] of byte `b` of a record; bits [7:2] are ignored (R84). -/
def patchField2 (r : Vector Byte 16) (b : Fin 16) : BitVec 2 := r[b].extractLsb' 0 2

/-- The fields of a PATCH_ROM record (R84's layout, R35's meanings). -/
def decodePatch (r : Vector Byte 16) : Patch where
  wave := patchField2 r 0
  ampA := patchField7 r 1
  ampD := patchField7 r 2
  ampS := patchField7 r 3
  ampR := patchField7 r 4
  master := patchField7 r 5
  penvEn := r[6].getLsbD 0
  penvA := patchField7 r 7
  penvD := patchField7 r 8
  penvS := patchField7 r 9
  penvR := patchField7 r 10
  penvDepth := r[11]
  vibWave := patchField2 r 12
  vibDepth := patchField7 r 13
  vibRate := patchField7 r 14

/-- The record of the given fields, every ignored bit 0 (R84). -/
def encodePatch (p : Patch) : Vector Byte 16 :=
  #v[0#6 ++ p.wave, 0#1 ++ p.ampA, 0#1 ++ p.ampD, 0#1 ++ p.ampS, 0#1 ++ p.ampR, 0#1 ++ p.master,
    0#7 ++ BitVec.ofBool p.penvEn, 0#1 ++ p.penvA, 0#1 ++ p.penvD, 0#1 ++ p.penvS, 0#1 ++ p.penvR, p.penvDepth,
    0#6 ++ p.vibWave, 0#1 ++ p.vibDepth, 0#1 ++ p.vibRate, 0#8]

/-! ## Words numbered as the opcode table numbers them -/

/-- The direction of a host-access row's word (notes/assumptions/9.md).  The table numbers no direction; the model numbers
bit 16, above the table's bits, which is 0 in a word of the table: 0 is the direction of the row whose match names the
offset, a write where both directions have such a row, and a read at VOICE_STAT's offsets, where only the reading row
has one.  1 is the other direction. -/
def tableKind (off w : Nat) : AccessKind :=
  if w.testBit 16 = decide (offVoiceStat ≤ off ∧ off < offVoiceStatEnd) then .write else .read

/-- The host access that a host-access row's word stands for (notes/assumptions/9.md): bits [15:2] are the word offset
that the rows match, and bits [1:0] are not offset bits (the rows' masks leave them out and the CTRL rows name bit 0 as
IE), so they are the data word's low bits. -/
def tableAccess (base w : Nat) : Access :=
  ⟨base + 4 * (w / 4 % 2 ^ 14), 32, tableKind (4 * (w / 4 % 2 ^ 14)) w, BitVec.ofNat 32 (w % 4)⟩

/-- What the decoder reads from a word of `nbits` bits numbered as spec/opcode_table.json numbers them: 24 bits are an
event row's word, any other count a host-access row's, in a window at host address 0. -/
def decodeTableWord (nbits w : Nat) : Option Instr :=
  if nbits = 24 then some (decodeEvent (BitVec.ofNat 24 w))
  else match decodeAccess 0 (tableAccess 0 w) with
    | .ok i => some i
    | .error _ => none

end Sys2Proof
end

