-- ==== Sys2Proof/Machine/Rom.lean ====
section
/-! DEFINITION. The ROMs (spec/10_state.md R29 to R35) and the reference configuration (spec/00_scope.md R7), with the legal
ranges (R7, R8).  PAN_ROM, NOTE_ROM and POW_ROM are computed by the spec's own formulas, exactly: `round(x)` of a
positive real x is the greatest r with r − 1/2 ≤ x (R10), and for these three x that comparison is one of integers. -/

namespace Sys2Proof

/-- The greatest number below `acc + 2 ^ bits` that `p` accepts, for a `p` that accepts every number below one it accepts;
`acc` if there is none above it.  One bit is decided at a time, from the highest. -/
def greatest (p : Nat → Bool) : (bits acc : Nat) → Nat
  | 0, acc => acc
  | b + 1, acc => if p (acc + 2 ^ b) then greatest p b (acc + 2 ^ b) else greatest p b acc

/-- `r − 1/2 ≤ 127 × sqrt(v / 127)`, that is `(2r − 1)² ≤ 4 × 127 × v`. -/
def panFits (v r : Nat) : Bool := decide ((2 * r - 1) ^ 2 ≤ 508 * v)

/-- `PAN_ROM[v] = round(127 × sqrt(v / 127))` (R34). -/
def panRom (v : BitVec 7) : BitVec 7 := BitVec.ofNat 7 (greatest (panFits v.toNat) 7 0)

/-- `r − 1/2 ≤ 440 × 2^((n − 69) / 12) × 2^32 / SAMPLE_RATE`, both sides doubled, brought to the twelfth power and
multiplied by 2^69. -/
def noteFits (sampleRate n r : Nat) : Bool :=
  decide (((2 * r - 1) * sampleRate) ^ 12 * 2 ^ 69 ≤ (880 * 2 ^ 32) ^ 12 * 2 ^ n)

/-- `round(440 × 2^((n − 69) / 12) × 2^32 / SAMPLE_RATE)` before it is held in 32 bits (R31); 46 bits hold it for
every note and every SAMPLE_RATE above 0. -/
def noteStep (sampleRate n : Nat) : Nat := greatest (noteFits sampleRate n) 46 0

/-- `NOTE_ROM[n]` (R31); where the formula's number needs more than 32 bits, which no SAMPLE_RATE above 12543 Hz leads to,
the spec states no entry and the entry is a free value (notes/assumptions/11.md). -/
def noteRom (sampleRate : Nat) (n : BitVec 7) : Word :=
  if noteStep sampleRate n.toNat < 2 ^ 32 then BitVec.ofNat 32 (noteStep sampleRate n.toNat)
  else Config.freeNoteStep sampleRate n.toNat

/-- `r − 1/2 ≤ 32768 × 2^((p − 8192) / 8192)`, both sides doubled and brought to the 8192th power. -/
def powFits (p r : Nat) : Bool := decide ((2 * r - 1) ^ 8192 ≤ 2 ^ (122880 + p))

/-- `POW_ROM[p] = round(32768 × 2^((p − 8192) / 8192))` for a position p in 0..16383 (R32). -/
def powRom (p : Nat) : BitVec 16 := BitVec.ofNat 16 (greatest (powFits p) 16 0)

/-! ## Reference contents -/

/-- `W[0][0..15]` (R30). -/
def sineRow0 : List Int := [0, 804, 1608, 2410, 3212, 4011, 4808, 5602, 6393, 7179, 7962, 8739, 9512, 10278, 11039, 11793]
/-- `W[0][16..31]` (R30). -/
def sineRow1 : List Int := [12539, 13279, 14010, 14732, 15446, 16151, 16846, 17530, 18204, 18868, 19519, 20159, 20787, 21403, 22005, 22594]
/-- `W[0][32..47]` (R30). -/
def sineRow2 : List Int := [23170, 23731, 24279, 24811, 25329, 25832, 26319, 26790, 27245, 27683, 28105, 28510, 28898, 29268, 29621, 29956]
/-- `W[0][48..63]` (R30). -/
def sineRow3 : List Int := [30273, 30571, 30852, 31113, 31356, 31580, 31785, 31971, 32137, 32285, 32412, 32521, 32609, 32678, 32728, 32757]
/-- `W[0][64..79]` (R30). -/
def sineRow4 : List Int := [32767, 32757, 32728, 32678, 32609, 32521, 32412, 32285, 32137, 31971, 31785, 31580, 31356, 31113, 30852, 30571]
/-- `W[0][80..95]` (R30). -/
def sineRow5 : List Int := [30273, 29956, 29621, 29268, 28898, 28510, 28105, 27683, 27245, 26790, 26319, 25832, 25329, 24811, 24279, 23731]
/-- `W[0][96..111]` (R30). -/
def sineRow6 : List Int := [23170, 22594, 22005, 21403, 20787, 20159, 19519, 18868, 18204, 17530, 16846, 16151, 15446, 14732, 14010, 13279]
/-- `W[0][112..127]` (R30). -/
def sineRow7 : List Int := [12539, 11793, 11039, 10278, 9512, 8739, 7962, 7179, 6393, 5602, 4808, 4011, 3212, 2410, 1608, 804]
/-- `W[0][128..143]` (R30). -/
def sineRow8 : List Int := [0, -804, -1608, -2410, -3212, -4011, -4808, -5602, -6393, -7179, -7962, -8739, -9512, -10278, -11039, -11793]
/-- `W[0][144..159]` (R30). -/
def sineRow9 : List Int := [-12539, -13279, -14010, -14732, -15446, -16151, -16846, -17530, -18204, -18868, -19519, -20159, -20787, -21403, -22005, -22594]
/-- `W[0][160..175]` (R30). -/
def sineRow10 : List Int := [-23170, -23731, -24279, -24811, -25329, -25832, -26319, -26790, -27245, -27683, -28105, -28510, -28898, -29268, -29621, -29956]
/-- `W[0][176..191]` (R30). -/
def sineRow11 : List Int := [-30273, -30571, -30852, -31113, -31356, -31580, -31785, -31971, -32137, -32285, -32412, -32521, -32609, -32678, -32728, -32757]
/-- `W[0][192..207]` (R30). -/
def sineRow12 : List Int := [-32767, -32757, -32728, -32678, -32609, -32521, -32412, -32285, -32137, -31971, -31785, -31580, -31356, -31113, -30852, -30571]
/-- `W[0][208..223]` (R30). -/
def sineRow13 : List Int := [-30273, -29956, -29621, -29268, -28898, -28510, -28105, -27683, -27245, -26790, -26319, -25832, -25329, -24811, -24279, -23731]
/-- `W[0][224..239]` (R30). -/
def sineRow14 : List Int := [-23170, -22594, -22005, -21403, -20787, -20159, -19519, -18868, -18204, -17530, -16846, -16151, -15446, -14732, -14010, -13279]
/-- `W[0][240..255]` (R30). -/
def sineRow15 : List Int := [-12539, -11793, -11039, -10278, -9512, -8739, -7962, -7179, -6393, -5602, -4808, -4011, -3212, -2410, -1608, -804]

/-- `W[0]`, the reference sine at TABLE_BITS = 8 (R30). -/
def sineWave : List (BitVec 16) :=
  (sineRow0 ++ sineRow1 ++ sineRow2 ++ sineRow3 ++ sineRow4 ++ sineRow5 ++ sineRow6 ++ sineRow7 ++ sineRow8 ++ sineRow9 ++
    sineRow10 ++ sineRow11 ++ sineRow12 ++ sineRow13 ++ sineRow14 ++ sineRow15).map (BitVec.ofInt 16)

/-- `W[1][k] = −32768 + floor(k × 65536 / N)`, the rising sawtooth (R30). -/
def sawWave (n : Nat) : List (BitVec 16) :=
  (List.range n).map fun k => BitVec.ofInt 16 (-32768 + ((k * 65536 / n : Nat) : Int))

/-- `W[2][k] = 32767 if k < N/2 else −32768`, the square (R30). -/
def squareWave (n : Nat) : List (BitVec 16) :=
  (List.range n).map fun k => if k < n / 2 then BitVec.ofInt 16 32767 else BitVec.ofInt 16 (-32768)

/-- `W[3]`, the triangle in the user slot: rising to N/2, then falling (R30). -/
def triangleWave (n : Nat) : List (BitVec 16) :=
  (List.range n).map fun k =>
    if k < n / 2 then BitVec.ofInt 16 (-32768 + ((k * 131072 / n : Nat) : Int))
    else BitVec.ofInt 16 (32767 - (((k - n / 2) * 131072 / n : Nat) : Int))

/-- The reference WAVE_ROM at TABLE_BITS = 8 (R30). -/
def referenceWaves : Vector (List (BitVec 16)) numWaves := #v[sineWave, sawWave 256, squareWave 256, triangleWave 256]

/-- Patch 0 of the reference PATCH_ROM: sine (R33). -/
def patch0 : Patch := ⟨0, 32, 16, 96, 8, 127, false, 0, 0, 0, 0, 0, 0, 0, 0⟩
/-- Patch 1: saw (R33). -/
def patch1 : Patch := ⟨1, 127, 64, 0, 32, 100, false, 0, 0, 0, 0, 0, 0, 64, 40⟩
/-- Patch 2: square with a pitch envelope of depth +64 (R33). -/
def patch2 : Patch := ⟨2, 64, 32, 64, 16, 90, true, 127, 8, 0, 8, 64, 0, 0, 0⟩
/-- Patch 3: triangle with a sine vibrato (R33). -/
def patch3 : Patch := ⟨3, 16, 16, 127, 4, 127, false, 0, 0, 0, 0, 0, 0, 127, 64⟩

/-- The reference PATCH_ROM (R33), in the layout of R84. -/
def referencePatches : List (Vector Byte 16) := [encodePatch patch0, encodePatch patch1, encodePatch patch2, encodePatch patch3]

/-- This hardware (R7's "this hardware" column).  CORE_BASE is open; 0 is the model's (notes/assumptions/7.md). -/
def Config.reference : Config where
  numVoices := 32
  sampleRate := 44100
  maxFrames := 256
  evqDepth := 64
  tableBits := 8
  envShift := 4
  bendRange := 2
  waveRom := referenceWaves
  patchRom := referencePatches
  coreBase := 0

/-- The legal configurations (R7's legal ranges, R8, R30: 4 × 2^TABLE_BITS samples).  Irreducible, so that no elaboration
of a step tries to evaluate it on a variable. -/
@[irreducible] def Config.legal (cfg : Config) : Bool :=
  decide (1 ≤ cfg.numVoices) && decide (cfg.numVoices ≤ 256) && decide (0 < cfg.sampleRate) &&
  decide (1 ≤ cfg.maxFrames) && decide (cfg.maxFrames ≤ 512) && decide (1 ≤ cfg.evqDepth) && decide (cfg.evqDepth ≤ 255) &&
  decide (1 ≤ cfg.tableBits) && decide (cfg.tableBits ≤ 16) && decide (cfg.envShift ≤ 8) && decide (cfg.bendRange ≤ 24) &&
  decide (1 ≤ cfg.numPatches) && decide (cfg.numPatches ≤ 128) &&
  cfg.waveRom.toList.all (fun wave => decide (wave.length = 2 ^ cfg.tableBits))

end Sys2Proof
end

