-- ==== Sys2Proof/Machine/State.lean ====
section
/-! DEFINITION. The CORE's state as plain data (spec/10_state.md R20 to R46), the reasons a step can stop, and the state after
reset (R46, R240).  Four fields are the model's own and are marked so: the host's pending turns, the value the last host
read returned, and two counters that free values are drawn with. -/

namespace Sys2Proof.Machine

/-- An envelope phase (R27). -/
inductive EnvPhase where
  | off
  | attack
  | decay
  | sustain
  | release
  deriving DecidableEq, Repr

/-- An envelope record (R27).  `level` never exceeds ENV_MAX in a reachable state. -/
structure Envelope where
  phase : EnvPhase
  level : BitVec 16
  deriving DecidableEq, Repr

/-- The record of an envelope at rest (R26). -/
def Envelope.atRest : Envelope := ⟨.off, 0⟩

/-- A channel record (R21).  `bendIndex` is signed. -/
structure Channel where
  cc        : Vector (BitVec 7) numControllers
  panLeft   : BitVec 7
  panRight  : BitVec 7
  bendRaw   : BitVec 14
  bendIndex : BitVec 15
  bendMult  : BitVec 16
  program   : BitVec 7
  pressure  : BitVec 7
  deriving DecidableEq, Repr

/-- The channel reset values (R23): volume 100, pan 64, every other controller 0, bend centred at unity. -/
def Channel.reset : Channel where
  cc := ((Vector.replicate numControllers 0).set ccVolume 100).set ccPan 64
  panLeft := 89
  panRight := 90
  bendRaw := 8192
  bendIndex := 0
  bendMult := 32768
  program := 0
  pressure := 0

/-- A voice record (R24). -/
structure Voice where
  inUse            : Bool
  releasable       : Bool
  note             : BitVec 7
  velocity         : BitVec 7
  channel          : BitVec 4
  patch            : BitVec 7
  penvEn           : Bool
  amp              : Envelope
  pitch            : Envelope
  phaseAcc         : Word
  phaseStepBase    : Word
  phaseStepCurrent : Word
  vibPhase         : Word
  deriving DecidableEq, Repr

/-- The at-rest value of a voice (R26): the reset value, and the value deallocation writes. -/
def Voice.atRest : Voice where
  inUse := false
  releasable := false
  note := 0
  velocity := 0
  channel := 0
  patch := 0
  penvEn := false
  amp := .atRest
  pitch := .atRest
  phaseAcc := 0
  phaseStepBase := 0
  phaseStepCurrent := 0
  vibPhase := 0

/-- Who takes the next step, as data: a host access, the CORE (which renders when a render has been accepted and is
idle otherwise), or the platform's reset input.  "A run is an interleaving of host steps and CORE steps" (R71). -/
inductive Turn where
  | host (a : Access)
  | core
  | reset
  deriving DecidableEq, Repr

/-- The CORE's state (R20). -/
structure State where
  /-- The constant state: the parameters and the ROM contents (R7, R20, R29).  No step changes it. -/
  cfg         : Config
  /-- The channel file C (R21). -/
  channels    : Vector Channel numChannels
  /-- The voice file V, voice 0 first (R24). -/
  voices      : List Voice
  /-- The event FIFO Q, its head first (R40). -/
  queue       : List EventWord
  /-- A render has been accepted and has not completed: STATUS.BUSY (R41, R42). -/
  busy        : Bool
  /-- How many FIFO entries the accepted render drains (R41). -/
  pendingK    : Nat
  /-- The block length of the accepted render (R41). -/
  pendingN    : Nat
  /-- STATUS.DONE, sticky (R42). -/
  done        : Bool
  /-- STATUS.EVOVF, sticky (R42). -/
  evovf       : Bool
  /-- STATUS.RNOVR, sticky (R42). -/
  rnovr       : Bool
  /-- CTRL.IE (R42). -/
  ie          : Bool
  /-- OUTBUF's bytes by window offset (R43, R63, R64): the bytes written since the last reset, addresses strictly rising. -/
  outbuf      : List Host.Cell
  /-- The model's own: how many resets the machine has taken; picks the free contents of OUTBUF (R43, R240). -/
  outbufEpoch : Nat
  /-- The model's own: how many free VOICE_STAT values have been drawn (R205). -/
  draws       : Nat
  /-- The model's own: the value that the host's last read returned to the host. -/
  hostData    : Word
  /-- The model's own: the turns still to come, the next one first (R71). -/
  agenda      : List Turn
  deriving DecidableEq, Repr

/-- The CORE raises no exception, and it has no trap (R220); spec/93_implementation_defined.md: "The model never uses
`fault`, because the CORE has no exceptions".  So no step faults, and there is no reason to name. -/
inductive Fault where
  deriving DecidableEq, Repr

/-- Why the model refuses a step. -/
inductive Refusal where
  /-- An arm of exec without a meaning raises it; no arm of this model does.  Safe. -/
  | notModelled (mnemonic : String)
  /-- `step` raises it in a configuration outside the legal ranges: "A configuration that breaks one of these is refused by
  the model" (R8, U7).  Safe. -/
  | illegalConfiguration
  /-- A host step with an access that is not 32 bits wide: "A model refuses that host step" (R65, U1).  Safe. -/
  | accessNotWord
  /-- A host step with an access at an offset that is not a multiple of 4 (R65, U1).  Safe. -/
  | accessMisaligned
  /-- A host step with an access outside the CORE's window: "Everything outside the window is the platform's" (R68).
  Safe. -/
  | accessOutsideWindow
  /-- OUTBUF_RD and OUTBUF_WR raise it at a word of the buffer while a render is in progress: `refuse`, "the model gives the
  host no such move" (R72, U2).  Safe. -/
  | outbufWhileBusy
  deriving DecidableEq, Repr

/-- The machine right after reset (R46, R240), in the reference configuration: every channel at its defaults, every voice
free, the FIFO empty, the sequencer idle, every sticky bit and IE clear; OUTBUF lists nothing, so that each of its bytes
reads as a free value.  The values of the model's own fields are DESIGN CHOICE (notes/assumptions/3.md). -/
def State.reset : State where
  cfg := .reference
  channels := Vector.replicate numChannels .reset
  voices := List.replicate Config.reference.numVoices .atRest
  queue := []
  busy := false
  pendingK := 0
  pendingN := 0
  done := false
  evovf := false
  rnovr := false
  ie := false
  outbuf := []
  outbufEpoch := 0
  draws := 0
  hostData := 0
  agenda := []

end Sys2Proof.Machine
end

