-- ==== Sys2Proof/Machine/Ops.lean ====
section
/-! DEFINITION. The named operations over the state: the outcome of one operation after another, OUTBUF (spec/20_memory.md R63,
R64), the channel and voice files, the sequencer, and the model's own fields.  The CORE takes no exception and returns from
none (spec/60_exceptions.md R220, R224, R225: "There is no trap entry", "There is no trap return"), so there is no operation
for either; its one signal to the host is the level `irq` of Flags.lean. -/

namespace Sys2Proof.Machine

/-- What a step and everything it calls answers. -/
abbrev Result := Host.Outcome State Fault Refusal

/-- One operation after another; the first fault or refusal ends it. -/
def andThen (o : Result) (f : State → Result) : Result :=
  match o with
  | .next s => f s
  | .fault r => .fault r
  | .refused r => .refused r

/-! ## OUTBUF

The buffer is held as bytes by window offset.  An address that is not listed has not been written since the last reset:
it holds no known value (`memLookup` answers none), and the buffer reads it as a free byte (notes/assumptions/4.md). -/

/-- The listed byte at address `a`. -/
def memLookup : List Host.Cell → Nat → Option Byte
  | [], _ => none
  | (k, x) :: m, a => if k = a then some x else memLookup m a

/-- The byte at address `a` becomes `b`; the list stays in canonical form. -/
def memWrite : List Host.Cell → Nat → Byte → List Host.Cell
  | [], a, b => [(a, b)]
  | (k, x) :: m, a, b => if a < k then (a, b) :: (k, x) :: m else if a = k then (a, b) :: m else (k, x) :: memWrite m a b

/-- The canonical form of a memory: addresses strictly rising. -/
abbrev Memory.wf (m : List Host.Cell) : Prop := m.Pairwise (fun p q => p.1 < q.1)

/-- The byte of OUTBUF at window offset `a`. -/
def outByte (epoch : Nat) (m : List Host.Cell) (a : Nat) : Byte := (memLookup m a).getD (Config.freeOutByte epoch a)

/-- The window offset of OUTBUF word k: 0x1000 + 4k (R63). -/
def outAddr (k : Nat) : Nat := offOutbuf + 4 * k

/-- `MemRead(OUTBUF, k)` (R63), little-endian (R64). -/
def outRead (epoch : Nat) (m : List Host.Cell) (k : Nat) : Word :=
  outByte epoch m (outAddr k + 3) ++ outByte epoch m (outAddr k + 2) ++
    outByte epoch m (outAddr k + 1) ++ outByte epoch m (outAddr k)

/-- `MemWrite(OUTBUF, k, v)` (R63), little-endian (R64). -/
def outWrite (m : List Host.Cell) (k : Nat) (v : Word) : List Host.Cell :=
  memWrite (memWrite (memWrite (memWrite m (outAddr k) (v.extractLsb' 0 8)) (outAddr k + 1) (v.extractLsb' 8 8))
    (outAddr k + 2) (v.extractLsb' 16 8)) (outAddr k + 3) (v.extractLsb' 24 8)

/-- One byte of the machine's memory, by its window offset. -/
def State.memByte (s : State) (a : Nat) : Byte := outByte s.outbufEpoch s.outbuf a

/-- One word of OUTBUF. -/
def State.outWord (s : State) (k : Nat) : Word := outRead s.outbufEpoch s.outbuf k

/-! ## The channel file -/

/-- `C[c]` (R21). -/
def State.channel (s : State) (c : BitVec 4) : Channel := s.channels[c.toFin]

/-- `C[c] <- ch`. -/
def State.setChannel (s : State) (c : BitVec 4) (ch : Channel) : State :=
  { s with channels := s.channels.set c.toFin ch }

/-- `cc[k]` of a channel; a 7-bit controller number names one of the 128 (R67). -/
def Channel.controller (ch : Channel) (k : BitVec 7) : BitVec 7 := ch.cc[k.toFin]

/-- `cc[k] <- v`. -/
def Channel.setController (ch : Channel) (k v : BitVec 7) : Channel := { ch with cc := ch.cc.set k.toFin v }

/-! ## The voice file -/

/-- `V[i]`, where voice i exists (R24). -/
def State.voice? (s : State) (i : Nat) : Option Voice := s.voices[i]?

/-- The voice file is replaced. -/
def State.setVoices (s : State) (vs : List Voice) : State := { s with voices := vs }

/-! ## FIFO, sequencer, registers -/

/-- The FIFO is replaced. -/
def State.setQueue (s : State) (q : List EventWord) : State := { s with queue := q }

/-- The sequencer's fields are replaced (R41). -/
def State.setSequencer (s : State) (busy : Bool) (k n : Nat) : State := { s with busy := busy, pendingK := k, pendingN := n }

/-- The sticky bits are replaced (R42). -/
def State.setSticky (s : State) (done evovf rnovr : Bool) : State := { s with done := done, evovf := evovf, rnovr := rnovr }

/-- CTRL.IE is replaced (R42). -/
def State.setIe (s : State) (ie : Bool) : State := { s with ie := ie }

/-- OUTBUF is replaced (R43). -/
def State.setOutbuf (s : State) (m : List Host.Cell) : State := { s with outbuf := m }

/-! ## The model's own fields -/

/-- The value that the host's read returned. -/
def State.setHostData (s : State) (w : Word) : State := { s with hostData := w }

/-- The counter of drawn VOICE_STAT values. -/
def State.setDraws (s : State) (n : Nat) : State := { s with draws := n }

/-- The turns still to come. -/
def State.setAgenda (s : State) (ts : List Turn) : State := { s with agenda := ts }

end Sys2Proof.Machine
end

