-- ==== Sys2Proof/Machine/Operands.lean ====
section
/-! DEFINITION. Operand forms: the numeric primitives (spec/00_scope.md R10), operand assembly (spec/30_encoding.md R83, R85),
and the reads of the ROMs, each with the reduction that keeps its index in range (spec/20_memory.md R67). -/

namespace Sys2Proof.Machine

/-- `asr(v, s) = floor(v / 2^s)` (R10). -/
def asr (v : Int) (s : Nat) : Int := v / (2 ^ s : Nat)

/-- `wrap32(v) = v mod 2^32` (R10). -/
def wrap32 (v : Int) : Word := BitVec.ofInt 32 v

/-- `clamp(v, lo, hi) = min(max(v, lo), hi)` (R10). -/
def clamp (v lo hi : Int) : Int := min (max v lo) hi

/-- `raw14 = {d2, d1}`: the MSB above the LSB (R83). -/
def bendRaw14 (l m : BitVec 7) : BitVec 14 := m ++ l

/-- `bendValue = raw14 − 8192` (R83). -/
def bendValue (raw : BitVec 14) : Int := raw.toNat - 8192

/-- The block length `n = min(FRAMES, MAX_FRAMES)` (R85). -/
def blockLength (cfg : Config) (frames : BitVec 16) : Nat := min frames.toNat cfg.maxFrames

/-- The patch index `program mod NUM_PATCHES` (R67, R102). -/
def patchIndex (cfg : Config) (program : BitVec 7) : BitVec 7 := BitVec.ofNat 7 (program.toNat % cfg.numPatches)

/-- `PATCH_ROM[p]`, its record decoded (R33, R84).  A voice holds an index below NUM_PATCHES; the reduction here keeps the
read inside the table in every state (R67, notes/assumptions/12.md). -/
def patchAt (cfg : Config) (p : BitVec 7) : Patch :=
  decodePatch (cfg.patchRom.getD (p.toNat % cfg.numPatches) (Vector.replicate 16 0))

/-- The wavetable index, the top TABLE_BITS bits of a phase (R67, R185). -/
def tableIndex (cfg : Config) (phase : Word) : Nat := phase.toNat >>> (32 - cfg.tableBits)

/-- `W[w][phase[31 : 32 − TABLE_BITS]]`, as a signed sample (R30, R166, R185). -/
def waveSample (cfg : Config) (w : BitVec 2) (phase : Word) : Int :=
  (cfg.waveRom[w.toFin].getD (tableIndex cfg phase) 0).toInt

/-- `PowLookup(i)`: the index is clamped to the table's domain (R161). -/
def powLookup (i : Int) : BitVec 16 := powRom (clamp i (-8192) 8191 + 8192).toNat

end Sys2Proof.Machine
end

