-- ==== Sys2Proof/Machine/Flags.lean ====
section
/-! DEFINITION. The status bits: the STATUS and CTRL words (spec/10_state.md R42, spec/45_host_interface.md R202, R203), the rules
that set and clear the sticky bits, and the interrupt output (spec/60_exceptions.md R222).  The CORE has no arithmetic flags
(R44). -/

namespace Sys2Proof.Machine

/-- EVFULL: the FIFO holds EVQ_DEPTH entries (R42). -/
def State.evFull (s : State) : Bool := decide (s.queue.length = s.cfg.evqDepth)

/-- EVEMPTY: the FIFO holds no entry (R42). -/
def State.evEmpty (s : State) : Bool := decide (s.queue.length = 0)

/-- EVCOUNT: the number of FIFO entries, 8 bits (R42). -/
def State.evCount (s : State) : Byte := BitVec.ofNat 8 s.queue.length

/-- `StatusRead()` (R202, layout R42): bits [7:6] and [31:16] read 0. -/
def State.statusWord (s : State) : Word :=
  0#16 ++ s.evCount ++ 0#2 ++ BitVec.ofBool s.evEmpty ++ BitVec.ofBool s.evFull ++ BitVec.ofBool s.rnovr ++
    BitVec.ofBool s.evovf ++ BitVec.ofBool s.done ++ BitVec.ofBool s.busy

/-- `CtrlRead()`: IE in bit 0, the rest 0 (R203). -/
def State.ctrlWord (s : State) : Word := 0#31 ++ BitVec.ofBool s.ie

/-- `irq = STATUS.DONE & CTRL.IE`, level-sensitive (R222). -/
def State.irq (s : State) : Bool := s.done && s.ie

/-- `StatusWrite(w)`: a 1 clears its sticky bit, a 0 leaves it (R202). -/
def State.clearSticky (s : State) (clrDone clrEvovf clrRnovr : Bool) : State :=
  s.setSticky (s.done && !clrDone) (s.evovf && !clrEvovf) (s.rnovr && !clrRnovr)

/-- `STATUS.DONE <- 1` (R180). -/
def State.raiseDone (s : State) : State := s.setSticky true s.evovf s.rnovr

/-- `STATUS.EVOVF <- 1` (R200). -/
def State.raiseEvovf (s : State) : State := s.setSticky s.done true s.rnovr

/-- `STATUS.RNOVR <- 1` (R201). -/
def State.raiseRnovr (s : State) : State := s.setSticky s.done s.evovf true

end Sys2Proof.Machine
end

