-- ==== Sys2Proof/Machine/Envelope.lean ====
section
/-! DEFINITION. The ADSR envelope generator (spec/42_envelope.md R140 to R148). -/

namespace Sys2Proof.Machine

/-- `Inc(r) = max(r, 1) << ENV_SHIFT` (R144). -/
def envInc (cfg : Config) (r : BitVec 7) : Nat := max r.toNat 1 <<< cfg.envShift

/-- `Target(s) = s << 8` (R145). -/
def envTarget (s : BitVec 7) : Nat := s.toNat <<< 8

/-- `GateOn(e)`: attack, the level unchanged (R140). -/
def gateOn (e : Envelope) : Envelope := { e with phase := .attack }

/-- `GateOff(e)`: release from every phase, the level unchanged (R141). -/
def gateOff (e : Envelope) : Envelope := { e with phase := .release }

/-- `Active(e)` (R143). -/
def envActive (e : Envelope) : Bool := decide (e.phase ≠ .off)

/-- `Update(e, A, D, S, R)`: one block's ramp (R142).  The level returned is the record's new level. -/
def envUpdate (cfg : Config) (e : Envelope) (a d s r : BitVec 7) : Envelope :=
  match e.phase with
  | .off => e
  | .attack =>
    if envMax ≤ e.level.toNat + envInc cfg a then ⟨.decay, BitVec.ofNat 16 envMax⟩
    else ⟨.attack, BitVec.ofNat 16 (e.level.toNat + envInc cfg a)⟩
  | .decay =>
    if (e.level.toNat : Int) - envInc cfg d ≤ envTarget s then
      ⟨if envTarget s = 0 then .off else .sustain, BitVec.ofNat 16 (envTarget s)⟩
    else ⟨.decay, BitVec.ofInt 16 ((e.level.toNat : Int) - envInc cfg d)⟩
  | .sustain => e
  | .release =>
    if (e.level.toNat : Int) - envInc cfg r ≤ 0 then ⟨.off, 0⟩
    else ⟨.release, BitVec.ofInt 16 ((e.level.toNat : Int) - envInc cfg r)⟩

/-- The amplitude envelope's Update reads the patch's AMP fields (R148). -/
def ampUpdate (cfg : Config) (p : Patch) (e : Envelope) : Envelope := envUpdate cfg e p.ampA p.ampD p.ampS p.ampR

/-- The pitch envelope's Update reads the patch's PENV fields (R148). -/
def pitchUpdate (cfg : Config) (p : Patch) (e : Envelope) : Envelope := envUpdate cfg e p.penvA p.penvD p.penvS p.penvR

/-- The 3-bit phase code of VOICE_STAT (R27). -/
def phaseCode : EnvPhase → BitVec 3
  | .off => 0
  | .attack => 1
  | .decay => 2
  | .sustain => 3
  | .release => 4

end Sys2Proof.Machine
end

