-- ==== Sys2Proof/Machine/ChannelEvents.lean ====
section
/-! DEFINITION. The channel events and the ignored events (spec/41_channel_events.md R120 to R132). -/

namespace Sys2Proof.Machine

/-- `PanUpdate(c)`: both pan coefficients from the pan controller (R121). -/
def panUpdate (ch : Channel) : Channel :=
  { ch with panRight := panRom ch.cc[ccPan], panLeft := panRom (127 - ch.cc[ccPan]) }

/-- `ControlChange(c, k, v)` on the channel's record (R120). -/
def controlChange (k v : BitVec 7) (ch : Channel) : Channel :=
  if k.toFin = ccPan then panUpdate (ch.setController k v) else ch.setController k v

/-- The clamped table offset of a raw bend: the division rounds toward zero (R126). -/
def bendOffset (cfg : Config) (raw : BitVec 14) : Int :=
  clamp (8192 + Int.tdiv (bendValue raw * cfg.bendRange) 12) 0 16383

/-- `BendUpdate(c, raw14)` on the channel's record (R126). -/
def bendUpdate (cfg : Config) (raw : BitVec 14) (ch : Channel) : Channel :=
  { ch with
    bendRaw := raw
    bendIndex := BitVec.ofInt 15 (bendOffset cfg raw - 8192)
    bendMult := powRom (bendOffset cfg raw).toNat }

/-- `PitchBend(c, l, m)` on the channel's record (R125). -/
def pitchBend (cfg : Config) (l m : BitVec 7) (ch : Channel) : Channel :=
  if bendRaw14 l m ≠ ch.bendRaw then bendUpdate cfg (bendRaw14 l m) ch else ch

/-- CONTROL_CHANGE (R120). -/
def execControlChange (c : BitVec 4) (k v : BitVec 7) (s : State) : Result :=
  .next (s.setChannel c (controlChange k v (s.channel c)))

/-- PROGRAM_CHANGE (R122): `C[c].program <- p`. -/
def execProgramChange (c : BitVec 4) (p : BitVec 7) (s : State) : Result :=
  .next (s.setChannel c { s.channel c with program := p })

/-- CHANNEL_PRESSURE (R123): `C[c].pressure <- p`. -/
def execChannelPressure (c : BitVec 4) (p : BitVec 7) (s : State) : Result :=
  .next (s.setChannel c { s.channel c with pressure := p })

/-- PITCH_BEND (R125). -/
def execPitchBend (c : BitVec 4) (l m : BitVec 7) (s : State) : Result :=
  .next (s.setChannel c (pitchBend s.cfg l m (s.channel c)))

/-- NON_STATUS (R130): no state change. -/
def execNonStatus (s : State) : Result := .next s

/-- POLY_PRESSURE (R131): no state change. -/
def execPolyPressure (s : State) : Result := .next s

/-- SYSTEM (R132): no state change. -/
def execSystem (s : State) : Result := .next s

end Sys2Proof.Machine
end

