-- ==== Sys2Proof/Machine/HostAccess.lean ====
section
/-! DEFINITION. The host's accesses to the register window (spec/45_host_interface.md R200 to R206, spec/20_memory.md R62, R72). -/

namespace Sys2Proof.Machine

/-- A host read returns `w` and has no other effect (R66). -/
def returnWord (w : Word) (s : State) : Result := .next (s.setHostData w)

/-- EVENT_WR: `EventWrite(w)` (R200). -/
def execEventWr (e : EventWord) (s : State) : Result :=
  if s.queue.length < s.cfg.evqDepth then .next (s.setQueue (s.queue ++ [e])) else .next s.raiseEvovf

/-- EVENT_RD returns 0 (R204). -/
def execEventRd (s : State) : Result := returnWord 0 s

/-- RENDER_WR: `RenderWrite(w)` (R201). -/
def execRenderWr (frames : BitVec 16) (s : State) : Result :=
  if s.busy then .next s.raiseRnovr
  else .next (s.setSequencer true s.queue.length (blockLength s.cfg frames))

/-- RENDER_RD returns 0 (R204). -/
def execRenderRd (s : State) : Result := returnWord 0 s

/-- STATUS_RD: `StatusRead()` (R202). -/
def execStatusRd (s : State) : Result := returnWord s.statusWord s

/-- STATUS_WR: `StatusWrite(w)` (R202). -/
def execStatusWr (clrDone clrEvovf clrRnovr : Bool) (s : State) : Result := .next (s.clearSticky clrDone clrEvovf clrRnovr)

/-- CTRL_RD: `CtrlRead()` (R203). -/
def execCtrlRd (s : State) : Result := returnWord s.ctrlWord s

/-- CTRL_WR: `CtrlWrite(w)` (R203). -/
def execCtrlWr (ie : Bool) (s : State) : Result := .next (s.setIe ie)

/-- `VoiceStat0(i)` (R205). -/
def voiceStat0 (v : Voice) : Word :=
  0#1 ++ v.velocity ++ 0#1 ++ phaseCode v.pitch.phase ++ v.channel ++ 0#1 ++ v.note ++ 0#2 ++ BitVec.ofBool v.penvEn ++
    phaseCode v.amp.phase ++ BitVec.ofBool v.releasable ++ BitVec.ofBool v.inUse

/-- `VoiceStat1(i)` (R205). -/
def voiceStat1 (v : Voice) : Word := v.pitch.level ++ v.amp.level

/-- The VOICE_STAT word of voice `i`; 0 where voice i does not exist (R62, R205). -/
def State.voiceStat (s : State) (i : Nat) (word1 : Bool) : Word :=
  match s.voice? i with
  | none => 0
  | some v => if word1 then voiceStat1 v else voiceStat0 v

/-- VOICE_STAT_RD (R205): an absent voice reads 0 (R62); while a render is in progress the value is a free one, drawn fresh
on each read; else it is the exact word. -/
def execVoiceStatRd (i : BitVec 8) (word1 : Bool) (s : State) : Result :=
  if s.cfg.numVoices ≤ i.toNat then returnWord 0 s
  else if s.busy then returnWord (Config.freeVoiceStat s.draws) (s.setDraws (s.draws + 1))
  else returnWord (s.voiceStat i.toNat word1) s

/-- `0 ≤ k < 2·MAX_FRAMES`: OUTBUF has a word k (R61, R63). -/
def outbufHas (cfg : Config) (k : BitVec 10) : Bool := decide (k.toNat < 2 * cfg.maxFrames)

/-- OUTBUF_RD: `OutRead(k)` (R206); above the buffer the offset is reserved and reads 0 (R62); while busy the host has no
access to the buffer (R72). -/
def execOutbufRd (k : BitVec 10) (s : State) : Result :=
  if outbufHas s.cfg k then
    if s.busy then .refused .outbufWhileBusy else returnWord (s.outWord k.toNat) s
  else returnWord 0 s

/-- OUTBUF_WR: `OutWrite(k, w)` (R206); above the buffer the offset is reserved and the write is ignored (R62); while busy
the host has no access to the buffer (R72). -/
def execOutbufWr (k : BitVec 10) (w : Word) (s : State) : Result :=
  if outbufHas s.cfg k then
    if s.busy then .refused .outbufWhileBusy else .next (s.setOutbuf (outWrite s.outbuf k.toNat w))
  else .next s

/-- RESERVED_RD returns 0 (R62). -/
def execReservedRd (_off : BitVec 13) (s : State) : Result := returnWord 0 s

/-- RESERVED_WR changes no state (R62; VOICE_STAT writes among them, R61). -/
def execReservedWr (_off : BitVec 13) (s : State) : Result := .next s

/-- The refusal of a host step whose access the window does not admit (R65, R68). -/
def refusalOf : Reject → Refusal
  | .notWord => .accessNotWord
  | .outsideWindow => .accessOutsideWindow
  | .misaligned => .accessMisaligned

end Sys2Proof.Machine
end

