-- ==== Sys2Proof/Machine/VoiceEvents.lean ====
section
/-! DEFINITION. The voice allocator and the voice events (spec/40_voice_events.md R100 to R107). -/

namespace Sys2Proof.Machine

/-- The lowest-index free voice: pass 1 of `Allocate` (R103). -/
def freeVoice (vs : List Voice) : Option Nat := vs.findIdx? (fun v => !v.inUse)

/-- The lowest-index releasable voice: pass 2 of `Allocate` (R103). -/
def stealableVoice (vs : List Voice) : Option Nat := vs.findIdx? (fun v => v.releasable)

/-- `Deallocate(i)`: every field of `V[i]` takes its at-rest value (R104). -/
def deallocate (vs : List Voice) (i : Nat) : List Voice := vs.set i .atRest

/-- `Allocate()` (R103): the voice file and the index of the voice taken, or none when the note is dropped. -/
def allocate (vs : List Voice) : Option (List Voice × Nat) :=
  match freeVoice vs with
  | some i => some (vs, i)
  | none =>
    match stealableVoice vs with
    | some i => some (deallocate vs i, i)
    | none => none

/-- The note-on writes to the allocated voice (R102), for note `n` at velocity `v` on channel `c`, whose program selects
patch `p`. -/
def startVoice (cfg : Config) (c : BitVec 4) (n v p : BitVec 7) (old : Voice) : Voice :=
  { old with
    inUse := true
    releasable := false
    note := n
    velocity := v
    channel := c
    patch := p
    penvEn := (patchAt cfg p).penvEn
    amp := gateOn old.amp
    pitch := if (patchAt cfg p).penvEn then gateOn old.pitch else old.pitch
    phaseStepBase := noteRom cfg.sampleRate n
    phaseStepCurrent := noteRom cfg.sampleRate n
    phaseAcc := 0
    vibPhase := 0 }

/-- `NoteOn(c, n, v)` (R102): with no voice to take, no state changes. -/
def noteOn (c : BitVec 4) (n v : BitVec 7) (s : State) : State :=
  match allocate s.voices with
  | none => s
  | some (vs, i) => s.setVoices (vs.modify i (startVoice s.cfg c n v (patchIndex s.cfg (s.channel c).program)))

/-- A voice in use that plays note `n` on channel `c` (R105). -/
def plays (c : BitVec 4) (n : BitVec 7) (v : Voice) : Bool := v.inUse && (v.channel == c && v.note == n)

/-- A voice is released: its envelopes are gated off and it may be stolen (R105). -/
def releaseVoice (v : Voice) : Voice :=
  { v with
    amp := gateOff v.amp
    pitch := if v.penvEn then gateOff v.pitch else v.pitch
    releasable := true }

/-- `ReleaseNote(c, n)`: every in-use voice bound to channel `c` and playing note `n` is released (R105). -/
def releaseNote (c : BitVec 4) (n : BitVec 7) (s : State) : State :=
  s.setVoices (s.voices.map fun v => if plays c n v then releaseVoice v else v)

/-- NOTE_OFF (R100): the velocity has no effect. -/
def execNoteOff (c : BitVec 4) (n _v : BitVec 7) (s : State) : Result := .next (releaseNote c n s)

/-- NOTE_ON_V0 (R101): exactly NOTE_OFF. -/
def execNoteOnV0 (c : BitVec 4) (n : BitVec 7) (s : State) : Result := .next (releaseNote c n s)

/-- NOTE_ON (R102). -/
def execNoteOn (c : BitVec 4) (n v : BitVec 7) (s : State) : Result := .next (noteOn c n v s)

end Sys2Proof.Machine
end

