-- ==== Sys2Proof/Machine/Dispatch.lean ====
section
/-! DEFINITION. The dispatch of a command to its meaning, one arm per row of spec/opcode_table.json. -/

namespace Sys2Proof.Machine

def exec (i : Instr) (s : State) : Host.Outcome State Fault Refusal :=
  match i with
  | .nonStatus => Sys2Proof.Machine.execNonStatus s
  | .noteOff c n v => Sys2Proof.Machine.execNoteOff c n v s
  | .noteOnV0 c n => Sys2Proof.Machine.execNoteOnV0 c n s
  | .noteOn c n v => Sys2Proof.Machine.execNoteOn c n v s
  | .polyPressure => Sys2Proof.Machine.execPolyPressure s
  | .controlChange c k v => Sys2Proof.Machine.execControlChange c k v s
  | .programChange c p => Sys2Proof.Machine.execProgramChange c p s
  | .channelPressure c p => Sys2Proof.Machine.execChannelPressure c p s
  | .pitchBend c l m => Sys2Proof.Machine.execPitchBend c l m s
  | .system => Sys2Proof.Machine.execSystem s
  | .eventWr e => Sys2Proof.Machine.execEventWr e s
  | .eventRd => Sys2Proof.Machine.execEventRd s
  | .renderWr frames => Sys2Proof.Machine.execRenderWr frames s
  | .renderRd => Sys2Proof.Machine.execRenderRd s
  | .statusRd => Sys2Proof.Machine.execStatusRd s
  | .statusWr d e r => Sys2Proof.Machine.execStatusWr d e r s
  | .ctrlRd => Sys2Proof.Machine.execCtrlRd s
  | .ctrlWr ie => Sys2Proof.Machine.execCtrlWr ie s
  | .voiceStatRd i1 word1 => Sys2Proof.Machine.execVoiceStatRd i1 word1 s
  | .outbufRd k => Sys2Proof.Machine.execOutbufRd k s
  | .outbufWr k w => Sys2Proof.Machine.execOutbufWr k w s
  | .reservedRd off => Sys2Proof.Machine.execReservedRd off s
  | .reservedWr off => Sys2Proof.Machine.execReservedWr off s

end Sys2Proof.Machine
end

