-- ==== Sys2Proof/Machine/Modulation.lean ====
section
/-! DEFINITION. The logarithmic pitch and vibrato modulator (spec/43_modulation.md R160 to R167). -/

namespace Sys2Proof.Machine

/-- `wrap32(floor(step × m / 2^15))`: a phase step times a U1.15 multiplier (R162). -/
def scaleStep (step : Word) (m : BitVec 16) : Word := BitVec.ofNat 32 (step.toNat * m.toNat / 2 ^ 15)

/-- `FM(step, i)` (R162). -/
def fm (step : Word) (i : Int) : Word := scaleStep step (powLookup i)

/-- `pidx = asr(plevel × sext_8(PENV_DEPTH), PENV_SHIFT)`, from the pitch envelope as this block's Update left it (R165). -/
def pitchIndex (p : Patch) (pitch : Envelope) : Int := asr ((pitch.level.toNat : Int) * p.penvDepth.toInt) penvShift

/-- `vidx = asr(vs × cc[CC_MODWHEEL] × VIB_DEPTH, VIB_SHIFT)`, the LFO read at the current vibrato phase (R166). -/
def vibratoIndex (cfg : Config) (p : Patch) (ch : Channel) (vibPhase : Word) : Int :=
  asr (waveSample cfg p.vibWave vibPhase * (ch.cc[ccModwheel].toNat : Int) * (p.vibDepth.toNat : Int)) vibShift

/-- The LFO's advance over one block: `VIB_RATE << VIB_RATE_SHIFT` (R166). -/
def vibratoStep (p : Patch) : Word := BitVec.ofNat 32 (p.vibRate.toNat <<< vibRateShift)

/-- The pitch envelope of a voice after this block's Update; a voice without one keeps its record (R165). -/
def advancePitch (cfg : Config) (v : Voice) : Envelope :=
  if v.penvEn then pitchUpdate cfg (patchAt cfg v.patch) v.pitch else v.pitch

/-- The composed step (R163): bend, then pitch envelope, then vibrato, each rounded on its own. -/
def composedStep (cfg : Config) (ch : Channel) (v : Voice) : Word :=
  let bent := scaleStep v.phaseStepBase ch.bendMult
  let enveloped := if v.penvEn then fm bent (pitchIndex (patchAt cfg v.patch) (advancePitch cfg v)) else bent
  fm enveloped (vibratoIndex cfg (patchAt cfg v.patch) ch v.vibPhase)

/-- `ModStep(i)` for a voice bound to channel `ch` (R163). -/
def modStep (cfg : Config) (ch : Channel) (v : Voice) : Voice :=
  { v with
    pitch := advancePitch cfg v
    vibPhase := v.vibPhase + vibratoStep (patchAt cfg v.patch)
    phaseStepCurrent := composedStep cfg ch v }

end Sys2Proof.Machine
end

