-- ==== Sys2Proof/Machine/Render.lean ====
section
/-! DEFINITION. The render step (spec/44_render.md R180 to R193): the drain of the FIFO, the envelope pass, the voices' block, and
the mix into OUTBUF. -/

namespace Sys2Proof.Machine

/-- `Drain(K)`: K events from the head of the FIFO, each removed, decoded and executed (R181).  `pendingK` never exceeds the
FIFO's length in a reachable state; elsewhere an empty FIFO ends the drain (notes/assumptions/14.md). -/
def drain : Nat → State → Result
  | 0, s => .next s
  | k + 1, s =>
    match s.queue with
    | [] => .next s
    | w :: q => andThen (exec (decodeEvent w) (s.setQueue q)) (drain k)

/-- The envelope pass on one voice: an in-use voice's amplitude envelope advances, and a voice that has gone silent is
deallocated (R182). -/
def envelopePassVoice (cfg : Config) (v : Voice) : Voice :=
  if v.inUse then
    let amp := ampUpdate cfg (patchAt cfg v.patch) v.amp
    if envActive amp then { v with amp := amp } else .atRest
  else v

/-- `EnvelopePass()` over the voice file, in index order; a voice's part depends on no other voice (R182). -/
def envelopePass (cfg : Config) (vs : List Voice) : List Voice := vs.map (envelopePassVoice cfg)

/-- The composite scale: level × MASTER × velocity × volume, shifted right by 7 after each factor (R183). -/
def voiceScale (cfg : Config) (ch : Channel) (v : Voice) : Nat :=
  let s1 := (v.amp.level.toNat * (patchAt cfg v.patch).master.toNat) >>> scaleShift
  let s2 := (s1 * v.velocity.toNat) >>> scaleShift
  (s2 * ch.cc[ccVolume].toNat) >>> scaleShift

/-- `gainL` (R184). -/
def gainLeft (cfg : Config) (ch : Channel) (v : Voice) : Nat := (voiceScale cfg ch v * ch.panLeft.toNat) >>> scaleShift

/-- `gainR` (R184). -/
def gainRight (cfg : Config) (ch : Channel) (v : Voice) : Nat := (voiceScale cfg ch v * ch.panRight.toNat) >>> scaleShift

/-- The mixer's term `asr(gain × smp, MIX_SHIFT)` (R186). -/
def mixTerm (gain : Nat) (smp : Int) : Int := asr ((gain : Int) * smp) mixShift

/-- `OUT[k] <- wrap32(OUT[k] + t)`, the old word taken as signed (R186). -/
def mixWord (epoch : Nat) (m : List Host.Cell) (k : Nat) (t : Int) : List Host.Cell :=
  outWrite m k (wrap32 ((outRead epoch m k).toInt + t))

/-- The mix of one sample into the two words of frame `f` (R186). -/
def mixFrame (epoch : Nat) (m : List Host.Cell) (f gL gR : Nat) (smp : Int) : List Host.Cell :=
  mixWord epoch (mixWord epoch m (2 * f) (mixTerm gL smp)) (2 * f + 1) (mixTerm gR smp)

/-- The frames `f`, `f + 1`, … of one voice's block, `count` of them: the table is read before the accumulator advances
(R185, R187).  The accumulator's value after the block and OUTBUF. -/
def renderFrames (cfg : Config) (wave : BitVec 2) (epoch gL gR : Nat) (step : Word) :
    (count f : Nat) → (acc : Word) → (m : List Host.Cell) → Word × List Host.Cell
  | 0, _, acc, m => (acc, m)
  | count + 1, f, acc, m =>
    renderFrames cfg wave epoch gL gR step count (f + 1) (acc + step)
      (mixFrame epoch m f gL gR (waveSample cfg wave acc))

/-- `VoiceRender(i, n)` for a voice bound to channel `ch` (R187): scale and gains, ModStep, then the frames. -/
def voiceRender (cfg : Config) (ch : Channel) (epoch n : Nat) (v : Voice) (m : List Host.Cell) : Voice × List Host.Cell :=
  let v' := modStep cfg ch v
  let r := renderFrames cfg (patchAt cfg v.patch).wave epoch (gainLeft cfg ch v) (gainRight cfg ch v)
    v'.phaseStepCurrent n 0 v'.phaseAcc m
  ({ v' with phaseAcc := r.1 }, r.2)

/-- The in-use voices render in index order, each adding to OUTBUF (R180). -/
def renderVoices (cfg : Config) (chs : Vector Channel numChannels) (epoch n : Nat) :
    List Voice → List Host.Cell → List Voice × List Host.Cell
  | [], m => ([], m)
  | v :: vs, m =>
    let r := if v.inUse then voiceRender cfg chs[v.channel.toFin] epoch n v m else (v, m)
    let rest := renderVoices cfg chs epoch n vs r.2
    (r.1 :: rest.1, rest.2)

/-- The block after the drain (R180): the envelope pass, the voices, the sequencer idle, and DONE. -/
def renderBlock (n : Nat) (s : State) : State :=
  let r := renderVoices s.cfg s.channels s.outbufEpoch n (envelopePass s.cfg s.voices) s.outbuf
  (((s.setVoices r.1).setOutbuf r.2).setSequencer false 0 0).raiseDone

/-- `Render()` (R180), enabled only while busy. -/
def render (s : State) : Result := andThen (drain s.pendingK s) fun s' => .next (renderBlock s.pendingN s')

/-- The CORE's turn (R71, R232): a render where one has been accepted, else the CORE is idle and does nothing. -/
def coreTurn (s : State) : Result := if s.busy then render s else .next s

end Sys2Proof.Machine
end

