-- ==== Sys2Proof/Machine/Reset.lean ====
section
/-! DEFINITION. The reset step (spec/70_reset_and_hazards.md R240). -/

namespace Sys2Proof.Machine

/-- `Reset()` (R240): every state element takes its value of R46, a render in progress is abandoned, queued events are
discarded, and every word of OUTBUF takes any value.  The ROMs and parameters do not change; the model's own fields that
are not the CORE's (the turns to come, the host's last read, the draw counter) stay (notes/assumptions/16.md). -/
def resetCore (s : State) : State where
  cfg := s.cfg
  channels := Vector.replicate numChannels .reset
  voices := List.replicate s.cfg.numVoices .atRest
  queue := []
  busy := false
  pendingK := 0
  pendingN := 0
  done := false
  evovf := false
  rnovr := false
  ie := false
  outbuf := []
  outbufEpoch := s.outbufEpoch + 1
  draws := s.draws
  hostData := s.hostData
  agenda := s.agenda

end Sys2Proof.Machine
end

