-- ==== Sys2Proof/Machine/Step.lean ====
section
/-! DEFINITION. One step (spec/20_memory.md R71): a host step is one access to the window, a CORE step is a whole render or a
reset.  The turns in the state say which comes next (notes/assumptions/1.md); with no turn left a CORE that has accepted a
render performs it, and an idle CORE does nothing (R232, R252, notes/assumptions/2.md). -/

namespace Sys2Proof.Machine

/-- A host step: the access is decoded and executed, or refused by name (R65, R71). -/
def hostTurn (a : Access) (s : State) : Host.Outcome State Fault Refusal :=
  match decodeAccess s.cfg.coreBase a with
  | .ok i => exec i s
  | .error r => .refused (refusalOf r)

/-- The turn `t` is taken. -/
def takeTurn (t : Turn) (s : State) : Host.Outcome State Fault Refusal :=
  match t with
  | .host a => hostTurn a s
  | .core => coreTurn s
  | .reset => .next (resetCore s)

/-- One step.  A configuration outside the legal ranges is refused (R8). -/
def step (s : State) : Host.Outcome State Fault Refusal :=
  if s.cfg.legal then
    match s.agenda with
    | [] => coreTurn s
    | t :: ts => takeTurn t (s.setAgenda ts)
  else .refused .illegalConfiguration

/-- `s` with the command whose bits are `w` (numbered as the opcode table numbers them) placed so that the very next step
runs it (notes/assumptions/10.md).  A host-access row's word is the host's next turn.  An event row's word is the FIFO's
head, with a render of it alone and of no frames accepted and the next turn the CORE's: events are executed by the drain
of a render and by nothing else (R181). -/
def State.withFetchWord (s : State) (nbits w : Nat) : State :=
  if nbits = 24 then
    { s with
      queue := (BitVec.ofNat 24 w :: s.queue).take s.cfg.evqDepth
      busy := true
      pendingK := 1
      pendingN := 0
      agenda := .core :: s.agenda }
  else { s with agenda := .host (tableAccess s.cfg.coreBase w) :: s.agenda }

end Sys2Proof.Machine
end

