-- ==== Sys2Proof/Safety.lean ====
section
/-! DEFINITION. The terms that claims about the machine use: what a command leaves unchanged, the invariant of the state
(spec/10_state.md R22, R25, R27, R28, R40, R41; R102, R124), and the host's duties that decide whether a step is admitted
(spec/20_memory.md R65, R72; spec/70_reset_and_hazards.md R250). -/

namespace Sys2Proof.Machine

/-! ## Frames -/

/-- The parameters and ROMs are unchanged. -/
abbrev SameConfig (s t : State) : Prop := t.cfg = s.cfg

/-- Every channel record is unchanged. -/
abbrev SameChannels (s t : State) : Prop := t.channels = s.channels

/-- Every voice record is unchanged. -/
abbrev SameVoices (s t : State) : Prop := t.voices = s.voices

/-- The event FIFO is unchanged. -/
abbrev SameFifo (s t : State) : Prop := t.queue = s.queue

/-- The sequencer is unchanged. -/
abbrev SameSequencer (s t : State) : Prop := t.busy = s.busy ∧ t.pendingK = s.pendingK ∧ t.pendingN = s.pendingN

/-- The sticky status bits are unchanged. -/
abbrev SameSticky (s t : State) : Prop := t.done = s.done ∧ t.evovf = s.evovf ∧ t.rnovr = s.rnovr

/-- CTRL is unchanged. -/
abbrev SameCtrl (s t : State) : Prop := t.ie = s.ie

/-- Every byte of memory reads as before. -/
abbrev SameMemory (s t : State) : Prop := ∀ a, t.memByte a = s.memByte a

/-- The turns to come, the drawn values and the OUTBUF epoch (the model's own fields) are unchanged. -/
abbrev SameOwn (s t : State) : Prop := t.agenda = s.agenda ∧ t.draws = s.draws ∧ t.outbufEpoch = s.outbufEpoch

/-- The value last returned to the host is unchanged. -/
abbrev SameHostData (s t : State) : Prop := t.hostData = s.hostData

/-! ## The invariant -/

/-- The channel invariants (R22): no derived value is stale. -/
structure ChannelInv (cfg : Config) (ch : Channel) : Prop where
  panLeft : ch.panLeft = panRom (127 - ch.cc[ccPan])
  panRight : ch.panRight = panRom ch.cc[ccPan]
  bendIndex : ch.bendIndex.toInt = bendOffset cfg ch.bendRaw - 8192
  bendMult : ch.bendMult = powRom (ch.bendIndex.toInt + 8192).toNat

/-- What every voice record satisfies between steps (R25 to R28, R102). -/
structure VoiceInv (cfg : Config) (v : Voice) : Prop where
  free : v.inUse = false → v = .atRest
  velocity : v.inUse = true → 1 ≤ v.velocity.toNat
  sounding : v.inUse = true → v.amp.phase ≠ .off
  patch : v.patch.toNat < cfg.numPatches
  penvEn : v.inUse = true → v.penvEn = (patchAt cfg v.patch).penvEn
  base : v.inUse = true → v.phaseStepBase = noteRom cfg.sampleRate v.note
  released : v.inUse = true → (v.releasable = true ↔ v.amp.phase = .release)
  ampLevel : v.amp.level.toNat ≤ envMax
  pitchLevel : v.pitch.level.toNat ≤ envMax
  noPitch : v.penvEn = false → v.pitch = .atRest

/-- The invariant of the state: the configuration is legal, the records satisfy theirs, there are NUM_VOICES voices, the
FIFO and the sequencer keep their bounds (R40, R41), and OUTBUF's memory is in canonical form and lists bytes of the
buffer only (R43, R63). -/
structure StateInv (s : State) : Prop where
  legal : s.cfg.legal = true
  channel : ∀ c, ChannelInv s.cfg (s.channel c)
  voiceCount : s.voices.length = s.cfg.numVoices
  voice : ∀ v ∈ s.voices, VoiceInv s.cfg v
  fifo : s.queue.length ≤ s.cfg.evqDepth
  pendingK : s.pendingK ≤ s.queue.length
  pendingN : s.pendingN ≤ s.cfg.maxFrames
  idle : s.busy = false → s.pendingK = 0 ∧ s.pendingN = 0
  memory : Memory.wf s.outbuf
  memoryRange : ∀ p ∈ s.outbuf, offOutbuf ≤ p.1 ∧ p.1 < offOutbuf + 8 * s.cfg.maxFrames

/-! ## The host's duties -/

/-- The window admits the access: 32 bits wide, inside the window, at a multiple of 4 (R65). -/
def Access.admitted (base : Nat) (a : Access) : Prop :=
  a.bits = 32 ∧ base ≤ a.addr ∧ a.addr < base + windowBytes ∧ (a.addr - base) % 4 = 0

/-- The access is to a word of OUTBUF (R61, R63). -/
def Access.toOutbuf (cfg : Config) (a : Access) : Prop :=
  cfg.coreBase + offOutbuf ≤ a.addr ∧ a.addr < cfg.coreBase + offOutbuf + 8 * cfg.maxFrames

/-- The host's next turn keeps its duties: an admitted access, and none to OUTBUF while a render is in progress (R72, R250
items 2 and 5).  Turns of the CORE and resets have no duty. -/
def State.keepsDuties (s : State) : Prop :=
  ∀ a ts, s.agenda = .host a :: ts → Access.admitted s.cfg.coreBase a ∧ (s.busy = true → ¬ Access.toOutbuf s.cfg a)

end Sys2Proof.Machine
end

