-- ==== Sys2Proof/Certificates/Slice0/Obligations.lean ====
section
/-! DEFINITION. The statements about the machine that are to be proved, each a reading of numbered rules of spec/. -/

open Sys2Proof Sys2Proof.Machine

/-! ## Encodings -/

/-- R82: the match and mask pairs of the opcode map, with the fields of R81.  Every event word falls under exactly the row
the map gives it. -/
def Obligations.EventRowsFollowTheOpcodeMap : Prop :=
  ∀ w : EventWord,
    (w &&& 0x800000#24 = 0x000000#24 → decodeEvent w = .nonStatus) ∧
    (w &&& 0xF00000#24 = 0x800000#24 →
      decodeEvent w = .noteOff (w.extractLsb' 16 4) (w.extractLsb' 8 7) (w.extractLsb' 0 7)) ∧
    (w &&& 0xF0007F#24 = 0x900000#24 → decodeEvent w = .noteOnV0 (w.extractLsb' 16 4) (w.extractLsb' 8 7)) ∧
    (w &&& 0xF00000#24 = 0x900000#24 → w.extractLsb' 0 7 ≠ 0#7 →
      decodeEvent w = .noteOn (w.extractLsb' 16 4) (w.extractLsb' 8 7) (w.extractLsb' 0 7)) ∧
    (w &&& 0xF00000#24 = 0xA00000#24 → decodeEvent w = .polyPressure) ∧
    (w &&& 0xF00000#24 = 0xB00000#24 →
      decodeEvent w = .controlChange (w.extractLsb' 16 4) (w.extractLsb' 8 7) (w.extractLsb' 0 7)) ∧
    (w &&& 0xF00000#24 = 0xC00000#24 → decodeEvent w = .programChange (w.extractLsb' 16 4) (w.extractLsb' 8 7)) ∧
    (w &&& 0xF00000#24 = 0xD00000#24 → decodeEvent w = .channelPressure (w.extractLsb' 16 4) (w.extractLsb' 8 7)) ∧
    (w &&& 0xF00000#24 = 0xE00000#24 →
      decodeEvent w = .pitchBend (w.extractLsb' 16 4) (w.extractLsb' 8 7) (w.extractLsb' 0 7)) ∧
    (w &&& 0xF00000#24 = 0xF00000#24 → decodeEvent w = .system)

/-- Decoding the words of a well-formed command gives the command back, for every command, every operand value and every
place of the window. -/
def Obligations.DecodeOfEncodeIsTheCommand : Prop :=
  ∀ (base : Nat) (i : Instr), i.wellFormed = true → decode base (encode base i) = .ok i

/-- R65, R87: the decoder gives a well-formed command for the accesses that are 32 bits wide, inside the window and at a
multiple of 4, and for no other.  That it gives none for an access outside the window is the model's deduction from R68, which
leaves everything there to the platform (notes/assumptions/13.md). -/
def Obligations.ExactlyTheAdmittedAccessesDecode : Prop :=
  ∀ (base : Nat) (a : Access),
    (Access.admitted base a → ∃ i, decodeAccess base a = .ok i ∧ i.wellFormed = true) ∧
    (¬ Access.admitted base a → ∃ r, decodeAccess base a = .error r)

/-- R84: the layout of a patch record, byte by byte: each field is the named low bits of its byte, so that the bits above
them are ignored; encoding a patch and decoding it gives it back; and the reference patch 2 encodes as the spec's bytes. -/
def Obligations.PatchRecordLayout : Prop :=
  (∀ r : Vector Byte 16,
    (decodePatch r).wave.toNat = r[0].toNat % 4 ∧ (decodePatch r).ampA.toNat = r[1].toNat % 128 ∧
    (decodePatch r).ampD.toNat = r[2].toNat % 128 ∧ (decodePatch r).ampS.toNat = r[3].toNat % 128 ∧
    (decodePatch r).ampR.toNat = r[4].toNat % 128 ∧ (decodePatch r).master.toNat = r[5].toNat % 128 ∧
    ((decodePatch r).penvEn = true ↔ r[6].toNat % 2 = 1) ∧ (decodePatch r).penvA.toNat = r[7].toNat % 128 ∧
    (decodePatch r).penvD.toNat = r[8].toNat % 128 ∧ (decodePatch r).penvS.toNat = r[9].toNat % 128 ∧
    (decodePatch r).penvR.toNat = r[10].toNat % 128 ∧ (decodePatch r).penvDepth.toInt = r[11].toInt ∧
    (decodePatch r).vibWave.toNat = r[12].toNat % 4 ∧ (decodePatch r).vibDepth.toNat = r[13].toNat % 128 ∧
    (decodePatch r).vibRate.toNat = r[14].toNat % 128) ∧
  (∀ p : Patch, decodePatch (encodePatch p) = p) ∧
  encodePatch patch2 =
    #v[0x02, 0x40, 0x20, 0x40, 0x10, 0x5A, 0x01, 0x7F, 0x08, 0x00, 0x08, 0x40, 0x00, 0x00, 0x00, 0x00]

/-- Words written out from the spec's encodings (95_test_vectors.md section 2.1, R89; the offsets of R61) decode to the
commands they stand for. -/
def Obligations.WrittenOutWordsDecode : Prop :=
  decodeEvent 0x904564 = .noteOn 0 69 100 ∧ decodeEvent 0x90C5E4 = .noteOn 0 69 100 ∧
  decodeEvent 0x904580 = .noteOnV0 0 69 ∧ decodeEvent 0x804540 = .noteOff 0 69 64 ∧
  decodeEvent 0xB00A00 = .controlChange 0 10 0 ∧ decodeEvent 0xD35A00 = .channelPressure 3 90 ∧
  decodeEvent 0xE07F7F = .pitchBend 0 127 127 ∧ decodeEvent 0x7F4564 = .nonStatus ∧
  decodeAccess 0x40000000 ⟨0x40000000, 32, .write, 0x00904564⟩ = .ok (.eventWr 0x904564) ∧
  decodeAccess 0x40000000 ⟨0x40000004, 32, .write, 0x00000100⟩ = .ok (.renderWr 256) ∧
  decodeAccess 0x40000000 ⟨0x40000008, 32, .read, 0⟩ = .ok .statusRd ∧
  decodeAccess 0x40000000 ⟨0x40000008, 32, .write, 0x0000000E⟩ = .ok (.statusWr true true true) ∧
  decodeAccess 0x40000000 ⟨0x4000000C, 32, .read, 0⟩ = .ok .ctrlRd ∧
  decodeAccess 0x40000000 ⟨0x4000000C, 32, .write, 0x00000001⟩ = .ok (.ctrlWr true) ∧
  decodeAccess 0x40000000 ⟨0x40001004, 32, .write, 0x12345678⟩ = .ok (.outbufWr 1 0x12345678) ∧
  decodeAccess 0x40000000 ⟨0x4000100C, 32, .read, 0⟩ = .ok (.outbufRd 3) ∧
  decodeAccess 0x40000000 ⟨0x4000010C, 32, .read, 0⟩ = .ok (.voiceStatRd 1 true)

/-! ## Steps -/

/-- R71: a host step is the command that its access decodes to, executed on the state with that turn taken off. -/
def Obligations.HostStepRunsTheDecodedCommand : Prop :=
  ∀ (s : State) (a : Access) (ts : List Turn) (i : Instr),
    s.cfg.legal = true → s.agenda = .host a :: ts → decodeAccess s.cfg.coreBase a = .ok i →
    step s = exec i { s with agenda := ts }

/-- R181, R180: the CORE's turn while a render is in progress takes exactly the pending entries off the FIFO's head, in
order, executing the command that each decodes to on the state without it, and then renders the block. -/
def Obligations.RenderStepRunsThePendingEvents : Prop :=
  ∀ (s : State) (ts : List Turn) (evs rest : List EventWord),
    s.cfg.legal = true → s.agenda = .core :: ts → s.busy = true → s.queue = evs ++ rest → s.pendingK = evs.length →
    step s =
      andThen
        (evs.foldl (fun o w => andThen o fun t => exec (decodeEvent w) { t with queue := t.queue.tail })
          (.next { s with agenda := ts }))
        (fun t => .next (renderBlock s.pendingN t))

/-- R232, R71 and the model's choice of what happens when no turn is left (notes/assumptions/2.md): an idle CORE does
nothing, also when the turn is its own, and one that has accepted a render performs it. -/
def Obligations.CoreTurnRendersOrIdles : Prop :=
  ∀ s : State, s.cfg.legal = true →
    (s.agenda = [] → s.busy = false → step s = .next s) ∧
    (s.agenda = [] → s.busy = true → step s = render s) ∧
    (∀ ts, s.agenda = .core :: ts → s.busy = false → step s = .next { s with agenda := ts })

/-- R7's legal ranges and R8's constraints, with U7: a configuration outside them is refused, and every one inside all of
them is legal.  That the waveforms' length 2^TABLE_BITS is one of these conditions is the model's deduction from R30
(notes/assumptions/15.md), and SAMPLE_RATE is a whole number of Hz by the model's choice (notes/assumptions/21.md). -/
def Obligations.IllegalConfigurationIsRefused : Prop :=
  (∀ cfg : Config, 1 ≤ cfg.numVoices → cfg.numVoices ≤ 256 → 0 < cfg.sampleRate → 1 ≤ cfg.maxFrames → cfg.maxFrames ≤ 512 →
    1 ≤ cfg.evqDepth → cfg.evqDepth ≤ 255 → 1 ≤ cfg.tableBits → cfg.tableBits ≤ 16 → cfg.envShift ≤ 8 →
    cfg.bendRange ≤ 24 → 1 ≤ cfg.numPatches → cfg.numPatches ≤ 128 →
    (∀ w : Fin 4, (cfg.waveRom[w]).length = 2 ^ cfg.tableBits) → cfg.legal = true) ∧
  ∀ s : State,
    (s.cfg.numVoices = 0 ∨ 256 < s.cfg.numVoices ∨ s.cfg.sampleRate = 0 ∨ s.cfg.maxFrames = 0 ∨ 512 < s.cfg.maxFrames ∨
      s.cfg.evqDepth = 0 ∨ 255 < s.cfg.evqDepth ∨ s.cfg.tableBits = 0 ∨ 16 < s.cfg.tableBits ∨ 8 < s.cfg.envShift ∨
      24 < s.cfg.bendRange ∨ s.cfg.numPatches = 0 ∨ 128 < s.cfg.numPatches ∨
      ∃ wave ∈ s.cfg.waveRom.toList, wave.length ≠ 2 ^ s.cfg.tableBits) →
    step s = .refused .illegalConfiguration

/-- R65: a host step of another width than 32 bits, or at an offset that is not a multiple of 4, is refused. -/
def Obligations.UnadmittedAccessIsRefused : Prop :=
  ∀ (s : State) (a : Access) (ts : List Turn), s.cfg.legal = true → s.agenda = .host a :: ts →
    (a.bits ≠ 32 → step s = .refused .accessNotWord) ∧
    (a.bits = 32 → s.cfg.coreBase ≤ a.addr → a.addr < s.cfg.coreBase + windowBytes →
      (a.addr - s.cfg.coreBase) % 4 ≠ 0 → step s = .refused .accessMisaligned)

/-- R220, R65, R72: in a legal configuration every step completes whose host access, if the turn is the host's, is
admitted and not to OUTBUF while a render is in progress. -/
def Obligations.EveryDutifulStepCompletes : Prop :=
  ∀ s : State, s.cfg.legal = true → s.keepsDuties → ∃ t, step s = .next t

/-- R72, U2: the host has no access to a word of OUTBUF while a render is in progress.  That the offsets above the buffer are
R62's reserved ones then too, so that a read returns 0 and a write is ignored, is the model's deduction
(notes/assumptions/6.md). -/
def Obligations.OutbufIsRefusedWhileBusy : Prop :=
  ∀ (k : BitVec 10) (w : Word) (s : State), s.busy = true →
    (k.toNat < 2 * s.cfg.maxFrames →
      exec (.outbufRd k) s = .refused .outbufWhileBusy ∧ exec (.outbufWr k w) s = .refused .outbufWhileBusy) ∧
    (2 * s.cfg.maxFrames ≤ k.toNat →
      exec (.outbufRd k) s = .next { s with hostData := 0 } ∧ exec (.outbufWr k w) s = .next s)

/-! ## Voice events -/

/-- R105, R100, R101: NOTE_OFF and NOTE_ON_V0 release every in-use voice bound to the channel and playing the note: both
its envelopes are gated off (the pitch envelope where the voice has one) and it may be stolen.  Every other voice and
everything else is unchanged, and the note-off velocity has no effect. -/
def Obligations.NoteOffReleasesTheMatchingVoices : Prop :=
  ∀ (c : BitVec 4) (n vel : BitVec 7) (s : State), ∃ t,
    exec (.noteOff c n vel) s = .next t ∧ exec (.noteOnV0 c n) s = .next t ∧
    t.voices.length = s.voices.length ∧
    (∀ i v, s.voice? i = some v →
      (v.inUse = true ∧ v.channel = c ∧ v.note = n →
        t.voice? i = some { v with
          releasable := true
          amp := { v.amp with phase := .release }
          pitch := if v.penvEn then { v.pitch with phase := .release } else v.pitch }) ∧
      (¬ (v.inUse = true ∧ v.channel = c ∧ v.note = n) → t.voice? i = some v)) ∧
    SameConfig s t ∧ SameChannels s t ∧ SameFifo s t ∧ SameSequencer s t ∧ SameSticky s t ∧ SameCtrl s t ∧ SameMemory s t ∧
    SameOwn s t ∧ SameHostData s t

/-- R102, R103: with a free voice, NOTE_ON takes the lowest-index one and writes its record; every other voice and
everything else is unchanged.  The free voice's envelopes are at rest in every state of the invariant (R25). -/
def Obligations.NoteOnTakesTheLowestFreeVoice : Prop :=
  ∀ (c : BitVec 4) (n vel : BitVec 7) (s : State) (i : Nat),
    s.voice? i = some .atRest → (∀ j v, j < i → s.voice? j = some v → v.inUse = true) →
    ∃ t, exec (.noteOn c n vel) s = .next t ∧
      t.voice? i = some
        { inUse := true, releasable := false, note := n, velocity := vel, channel := c
          patch := patchIndex s.cfg (s.channel c).program
          penvEn := (patchAt s.cfg (patchIndex s.cfg (s.channel c).program)).penvEn
          amp := ⟨.attack, 0⟩
          pitch := if (patchAt s.cfg (patchIndex s.cfg (s.channel c).program)).penvEn then ⟨.attack, 0⟩ else ⟨.off, 0⟩
          phaseAcc := 0, phaseStepBase := noteRom s.cfg.sampleRate n, phaseStepCurrent := noteRom s.cfg.sampleRate n
          vibPhase := 0 } ∧
      (patchIndex s.cfg (s.channel c).program).toNat = (s.channel c).program.toNat % s.cfg.numPatches ∧
      (∀ j, j ≠ i → t.voice? j = s.voice? j) ∧
      SameConfig s t ∧ SameChannels s t ∧ SameFifo s t ∧ SameSequencer s t ∧ SameSticky s t ∧ SameCtrl s t ∧
      SameMemory s t ∧ SameOwn s t ∧ SameHostData s t

/-- R102, R103, R104: with no free voice, NOTE_ON steals the lowest-index releasable one, whose prior state is wholly
replaced; every other voice and everything else is unchanged. -/
def Obligations.NoteOnStealsTheLowestReleasableVoice : Prop :=
  ∀ (c : BitVec 4) (n vel : BitVec 7) (s : State) (i : Nat) (old : Voice),
    (∀ v ∈ s.voices, v.inUse = true) → s.voice? i = some old → old.releasable = true →
    (∀ j v, j < i → s.voice? j = some v → v.releasable = false) →
    ∃ t, exec (.noteOn c n vel) s = .next t ∧
      t.voice? i = some
        { inUse := true, releasable := false, note := n, velocity := vel, channel := c
          patch := patchIndex s.cfg (s.channel c).program
          penvEn := (patchAt s.cfg (patchIndex s.cfg (s.channel c).program)).penvEn
          amp := ⟨.attack, 0⟩
          pitch := if (patchAt s.cfg (patchIndex s.cfg (s.channel c).program)).penvEn then ⟨.attack, 0⟩ else ⟨.off, 0⟩
          phaseAcc := 0, phaseStepBase := noteRom s.cfg.sampleRate n, phaseStepCurrent := noteRom s.cfg.sampleRate n
          vibPhase := 0 } ∧
      (patchIndex s.cfg (s.channel c).program).toNat = (s.channel c).program.toNat % s.cfg.numPatches ∧
      (∀ j, j ≠ i → t.voice? j = s.voice? j) ∧
      SameConfig s t ∧ SameChannels s t ∧ SameFifo s t ∧ SameSequencer s t ∧ SameSticky s t ∧ SameCtrl s t ∧
      SameMemory s t ∧ SameOwn s t ∧ SameHostData s t

/-- R102, R103: with no free and no releasable voice the note is dropped and no state changes. -/
def Obligations.NoteOnIsDroppedWithoutAVoice : Prop :=
  ∀ (c : BitVec 4) (n vel : BitVec 7) (s : State),
    (∀ v ∈ s.voices, v.inUse = true ∧ v.releasable = false) → exec (.noteOn c n vel) s = .next s

/-- R107: no event frees a voice.  Whatever an event word decodes to, every voice in use before it is in use after it. -/
def Obligations.NoEventFreesAVoice : Prop :=
  ∀ (w : EventWord) (s t : State) (i : Nat) (v : Voice),
    exec (decodeEvent w) s = .next t → s.voice? i = some v → v.inUse = true →
    ∃ v', t.voice? i = some v' ∧ v'.inUse = true

/-! ## Channel events -/

/-- R120, R121: CONTROL_CHANGE stores the value; the pan controller also recomputes both pan coefficients, and no other
controller does.  Every other controller, field, channel and everything else is unchanged. -/
def Obligations.ControlChangeStoresAndPans : Prop :=
  ∀ (c : BitVec 4) (k v : BitVec 7) (s : State), ∃ t,
    exec (.controlChange c k v) s = .next t ∧
    (t.channel c).controller k = v ∧
    (∀ k', k' ≠ k → (t.channel c).controller k' = (s.channel c).controller k') ∧
    (k = 10 → (t.channel c).panRight = panRom v ∧ (t.channel c).panLeft = panRom (127 - v)) ∧
    (k ≠ 10 → (t.channel c).panRight = (s.channel c).panRight ∧ (t.channel c).panLeft = (s.channel c).panLeft) ∧
    (t.channel c).bendRaw = (s.channel c).bendRaw ∧ (t.channel c).bendIndex = (s.channel c).bendIndex ∧
    (t.channel c).bendMult = (s.channel c).bendMult ∧ (t.channel c).program = (s.channel c).program ∧
    (t.channel c).pressure = (s.channel c).pressure ∧
    (∀ c', c' ≠ c → t.channel c' = s.channel c') ∧
    SameConfig s t ∧ SameVoices s t ∧ SameFifo s t ∧ SameSequencer s t ∧ SameSticky s t ∧ SameCtrl s t ∧ SameMemory s t ∧
    SameOwn s t ∧ SameHostData s t

/-- R122: PROGRAM_CHANGE stores the program as given, also at or above NUM_PATCHES; voices already sounding keep their
captured patch, and nothing else changes. -/
def Obligations.ProgramChangeStoresTheProgram : Prop :=
  ∀ (c : BitVec 4) (p : BitVec 7) (s : State), ∃ t,
    exec (.programChange c p) s = .next t ∧
    t.channel c = { s.channel c with program := p } ∧ (∀ c', c' ≠ c → t.channel c' = s.channel c') ∧
    SameConfig s t ∧ SameVoices s t ∧ SameFifo s t ∧ SameSequencer s t ∧ SameSticky s t ∧ SameCtrl s t ∧ SameMemory s t ∧
    SameOwn s t ∧ SameHostData s t

/-- R123: CHANNEL_PRESSURE stores the pressure, and nothing else changes. -/
def Obligations.ChannelPressureStoresThePressure : Prop :=
  ∀ (c : BitVec 4) (p : BitVec 7) (s : State), ∃ t,
    exec (.channelPressure c p) s = .next t ∧
    t.channel c = { s.channel c with pressure := p } ∧ (∀ c', c' ≠ c → t.channel c' = s.channel c') ∧
    SameConfig s t ∧ SameVoices s t ∧ SameFifo s t ∧ SameSequencer s t ∧ SameSticky s t ∧ SameCtrl s t ∧ SameMemory s t ∧
    SameOwn s t ∧ SameHostData s t

/-- R125, R126: a PITCH_BEND whose raw value differs from the cached one stores it and recomputes the index and the
multiplier, the division rounding toward zero and the offset clamped; one whose raw value is the cached one changes
nothing.  The index's 15 bits hold the exact value. -/
def Obligations.PitchBendUpdatesIndexAndMultiplier : Prop :=
  ∀ (c : BitVec 4) (l m : BitVec 7) (s : State), ∃ t,
    exec (.pitchBend c l m) s = .next t ∧
    (128 * m.toNat + l.toNat = (s.channel c).bendRaw.toNat → t.channel c = s.channel c) ∧
    (128 * m.toNat + l.toNat ≠ (s.channel c).bendRaw.toNat →
      let offset : Int := min (max (8192 + Int.tdiv ((128 * m.toNat + l.toNat - 8192 : Int) * s.cfg.bendRange) 12) 0) 16383
      (t.channel c).bendRaw.toNat = 128 * m.toNat + l.toNat ∧ (t.channel c).bendIndex.toInt = offset - 8192 ∧
      (t.channel c).bendMult = powRom offset.toNat) ∧
    (t.channel c).cc = (s.channel c).cc ∧ (t.channel c).panLeft = (s.channel c).panLeft ∧
    (t.channel c).panRight = (s.channel c).panRight ∧ (t.channel c).program = (s.channel c).program ∧
    (t.channel c).pressure = (s.channel c).pressure ∧
    (∀ c', c' ≠ c → t.channel c' = s.channel c') ∧
    SameConfig s t ∧ SameVoices s t ∧ SameFifo s t ∧ SameSequencer s t ∧ SameSticky s t ∧ SameCtrl s t ∧ SameMemory s t ∧
    SameOwn s t ∧ SameHostData s t

/-- R130, R131, R132: an event word with bit 23 clear, or with the command nibble 0xA or 0xF, is NON_STATUS, POLY_PRESSURE or
SYSTEM; it changes no state, and a drain only takes it off the FIFO. -/
def Obligations.IgnoredEventsChangeNothing : Prop :=
  ∀ s : State, exec .nonStatus s = .next s ∧ exec .polyPressure s = .next s ∧ exec .system s = .next s ∧
    ∀ w : EventWord, w.getLsbD 23 = false ∨ w.extractLsb' 20 4 = 0xA#4 ∨ w.extractLsb' 20 4 = 0xF#4 →
      exec (decodeEvent w) s = .next s ∧
      ∀ k q, s.queue = w :: q → drain (k + 1) s = drain k { s with queue := q }

/-! ## Host accesses -/

/-- R200: EVENT_WR takes bits [23:0] of the written word, undecoded, and appends them at the FIFO's tail while the FIFO has
room, also while a render is in progress; at a full FIFO the event is dropped and EVOVF is set.  Nothing else changes. -/
def Obligations.EventWriteAppendsOrIsDropped : Prop :=
  (∀ w : Word, decodeWrite offEvent w = .eventWr (w.extractLsb' 0 24)) ∧
  ∀ (e : EventWord) (s : State),
    (s.queue.length < s.cfg.evqDepth → ∃ t, exec (.eventWr e) s = .next t ∧
      t.queue = s.queue ++ [e] ∧ SameSticky s t ∧
      SameConfig s t ∧ SameChannels s t ∧ SameVoices s t ∧ SameSequencer s t ∧ SameCtrl s t ∧ SameMemory s t ∧
      SameOwn s t ∧ SameHostData s t) ∧
    (s.cfg.evqDepth ≤ s.queue.length → ∃ t, exec (.eventWr e) s = .next t ∧
      t.queue = s.queue ∧ t.evovf = true ∧ t.done = s.done ∧ t.rnovr = s.rnovr ∧
      SameConfig s t ∧ SameChannels s t ∧ SameVoices s t ∧ SameSequencer s t ∧ SameCtrl s t ∧ SameMemory s t ∧
      SameOwn s t ∧ SameHostData s t)

/-- R201: RENDER_WR takes FRAMES from bits [15:0]; an idle CORE accepts it, latching the number of FIFO entries present and
the block length clamped to MAX_FRAMES and clearing no DONE; a busy one ignores it and sets RNOVR.  Nothing else changes. -/
def Obligations.RenderWriteIsAcceptedOrFlagged : Prop :=
  (∀ w : Word, decodeWrite offRender w = .renderWr (w.extractLsb' 0 16)) ∧
  ∀ (frames : BitVec 16) (s : State),
    (s.busy = false → ∃ t, exec (.renderWr frames) s = .next t ∧
      t.busy = true ∧ t.pendingK = s.queue.length ∧ t.pendingN = min frames.toNat s.cfg.maxFrames ∧ SameSticky s t ∧
      SameConfig s t ∧ SameChannels s t ∧ SameVoices s t ∧ SameFifo s t ∧ SameCtrl s t ∧ SameMemory s t ∧
      SameOwn s t ∧ SameHostData s t) ∧
    (s.busy = true → ∃ t, exec (.renderWr frames) s = .next t ∧
      SameSequencer s t ∧ t.rnovr = true ∧ t.done = s.done ∧ t.evovf = s.evovf ∧
      SameConfig s t ∧ SameChannels s t ∧ SameVoices s t ∧ SameFifo s t ∧ SameCtrl s t ∧ SameMemory s t ∧
      SameOwn s t ∧ SameHostData s t)

/-- R202, R42: STATUS_RD returns the fields of STATUS at their bits and 0 in the reserved bits, and changes nothing but
what the host holds; the count is exact, since EVQ_DEPTH is at most 255. -/
def Obligations.StatusReadReturnsTheFields : Prop :=
  ∀ s : State, ∃ t w, exec .statusRd s = .next t ∧ t = { s with hostData := w } ∧
    w.getLsbD 0 = s.busy ∧ w.getLsbD 1 = s.done ∧ w.getLsbD 2 = s.evovf ∧ w.getLsbD 3 = s.rnovr ∧
    w.getLsbD 4 = decide (s.queue.length = s.cfg.evqDepth) ∧ w.getLsbD 5 = decide (s.queue = []) ∧
    w.extractLsb' 6 2 = 0#2 ∧ w.extractLsb' 16 16 = 0#16 ∧
    (s.queue.length ≤ 255 → (w.extractLsb' 8 8).toNat = s.queue.length)

/-- R86, R202: a write of STATUS takes CLR_DONE, CLR_EVOVF and CLR_RNOVR from bits 1, 2 and 3 of the word, whatever its
other bits are; STATUS_WR clears each sticky bit written with a 1 and leaves the others, and it changes nothing else. -/
def Obligations.StatusWriteClearsTheNamedBits : Prop :=
  (∀ w : Word, decodeWrite offStatus w = .statusWr (w.getLsbD 1) (w.getLsbD 2) (w.getLsbD 3)) ∧
  ∀ (d e r : Bool) (s : State), ∃ t, exec (.statusWr d e r) s = .next t ∧
    t.done = (if d then false else s.done) ∧ t.evovf = (if e then false else s.evovf) ∧
    t.rnovr = (if r then false else s.rnovr) ∧
    SameConfig s t ∧ SameChannels s t ∧ SameVoices s t ∧ SameFifo s t ∧ SameSequencer s t ∧ SameCtrl s t ∧
    SameMemory s t ∧ SameOwn s t ∧ SameHostData s t

/-- R203, R222: CTRL_RD returns IE in bit 0 and 0 above; CTRL_WR sets IE to w[0], the other bits ignored, and nothing
else, so that the next CTRL_RD returns it, and `irq` follows at once. -/
def Obligations.CtrlReadAndWriteActOnInterruptEnable : Prop :=
  (∀ s : State, exec .ctrlRd s = .next { s with hostData := if s.ie then 1 else 0 }) ∧
  (∀ w : Word, decodeWrite offCtrl w = .ctrlWr (w.getLsbD 0)) ∧
  ∀ (ie : Bool) (s : State), ∃ t,
    exec (.ctrlWr ie) s = .next t ∧ t.ie = ie ∧ t.irq = (s.done && ie) ∧
    exec .ctrlRd t = .next { t with hostData := if ie then 1 else 0 } ∧
    SameConfig s t ∧ SameChannels s t ∧ SameVoices s t ∧ SameFifo s t ∧ SameSequencer s t ∧ SameSticky s t ∧
    SameMemory s t ∧ SameOwn s t ∧ SameHostData s t

/-- R204, R61, R62: a read of EVENT, RENDER or a reserved offset returns 0 and has no other effect, and a write to a
reserved or VOICE_STAT offset, of any word, changes no state.  The decode clauses say which offsets these are: every aligned
one from 0x0010 to 0x0FFF for a write, and for a read those of them outside VOICE_STAT's 0x0100 to 0x08FF. -/
def Obligations.ReservedAndWriteOnlyReadZero : Prop :=
  decodeRead 0x0000 = .eventRd ∧ decodeRead 0x0004 = .renderRd ∧
  (∀ off : Nat, off % 4 = 0 → (0x0010 ≤ off ∧ off < 0x0100) ∨ (0x0900 ≤ off ∧ off < 0x1000) →
    decodeRead off = .reservedRd (BitVec.ofNat 13 off)) ∧
  (∀ (off : Nat) (w : Word), off % 4 = 0 → 0x0010 ≤ off → off < 0x1000 →
    decodeWrite off w = .reservedWr (BitVec.ofNat 13 off)) ∧
  ∀ (off : BitVec 13) (s : State),
    exec .eventRd s = .next { s with hostData := 0 } ∧ exec .renderRd s = .next { s with hostData := 0 } ∧
    exec (.reservedRd off) s = .next { s with hostData := 0 } ∧ exec (.reservedWr off) s = .next s

/-- R205, R27, R62: while idle VOICE_STAT_RD returns the voice's fields at their bits, 0 in the others, with the phase codes
0 to 4 of R27; an absent voice reads 0, which is the model's deduction where a render is in progress (notes/assumptions/6.md).
While a render is in progress the read of a present voice completes with the model's free value of the draw counter, which the
read advances (notes/assumptions/5.md); nothing is known of that value, and nothing of the CORE changes. -/
def Obligations.VoiceStatReadReturnsTheVoice : Prop :=
  (phaseCode .off = 0 ∧ phaseCode .attack = 1 ∧ phaseCode .decay = 2 ∧ phaseCode .sustain = 3 ∧ phaseCode .release = 4) ∧
  ∀ (i : BitVec 8) (word1 : Bool) (s : State),
    (s.cfg.numVoices ≤ i.toNat → exec (.voiceStatRd i word1) s = .next { s with hostData := 0 }) ∧
    (i.toNat < s.cfg.numVoices → s.busy = true →
      exec (.voiceStatRd i word1) s = .next { s with draws := s.draws + 1, hostData := Config.freeVoiceStat s.draws }) ∧
    (i.toNat < s.cfg.numVoices → s.busy = false → ∀ v, s.voice? i.toNat = some v → ∃ w,
      exec (.voiceStatRd i word1) s = .next { s with hostData := w } ∧
      (word1 = false →
        w.getLsbD 0 = v.inUse ∧ w.getLsbD 1 = v.releasable ∧ w.extractLsb' 2 3 = phaseCode v.amp.phase ∧
        w.getLsbD 5 = v.penvEn ∧ w.extractLsb' 6 2 = 0#2 ∧ w.extractLsb' 8 7 = v.note ∧ w.getLsbD 15 = false ∧
        w.extractLsb' 16 4 = v.channel ∧ w.extractLsb' 20 3 = phaseCode v.pitch.phase ∧ w.getLsbD 23 = false ∧
        w.extractLsb' 24 7 = v.velocity ∧ w.getLsbD 31 = false) ∧
      (word1 = true → w.extractLsb' 0 16 = v.amp.level ∧ w.extractLsb' 16 16 = v.pitch.level))

/-- R206, R63: while idle OUTBUF_RD returns the word of the buffer and changes nothing but what the host holds; OUTBUF_WR
stores its word, which a read then returns, and every byte outside the word's four, every register and every flag is
unchanged.  Above the buffer (R62) a read returns 0 and a write changes no state, idle or busy; that this holds also while a
render is in progress is the model's deduction (notes/assumptions/6.md). -/
def Obligations.OutbufAccessesReadAndWriteTheirWord : Prop :=
  ∀ (k : BitVec 10) (w : Word) (s : State),
    (s.busy = false → k.toNat < 2 * s.cfg.maxFrames →
      exec (.outbufRd k) s = .next { s with hostData := s.outWord k.toNat } ∧
      ∃ t, exec (.outbufWr k w) s = .next t ∧ t.outWord k.toNat = w ∧
        exec (.outbufRd k) t = .next { t with hostData := w } ∧
        (∀ a, a < outAddr k.toNat ∨ outAddr k.toNat + 4 ≤ a → t.memByte a = s.memByte a) ∧
        SameConfig s t ∧ SameChannels s t ∧ SameVoices s t ∧ SameFifo s t ∧ SameSequencer s t ∧ SameSticky s t ∧
        SameCtrl s t ∧ SameOwn s t ∧ SameHostData s t) ∧
    (2 * s.cfg.maxFrames ≤ k.toNat →
      exec (.outbufRd k) s = .next { s with hostData := 0 } ∧ exec (.outbufWr k w) s = .next s)

/-- R64: OUTBUF is little-endian: bits [8j+7:8j] of word k are the byte at offset 0x1000 + 4k + j, in every state, and after
OUTBUF_WR of `w` that byte is bits [8j+7:8j] of `w`. -/
def Obligations.OutbufIsLittleEndian : Prop :=
  (∀ (s : State) (k j : Nat), j < 4 → (s.outWord k).extractLsb' (8 * j) 8 = s.memByte (0x1000 + 4 * k + j)) ∧
  ∀ (k : BitVec 10) (w : Word) (s t : State), k.toNat < 2 * s.cfg.maxFrames → exec (.outbufWr k w) s = .next t →
    ∀ j, j < 4 → t.memByte (offOutbuf + 4 * k.toNat + j) = w.extractLsb' (8 * j) 8

/-- R70, R66: no host access changes a channel, a voice or the configuration, and a read changes nothing but the
model's own fields for what the host holds (notes/assumptions/8.md) and for the count of drawn values
(notes/assumptions/5.md). -/
def Obligations.HostAccessesLeaveTheEngineAlone : Prop :=
  ∀ (base : Nat) (a : Access) (i : Instr) (s t : State), decodeAccess base a = .ok i → exec i s = .next t →
    SameConfig s t ∧ SameChannels s t ∧ SameVoices s t ∧
    (a.kind = .read →
      SameFifo s t ∧ SameSequencer s t ∧ SameSticky s t ∧ SameCtrl s t ∧ SameMemory s t ∧ t.agenda = s.agenda ∧
      t.outbufEpoch = s.outbufEpoch)

/-! ## Envelopes -/

/-- R142, R144, R145: one Update, phase by phase, on every record: the ramps are exact
integers, each phase change happens inside the Update that reaches the limit, and the level is clamped there. -/
def Obligations.EnvelopeUpdateRampsAndClamps : Prop :=
  ∀ (cfg : Config) (e : Envelope) (a d s r : BitVec 7),
    let inc := fun x : BitVec 7 => (if x = 0 then 1 else x.toNat) * 2 ^ cfg.envShift
    let e' := envUpdate cfg e a d s r
    (e.phase = .off ∨ e.phase = .sustain → e' = e) ∧
    (e.phase = .attack → envMax ≤ e.level.toNat + inc a → e'.phase = .decay ∧ e'.level.toNat = envMax) ∧
    (e.phase = .attack → e.level.toNat + inc a < envMax → e'.phase = .attack ∧ e'.level.toNat = e.level.toNat + inc a) ∧
    (e.phase = .decay → e.level.toNat ≤ 256 * s.toNat + inc d →
      e'.level.toNat = 256 * s.toNat ∧ e'.phase = (if s = 0 then .off else .sustain)) ∧
    (e.phase = .decay → 256 * s.toNat + inc d < e.level.toNat →
      e'.phase = .decay ∧ e'.level.toNat + inc d = e.level.toNat) ∧
    (e.phase = .release → e.level.toNat ≤ inc r → e'.phase = .off ∧ e'.level.toNat = 0) ∧
    (e.phase = .release → inc r < e.level.toNat → e'.phase = .release ∧ e'.level.toNat + inc r = e.level.toNat)

/-- R140, R141, R143: GateOn goes to attack and GateOff to release, from every phase, and neither changes the level; from
release GateOff changes nothing, and an envelope gated off from off with level 0 is returned to off by the next Update.
Active is every phase but off; an envelope at off stays off under Update, and one that an Update brings to off has level 0. -/
def Obligations.GatesSetThePhaseOnly : Prop :=
  (∀ e : Envelope, gateOn e = ⟨.attack, e.level⟩ ∧ gateOff e = ⟨.release, e.level⟩ ∧
    (e.phase = .release → gateOff e = e) ∧ (envActive e = true ↔ e.phase ≠ .off)) ∧
  ∀ (cfg : Config) (e : Envelope) (a d s r : BitVec 7),
    (e = ⟨.off, 0⟩ → envUpdate cfg (gateOff e) a d s r = ⟨.off, 0⟩) ∧
    (envActive e = false → envUpdate cfg e a d s r = e) ∧
    (envActive e = true → envActive (envUpdate cfg e a d s r) = false → (envUpdate cfg e a d s r).level = 0)

/-- R147: an attack from level 0 ends after ceil(32767 / Inc(A)) Updates, a decay from the ceiling after
ceil((32767 − Target(S)) / Inc(D)), and a release from a level L above 0 after ceil(L / Inc(R)): not before, and then at
the limit, a decay with sustain 0 at off. -/
def Obligations.EnvelopePhasesLastTheirBlocks : Prop :=
  ∀ (cfg : Config) (a d s r : BitVec 7) (l : BitVec 16), 0 < l.toNat →
    let update := fun e => envUpdate cfg e a d s r
    let blocks := fun distance inc : Nat => (distance + inc - 1) / inc
    (∀ b, b < blocks envMax (envInc cfg a) → (update^[b] ⟨.attack, 0⟩).phase = .attack) ∧
    update^[blocks envMax (envInc cfg a)] ⟨.attack, 0⟩ = ⟨.decay, 0x7FFF⟩ ∧
    (∀ b, b < blocks (envMax - envTarget s) (envInc cfg d) → (update^[b] ⟨.decay, 0x7FFF⟩).phase = .decay) ∧
    update^[blocks (envMax - envTarget s) (envInc cfg d)] ⟨.decay, 0x7FFF⟩ =
      ⟨if s = 0 then .off else .sustain, BitVec.ofNat 16 (envTarget s)⟩ ∧
    (∀ b, b < blocks l.toNat (envInc cfg r) → (update^[b] ⟨.release, l⟩).phase = .release) ∧
    update^[blocks l.toNat (envInc cfg r)] ⟨.release, l⟩ = ⟨.off, 0⟩

/-! ## ROMs and modulation -/

/-- R32: `POW_ROM[p] = round(32768 × 2^((p − 8192) / 8192))` for p in 0..16383, with R10's `round(x) = floor(x + 1/2)` on
the real number x; every entry is in [16384, 65530]; one half, unity and the largest entry stand at 0, 8192 and 16383. -/
def Obligations.PowRomIsTheRoundedExponential : Prop :=
  (∀ p, p < powSize →
    (powRom p).toNat = ⌊(32768 : ℝ) * (2 : ℝ) ^ (((p : ℝ) - 8192) / 8192) + 1 / 2⌋₊ ∧
    16384 ≤ (powRom p).toNat ∧ (powRom p).toNat ≤ 65530) ∧
  (powRom 0).toNat = 16384 ∧ (powRom 8192).toNat = powUnity ∧ (powRom 16383).toNat = 65530

/-- R34: `PAN_ROM[v] = round(127 × sqrt(v / 127))` for v in 0..127, on the real numbers, with the four entries that the rule
names; the table does not decrease. -/
def Obligations.PanRomIsTheRoundedSquareRoot : Prop :=
  (∀ v : BitVec 7, (panRom v).toNat = ⌊(127 : ℝ) * Real.sqrt ((v.toNat : ℝ) / 127) + 1 / 2⌋₊) ∧
  (panRom 0 = 0 ∧ panRom 63 = 89 ∧ panRom 64 = 90 ∧ panRom 127 = 127) ∧
  ∀ u v : BitVec 7, u.toNat ≤ v.toNat → (panRom u).toNat ≤ (panRom v).toNat

/-- R31: `NOTE_ROM[n] = round(440 × 2^((n − 69) / 12) × 2^32 / SAMPLE_RATE)` for n in 0..127, on the real numbers, for every
SAMPLE_RATE of a whole number of Hz above 0 (whole by the model's choice, notes/assumptions/21.md) and every entry that 32 bits
hold: from 12544 Hz on, this hardware's 44100 Hz among them, the whole table.  An entry that 32 bits do not hold is the
model's free value (notes/assumptions/11.md).  At 44100 Hz entry 69 is 42852281. -/
def Obligations.NoteRomIsTheRoundedFormula : Prop :=
  (∀ (sampleRate : Nat) (n : BitVec 7), 0 < sampleRate →
    let x := ⌊(440 : ℝ) * (2 : ℝ) ^ (((n.toNat : ℝ) - 69) / 12) * 2 ^ 32 / (sampleRate : ℝ) + 1 / 2⌋₊
    (x < 2 ^ 32 → (noteRom sampleRate n).toNat = x) ∧
    (2 ^ 32 ≤ x → noteRom sampleRate n = Config.freeNoteStep sampleRate n.toNat)) ∧
  (∀ (sampleRate : Nat) (n : BitVec 7), 12544 ≤ sampleRate →
    (noteRom sampleRate n).toNat =
      ⌊(440 : ℝ) * (2 : ℝ) ^ (((n.toNat : ℝ) - 69) / 12) * 2 ^ 32 / (sampleRate : ℝ) + 1 / 2⌋₊) ∧
  (noteRom 44100 69).toNat = 42852281

/-- R162: FM is the floor of step × m / 2^15 reduced to 32 bits, it equals the split form for every step and multiplier,
and the multiplier at index 0 leaves every step unchanged. -/
def Obligations.FmEqualsTheSplitForm : Prop :=
  (∀ (step : Word) (i : Int), (fm step i).toNat = step.toNat * (powLookup i).toNat / 2 ^ 15 % 2 ^ 32) ∧
  (∀ (step : Word) (m : BitVec 16), (scaleStep step m).toNat =
    ((((step.extractLsb' 16 16).toNat * m.toNat) <<< 1) + (((step.extractLsb' 0 16).toNat * m.toNat) >>> 15)) % 2 ^ 32) ∧
  ∀ step : Word, fm step 0 = step

/-- R161: before any lookup the index is clamped to the table's domain [−8192, 8191]: below and above it, the entry at the
edge is read. -/
def Obligations.PowLookupClampsTheIndex : Prop :=
  ∀ i : Int, (i ≤ -8192 → powLookup i = powRom 0) ∧ (8191 ≤ i → powLookup i = powRom 16383) ∧
    ∀ p : Nat, p < powSize → i = p - 8192 → powLookup i = powRom p

/-- R165, R166: the pitch-envelope index is in [−8192, 8127] and the vibrato index in [−1009, 1008]; with the mod wheel or
the depth at 0 the vibrato index is 0. -/
def Obligations.ModulationIndicesStayInRange : Prop :=
  (∀ (p : Patch) (e : Envelope), e.level.toNat ≤ envMax → -8192 ≤ pitchIndex p e ∧ pitchIndex p e ≤ 8127) ∧
  ∀ (cfg : Config) (p : Patch) (ch : Channel) (ph : Word),
    -1009 ≤ vibratoIndex cfg p ch ph ∧ vibratoIndex cfg p ch ph ≤ 1008 ∧
    (ch.controller 1 = 0 ∨ p.vibDepth = 0 → vibratoIndex cfg p ch ph = 0)

/-- R163, R164, R165, R166: the step of a block.  The base step is multiplied by the channel's bend multiplier, then, on a
voice with a pitch envelope, which advances first, by the multiplier at floor(level × depth / 2^9), then by the one at
floor(sample × mod wheel × depth / 2^19), each product divided by 2^15 and reduced to 32 bits; the LFO is read before its
phase advances by rate × 2^21.  No other field of the voice changes. -/
def Obligations.ModStepComposesBendEnvelopeAndVibrato : Prop :=
  ∀ (cfg : Config) (ch : Channel) (v : Voice),
    let p := patchAt cfg v.patch
    let times := fun (step : Nat) (i : Int) => step * (powLookup i).toNat / 2 ^ 15 % 2 ^ 32
    let bent := v.phaseStepBase.toNat * ch.bendMult.toNat / 2 ^ 15 % 2 ^ 32
    let pitch := envUpdate cfg v.pitch p.penvA p.penvD p.penvS p.penvR
    let enveloped := if v.penvEn then times bent ((pitch.level.toNat : Int) * p.penvDepth.toInt / 512) else bent
    let sample := ((cfg.waveRom[p.vibWave.toFin]).getD (v.vibPhase.toNat / 2 ^ (32 - cfg.tableBits)) 0).toInt
    (modStep cfg ch v).phaseStepCurrent.toNat =
      times enveloped (sample * (ch.controller 1).toNat * p.vibDepth.toNat / 524288) ∧
    (modStep cfg ch v).vibPhase.toNat = (v.vibPhase.toNat + p.vibRate.toNat * 2 ^ 21) % 2 ^ 32 ∧
    (modStep cfg ch v).pitch = (if v.penvEn then pitch else v.pitch) ∧
    { modStep cfg ch v with pitch := v.pitch, vibPhase := v.vibPhase, phaseStepCurrent := v.phaseStepCurrent } = v

/-- R163, R166: with the bend centred, no pitch envelope, and the mod wheel or the vibrato depth at 0, ModStep leaves the
step at its base exactly. -/
def Obligations.ModStepUnmodulatedKeepsTheBase : Prop :=
  ∀ (cfg : Config) (ch : Channel) (v : Voice),
    ch.bendMult = 32768 → v.penvEn = false → ch.controller 1 = 0 ∨ (patchAt cfg v.patch).vibDepth = 0 →
      (modStep cfg ch v).phaseStepCurrent = v.phaseStepBase

/-! ## The render -/

/-- R33, R148: the patch of an index below NUM_PATCHES is the record at that position of PATCH_ROM (elsewhere see
notes/assumptions/12.md).  R182, R146: in the envelope pass a voice that is not in use is unchanged, an in-use voice's
amplitude envelope takes one Update with its patch's AMP rates, and a voice that is then no longer Active is at rest. -/
def Obligations.EnvelopePassAdvancesOrFrees : Prop :=
  (∀ (cfg : Config) (p : BitVec 7) (h : p.toNat < cfg.patchRom.length),
    patchAt cfg p = decodePatch cfg.patchRom[p.toNat]) ∧
  ∀ (cfg : Config) (vs : List Voice) (i : Nat) (v : Voice), vs[i]? = some v →
    let p := patchAt cfg v.patch
    let amp := envUpdate cfg v.amp p.ampA p.ampD p.ampS p.ampR
    (v.inUse = false → (envelopePass cfg vs)[i]? = some v) ∧
    (v.inUse = true → amp.phase ≠ .off → (envelopePass cfg vs)[i]? = some { v with amp := amp }) ∧
    (v.inUse = true → amp.phase = .off → (envelopePass cfg vs)[i]? = some .atRest)

/-- R183, R184, R186: the scale is level × MASTER × velocity × volume with a division by 128 after each factor, and the gains
are it times the pan coefficients divided by 128; for every level up to the ceiling each product fits 22 bits, each
quotient keeps the spec's bound.  A term of the mix is gain × sample shifted right by 8 (R186's asr by MIX_SHIFT, which
rounds toward minus infinity) and at most 4064384 in magnitude. -/
def Obligations.ScaleAndGainsAreBounded : Prop :=
  (∀ (gain : Nat) (smp : Int), mixTerm gain smp = ⌊((gain : ℚ) * smp) / 256⌋) ∧
  ∀ (cfg : Config) (ch : Channel) (v : Voice), v.amp.level.toNat ≤ envMax →
    let master := (patchAt cfg v.patch).master.toNat
    let volume := (ch.controller 7).toNat
    let s1 := v.amp.level.toNat * master / 128
    let s2 := s1 * v.velocity.toNat / 128
    voiceScale cfg ch v = s2 * volume / 128 ∧
    gainLeft cfg ch v = voiceScale cfg ch v * ch.panLeft.toNat / 128 ∧
    gainRight cfg ch v = voiceScale cfg ch v * ch.panRight.toNat / 128 ∧
    (v.amp.level.toNat * master < 2 ^ 22 ∧ s1 * v.velocity.toNat < 2 ^ 22 ∧ s2 * volume < 2 ^ 22) ∧
    (s1 ≤ 32511 ∧ s2 ≤ 32257 ∧ voiceScale cfg ch v ≤ 32004) ∧ gainLeft cfg ch v ≤ 31753 ∧ gainRight cfg ch v ≤ 31753 ∧
    ∀ smp : BitVec 16, (mixTerm (gainLeft cfg ch v) smp.toInt).natAbs ≤ 4064384 ∧
      (mixTerm (gainRight cfg ch v) smp.toInt).natAbs ≤ 4064384

/-- R185, R186, R187, R190: after a block of n frames the left word of frame f < n is its old value plus, modulo 2^32, the
sum over the voices that survive the envelope pass of each voice's term: its left gain times the sample its table holds at
the top TABLE_BITS bits of `phaseAcc + f × phaseStepCurrent`, shifted right by 8.  The right word likewise, with the right
gain. -/
def Obligations.BlockMixesTheSumOfItsVoices : Prop :=
  ∀ (s : State) (n f : Nat), f < n →
    let t := renderBlock n s
    let vs := (envelopePass s.cfg s.voices).filter (fun v => v.inUse)
    let smp := fun v : Voice =>
      let phase := v.phaseAcc + BitVec.ofNat 32 f * (modStep s.cfg (s.channel v.channel) v).phaseStepCurrent
      ((s.cfg.waveRom[(patchAt s.cfg v.patch).wave.toFin]).getD (phase.toNat / 2 ^ (32 - s.cfg.tableBits)) 0).toInt
    t.outWord (2 * f) = s.outWord (2 * f) +
      (vs.map fun v => BitVec.ofInt 32 ((gainLeft s.cfg (s.channel v.channel) v : Int) * smp v / 256)).sum ∧
    t.outWord (2 * f + 1) = s.outWord (2 * f + 1) +
      (vs.map fun v => BitVec.ofInt 32 ((gainRight s.cfg (s.channel v.channel) v : Int) * smp v / 256)).sum

/-- R190, R189: a block of n frames writes only the words 0 .. 2n−1 of OUTBUF, so a block of 0 frames writes none; every
byte of memory outside them reads as before; and a block in which no voice survives the envelope pass writes no byte. -/
def Obligations.BlockWritesOnlyItsFrames : Prop :=
  ∀ (s : State) (n a : Nat),
    (a < outAddr 0 ∨ outAddr (2 * n) ≤ a → (renderBlock n s).memByte a = s.memByte a) ∧
    ((∀ v ∈ envelopePass s.cfg s.voices, v.inUse = false) → (renderBlock n s).memByte a = s.memByte a)

/-- R180, R182, R163, R185, R187: what a block leaves in the voice file, voice by voice: the envelope pass, then for an
in-use voice ModStep, and the accumulator advanced by n times the current step.  A block writes no channel (R180, R182, R187
name none), and it leaves the configuration, the FIFO, EVOVF, RNOVR, CTRL and the model's own fields as they are. -/
def Obligations.BlockAdvancesEveryVoice : Prop :=
  ∀ (s : State) (n : Nat),
    let t := renderBlock n s
    (∀ (i : Nat) (v : Voice), (envelopePass s.cfg s.voices)[i]? = some v →
      (v.inUse = false → t.voice? i = some v) ∧
      (v.inUse = true → t.voice? i = some
        { modStep s.cfg (s.channel v.channel) v with
          phaseAcc := v.phaseAcc + BitVec.ofNat 32 n * (modStep s.cfg (s.channel v.channel) v).phaseStepCurrent })) ∧
    t.voices.length = s.voices.length ∧ SameChannels s t ∧
    SameConfig s t ∧ SameFifo s t ∧ t.evovf = s.evovf ∧ t.rnovr = s.rnovr ∧ SameCtrl s t ∧ SameOwn s t ∧ SameHostData s t

/-- R188: a voice whose scale is 0 changes no byte of OUTBUF; it still runs ModStep, and its accumulator still advances by
n × phaseStepCurrent, modulo 2^32. -/
def Obligations.SilentVoiceAddsNothingAndAdvances : Prop :=
  ∀ (cfg : Config) (ch : Channel) (epoch n : Nat) (v : Voice) (m : List Host.Cell), voiceScale cfg ch v = 0 →
    (∀ a, outByte epoch (voiceRender cfg ch epoch n v m).2 a = outByte epoch m a) ∧
    (voiceRender cfg ch epoch n v m).1 =
      { modStep cfg ch v with phaseAcc := v.phaseAcc + BitVec.ofNat 32 n * (modStep cfg ch v).phaseStepCurrent }

/-- R180, R181, R193: a render completes; it leaves the CORE idle with DONE set, takes exactly the pending entries off the
FIFO (later ones wait for the next render), and leaves the other sticky bits, CTRL, the configuration and the model's own
fields unchanged. -/
def Obligations.RenderCompletesAndSignals : Prop :=
  ∀ s : State, ∃ t, render s = .next t ∧
    t.busy = false ∧ t.pendingK = 0 ∧ t.pendingN = 0 ∧ t.done = true ∧ t.queue = s.queue.drop s.pendingK ∧
    t.evovf = s.evovf ∧ t.rnovr = s.rnovr ∧ t.voices.length = s.voices.length ∧
    SameConfig s t ∧ SameCtrl s t ∧ SameOwn s t ∧ SameHostData s t

/-! ## Reset -/

/-- R240, R241, R242, R26: a reset, also while a render is in progress, gives every state element its reset value: STATUS
reads 0x00000020, CTRL 0, `irq` is low, every voice is at rest, with R26's field values, every channel at its defaults, the
FIFO empty and the sequencer idle, with no DONE for the abandoned render; the ROMs are unchanged.  OUTBUF takes any value
(R240, R46): every byte reads as the model's free value of the new reset count and the address (notes/assumptions/4.md).  That
the turns to come, the draw counter and the host's last read stay is the model's choice (notes/assumptions/16.md). -/
def Obligations.ResetGivesEveryElementItsValue : Prop :=
  ∀ (s : State) (ts : List Turn), s.cfg.legal = true → s.agenda = .reset :: ts → ∃ t, step s = .next t ∧
    t.statusWord = 0x00000020 ∧ t.ctrlWord = 0 ∧ t.irq = false ∧
    t.busy = false ∧ t.pendingK = 0 ∧ t.pendingN = 0 ∧ t.done = false ∧ t.evovf = false ∧ t.rnovr = false ∧ t.ie = false ∧
    t.queue = [] ∧ t.voices.length = s.cfg.numVoices ∧ (∀ v ∈ t.voices, v = .atRest) ∧
    Voice.atRest =
      { inUse := false, releasable := false, note := 0, velocity := 0, channel := 0, patch := 0, penvEn := false,
        amp := ⟨.off, 0⟩, pitch := ⟨.off, 0⟩, phaseAcc := 0, phaseStepBase := 0, phaseStepCurrent := 0, vibPhase := 0 } ∧
    (∀ c, (t.channel c).panLeft = 89 ∧ (t.channel c).panRight = 90 ∧ (t.channel c).bendRaw = 8192 ∧
      (t.channel c).bendIndex = 0 ∧ (t.channel c).bendMult = 32768 ∧ (t.channel c).program = 0 ∧
      (t.channel c).pressure = 0 ∧
      ∀ k, (t.channel c).controller k = if k = 7 then 100 else if k = 10 then 64 else 0) ∧
    t.outbufEpoch = s.outbufEpoch + 1 ∧ (∀ a, t.memByte a = Config.freeOutByte (s.outbufEpoch + 1) a) ∧
    SameConfig s t ∧ t.agenda = ts ∧ t.draws = s.draws ∧ SameHostData s t

/-- R46, R23, R26: the state after reset holds the reset values in this hardware's configuration, and it satisfies the
machine's invariant.  OUTBUF's bytes are the free values of reset number 0 (notes/assumptions/4.md); the values of agenda,
hostData, draws and outbufEpoch are the model's choice (notes/assumptions/3.md). -/
def Obligations.ResetStateMeetsTheInvariant : Prop :=
  let t := State.reset
  StateInv t ∧ t.cfg = .reference ∧ t.statusWord = 0x00000020 ∧ t.ctrlWord = 0 ∧ t.irq = false ∧
  t.busy = false ∧ t.pendingK = 0 ∧ t.pendingN = 0 ∧ t.done = false ∧ t.evovf = false ∧ t.rnovr = false ∧ t.ie = false ∧
  t.queue = [] ∧ t.voices.length = 32 ∧ (∀ v ∈ t.voices, v = .atRest) ∧
  (∀ c, (t.channel c).panLeft = 89 ∧ (t.channel c).panRight = 90 ∧ (t.channel c).bendRaw = 8192 ∧
    (t.channel c).bendIndex = 0 ∧ (t.channel c).bendMult = 32768 ∧ (t.channel c).program = 0 ∧ (t.channel c).pressure = 0 ∧
    ∀ k, (t.channel c).controller k = if k = 7 then 100 else if k = 10 then 64 else 0) ∧
  (∀ a, t.memByte a = Config.freeOutByte 0 a) ∧ t.agenda = [] ∧ t.hostData = 0 ∧ t.draws = 0 ∧ t.outbufEpoch = 0

/-! ## The whole machine -/

/-- R22, R25, R27, R40, R41: every step keeps the invariant, whoever takes it: no derived channel value is ever stale, a
free voice is at rest and a voice in use is sounding, levels stay under the ceiling, the FIFO and the sequencer keep their
bounds, and OUTBUF's memory its canonical form. -/
def Obligations.EveryStepKeepsTheInvariant : Prop :=
  ∀ s t : State, StateInv s → step s = .next t → StateInv t

/-- R107: a voice is freed only by a render, a reset, or being taken over by a new note: if voice i is in use before a step
and not after it, the step was the CORE's while busy, or a reset. -/
def Obligations.OnlyARenderOrAResetFreesAVoice : Prop :=
  ∀ (s t : State) (i : Nat) (v v' : Voice), step s = .next t → s.voice? i = some v → t.voice? i = some v' →
    v.inUse = true → v'.inUse = false →
    (∃ ts, s.agenda = .reset :: ts) ∨ (s.busy = true ∧ (s.agenda = [] ∨ ∃ ts, s.agenda = .core :: ts))

/-- R222, R180: DONE is set by the completion of a render and by nothing else. -/
def Obligations.OnlyARenderSetsDone : Prop :=
  ∀ s t : State, step s = .next t → s.done = false → t.done = true →
    s.busy = true ∧ (s.agenda = [] ∨ ∃ ts, s.agenda = .core :: ts)

/-- R42: "DONE, EVOVF and RNOVR are sticky. Only a host write of 1 to the bit, or a reset, clears them." -/
def Obligations.StickyBitsAreClearedByTheHostOrReset : Prop :=
  ∀ s t : State, step s = .next t →
    (s.done = true ∧ t.done = false) ∨ (s.evovf = true ∧ t.evovf = false) ∨ (s.rnovr = true ∧ t.rnovr = false) →
    (∃ ts, s.agenda = .reset :: ts) ∨
    ∃ a ts, s.agenda = .host a :: ts ∧ a.kind = .write ∧ a.addr = s.cfg.coreBase + offStatus ∧
      ((s.done = true ∧ t.done = false → a.data.getLsbD 1 = true) ∧
       (s.evovf = true ∧ t.evovf = false → a.data.getLsbD 2 = true) ∧
       (s.rnovr = true ∧ t.rnovr = false → a.data.getLsbD 3 = true))

/-- R29, R240: no step changes a ROM or a parameter, and the voice file keeps its size in every state that has
NUM_VOICES voices. -/
def Obligations.NoStepChangesTheRoms : Prop :=
  ∀ s t : State, step s = .next t → t.cfg = s.cfg ∧ (s.voices.length = s.cfg.numVoices → t.voices.length = t.cfg.numVoices)

/-! ## The reference contents -/

/-- R30, R10: the reference WAVE_ROM at TABLE_BITS = 8, entry by entry: the sine `round(32767 × sin(2π k / N))` on the real
numbers, the rising sawtooth, the square, and the triangle that rises to N/2 and then falls, each of N = 256 samples.  The
sine's entries sum to 0 and are antisymmetric about N/2, as the rule says of its table. -/
def Obligations.ReferenceWavesFollowTheFormulas : Prop :=
  let wave := fun w : Fin 4 => Config.reference.waveRom[w]
  let sample := fun (w : Fin 4) (k : Nat) => ((wave w).getD k 0).toInt
  (∀ w, (wave w).length = 256) ∧
  (∀ k : Nat, k < 256 →
    sample 0 k = ⌊(32767 : ℝ) * Real.sin (2 * Real.pi * k / 256) + 1 / 2⌋ ∧
    sample 1 k = (-32768 : Int) + (k * 65536 / 256 : Nat) ∧
    sample 2 k = (if k < 128 then (32767 : Int) else -32768) ∧
    sample 3 k = (if k < 128 then (-32768 : Int) + (k * 131072 / 256 : Nat) else 32767 - ((k - 128) * 131072 / 256 : Nat))) ∧
  ((wave 0).map BitVec.toInt).sum = 0 ∧ ∀ k : Nat, 1 ≤ k → k < 256 → sample 0 k = -sample 0 (256 - k)

/-- R7, R33, R84: the parameters in R7's "this hardware" column, which are legal, and the four records of the reference
PATCH_ROM, field by field.  CORE_BASE is open, and nothing is said of it. -/
def Obligations.ReferenceConfigurationIsThisHardware : Prop :=
  let cfg := Config.reference
  (cfg.numVoices = 32 ∧ cfg.sampleRate = 44100 ∧ cfg.maxFrames = 256 ∧ cfg.evqDepth = 64 ∧ cfg.tableBits = 8 ∧
    cfg.envShift = 4 ∧ cfg.bendRange = 2 ∧ cfg.numPatches = 4 ∧ cfg.legal = true) ∧
  cfg.patchRom.map decodePatch =
    [{ wave := 0, ampA := 32, ampD := 16, ampS := 96, ampR := 8, master := 127, penvEn := false, penvA := 0, penvD := 0
       penvS := 0, penvR := 0, penvDepth := 0, vibWave := 0, vibDepth := 0, vibRate := 0 },
     { wave := 1, ampA := 127, ampD := 64, ampS := 0, ampR := 32, master := 100, penvEn := false, penvA := 0, penvD := 0
       penvS := 0, penvR := 0, penvDepth := 0, vibWave := 0, vibDepth := 64, vibRate := 40 },
     { wave := 2, ampA := 64, ampD := 32, ampS := 64, ampR := 16, master := 90, penvEn := true, penvA := 127, penvD := 8
       penvS := 0, penvR := 8, penvDepth := 64, vibWave := 0, vibDepth := 0, vibRate := 0 },
     { wave := 3, ampA := 16, ampD := 16, ampS := 127, ampR := 4, master := 127, penvEn := false, penvA := 0, penvD := 0
       penvS := 0, penvR := 0, penvDepth := 0, vibWave := 0, vibDepth := 127, vibRate := 64 }]
end

