-- ==== Sys2Proof/Laws/Encoding.lean ====
section
/-! SUPPORT. The bit fields of the encodings as numbers: concatenation and extraction, the fields of an event word, and the
accesses that the encoder writes. -/

namespace Sys2Proof

/-- A concatenation as a number: the left part stands above the right part's bits. -/
theorem toNat_append_add {n m : Nat} (x : BitVec n) (y : BitVec m) : (x ++ y).toNat = x.toNat * 2 ^ m + y.toNat := by
  rw [BitVec.toNat_append, ← Nat.shiftLeft_add_eq_or_of_lt y.isLt, Nat.shiftLeft_eq]

/-- A bit field as a number. -/
theorem toNat_extract {n : Nat} (x : BitVec n) (start len : Nat) :
    (x.extractLsb' start len).toNat = x.toNat / 2 ^ start % 2 ^ len := by
  rw [BitVec.extractLsb'_toNat, Nat.shiftRight_eq_div_pow]

/-- An event word as a number (R80). -/
theorem eventWord_toNat (cmd c : BitVec 4) (d1 d2 : BitVec 7) :
    (eventWord cmd c d1 d2).toNat = cmd.toNat * 2 ^ 20 + c.toNat * 2 ^ 16 + d1.toNat * 2 ^ 8 + d2.toNat := by
  have h0 : (eventWord cmd c d1 d2).toNat = (cmd ++ c ++ (0#1 ++ d1) ++ (0#1 ++ d2)).toNat := rfl
  have h1 := toNat_append_add (cmd ++ c ++ (0#1 ++ d1)) (0#1 ++ d2)
  have h2 := toNat_append_add (cmd ++ c) (0#1 ++ d1)
  have h3 := toNat_append_add cmd c
  have h4 := toNat_append_add 0#1 d1
  have h5 := toNat_append_add 0#1 d2
  simp only [BitVec.toNat_ofNat] at h4 h5
  omega

@[simp] theorem eventCommand_eventWord (cmd c : BitVec 4) (d1 d2 : BitVec 7) :
    eventCommand (eventWord cmd c d1 d2) = cmd := by
  apply BitVec.eq_of_toNat_eq
  rw [eventCommand, toNat_extract, eventWord_toNat]
  have := cmd.isLt; have := c.isLt; have := d1.isLt; have := d2.isLt
  omega

@[simp] theorem eventChannel_eventWord (cmd c : BitVec 4) (d1 d2 : BitVec 7) :
    eventChannel (eventWord cmd c d1 d2) = c := by
  apply BitVec.eq_of_toNat_eq
  rw [eventChannel, toNat_extract, eventWord_toNat]
  have := cmd.isLt; have := c.isLt; have := d1.isLt; have := d2.isLt
  omega

@[simp] theorem eventData1_eventWord (cmd c : BitVec 4) (d1 d2 : BitVec 7) :
    eventData1 (eventWord cmd c d1 d2) = d1 := by
  apply BitVec.eq_of_toNat_eq
  rw [eventData1, toNat_extract, eventWord_toNat]
  have := cmd.isLt; have := c.isLt; have := d1.isLt; have := d2.isLt
  omega

@[simp] theorem eventData2_eventWord (cmd c : BitVec 4) (d1 d2 : BitVec 7) :
    eventData2 (eventWord cmd c d1 d2) = d2 := by
  apply BitVec.eq_of_toNat_eq
  rw [eventData2, toNat_extract, eventWord_toNat]
  have := cmd.isLt; have := c.isLt; have := d1.isLt; have := d2.isLt
  omega

/-- The low part of a concatenation. -/
theorem extract_append_low {n m : Nat} (x : BitVec n) (y : BitVec m) : (x ++ y).extractLsb' 0 m = y := by
  apply BitVec.eq_of_toNat_eq
  rw [toNat_extract, toNat_append_add, pow_zero, Nat.div_one, Nat.mul_add_mod_self_right, Nat.mod_eq_of_lt y.isLt]

/-- A read of an aligned offset of the window decodes by the map (R61). -/
theorem decodeAccess_readAccess (base off : Nat) (h : off < windowBytes) (h4 : off % 4 = 0) :
    decodeAccess base (readAccess base off) = .ok (decodeRead off) := by
  have h1 : ¬ (base + off < base ∨ base + windowBytes ≤ base + off) := by omega
  have h2 : base + off - base = off := by omega
  simp only [decodeAccess, readAccess, ne_eq, not_true_eq_false, if_false, if_neg h1, h2, h4]

/-- A write to an aligned offset of the window decodes by the map (R61). -/
theorem decodeAccess_writeAccess (base off : Nat) (w : Word) (h : off < windowBytes) (h4 : off % 4 = 0) :
    decodeAccess base (writeAccess base off w) = .ok (decodeWrite off w) := by
  have h1 : ¬ (base + off < base ∨ base + windowBytes ≤ base + off) := by omega
  have h2 : base + off - base = off := by omega
  simp only [decodeAccess, writeAccess, ne_eq, not_true_eq_false, if_false, if_neg h1, h2, h4]

end Sys2Proof
end

