-- ==== Sys2Proof/Laws/Rom.lean ====
section
/-! SUPPORT. The ROMs: what the search for a rounded value finds, and the bounds and fixed points of the tables that the
other laws need. -/

namespace Sys2Proof

/-- What `greatest` finds: nothing below `acc`, nothing `p` rejects (but `acc` itself), and the next number either is beyond
the searched bits or is rejected. -/
theorem greatest_spec (p : Nat → Bool) (bits acc : Nat) :
    acc ≤ greatest p bits acc ∧ greatest p bits acc < acc + 2 ^ bits ∧
    (greatest p bits acc = acc ∨ p (greatest p bits acc) = true) ∧
    (greatest p bits acc + 1 = acc + 2 ^ bits ∨ p (greatest p bits acc + 1) = false) := by
  induction bits generalizing acc with
  | zero => simp [greatest]
  | succ b ih =>
    have hpos : 0 < 2 ^ b := Nat.two_pow_pos b
    have hsum : 2 ^ (b + 1) = 2 ^ b + 2 ^ b := by rw [pow_succ]; omega
    simp only [greatest]
    split
    · rename_i hp
      obtain ⟨h1, h2, h3, h4⟩ := ih (acc + 2 ^ b)
      refine ⟨by omega, by omega, .inr ?_, ?_⟩
      · rcases h3 with h3 | h3
        · rw [h3]; exact hp
        · exact h3
      · rcases h4 with h4 | h4
        · exact .inl (by omega)
        · exact .inr h4
    · rename_i hp
      obtain ⟨h1, h2, h3, h4⟩ := ih acc
      refine ⟨h1, by omega, h3, ?_⟩
      rcases h4 with h4 | h4
      · refine .inr ?_
        rw [h4]
        simpa using hp
      · exact .inr h4

theorem powFits_down (p i j : Nat) (h : i ≤ j) (hj : powFits p j = true) : powFits p i = true := by
  simp only [powFits, decide_eq_true_eq] at hj ⊢
  exact le_trans (Nat.pow_le_pow_left (by omega) _) hj

theorem noteFits_down (sr n i j : Nat) (h : i ≤ j) (hj : noteFits sr n j = true) : noteFits sr n i = true := by
  simp only [noteFits, decide_eq_true_eq] at hj ⊢
  refine le_trans (Nat.mul_le_mul_right _ (Nat.pow_le_pow_left (Nat.mul_le_mul_right _ (by omega)) _)) hj

theorem panFits_down (v i j : Nat) (h : i ≤ j) (hj : panFits v j = true) : panFits v i = true := by
  simp only [panFits, decide_eq_true_eq] at hj ⊢
  exact le_trans (Nat.pow_le_pow_left (by omega) _) hj

/-- The found multiplier fits and its successor does not, for every position of the table. -/
theorem powRom_toNat_spec {p : Nat} (hp : p < powSize) :
    (2 * (powRom p).toNat - 1) ^ 8192 ≤ 2 ^ (122880 + p) ∧
    2 ^ (122880 + p) < (2 * (powRom p).toNat + 1) ^ 8192 ∧ (powRom p).toNat < 65536 := by
  obtain ⟨_, h2, h3, h4⟩ := greatest_spec (powFits p) 16 0
  have hn : (powRom p).toNat = greatest (powFits p) 16 0 := by
    rw [powRom, BitVec.toNat_ofNat, Nat.mod_eq_of_lt (by simpa using h2)]
  rw [hn]
  have hp' : p ≤ 16383 := by simp only [powSize] at hp; omega
  refine ⟨?_, ?_, by simpa using h2⟩
  · rcases h3 with h3 | h3
    · rw [h3]
      simp only [Nat.mul_zero, Nat.zero_sub, ne_eq, OfNat.ofNat_ne_zero, not_false_eq_true, zero_pow, zero_le]
    · simpa only [powFits, decide_eq_true_eq] using h3
  · rcases h4 with h4 | h4
    · have h5 : greatest (powFits p) 16 0 = 65535 := by omega
      rw [h5]
      calc 2 ^ (122880 + p) ≤ 2 ^ (122880 + 16383) := Nat.pow_le_pow_right (by omega) (by omega)
        _ < (2 * 65535 + 1) ^ 8192 := by decide +kernel
    · simp only [powFits, decide_eq_false_iff_not, not_le] at h4
      exact h4

/-- The found coefficient fits and its successor does not, for every pan value (R34). -/
theorem panRom_toNat_spec (v : BitVec 7) :
    (2 * (panRom v).toNat - 1) ^ 2 ≤ 508 * v.toNat ∧ 508 * v.toNat < (2 * (panRom v).toNat + 1) ^ 2 := by
  obtain ⟨_, h2, h3, h4⟩ := greatest_spec (panFits v.toNat) 7 0
  have hn : (panRom v).toNat = greatest (panFits v.toNat) 7 0 := by
    rw [panRom, BitVec.toNat_ofNat, Nat.mod_eq_of_lt (by simpa using h2)]
  have hv := v.isLt
  rw [hn]
  refine ⟨?_, ?_⟩
  · rcases h3 with h3 | h3
    · rw [h3]
      simp
    · simpa only [panFits, decide_eq_true_eq] using h3
  · rcases h4 with h4 | h4
    · have h5 : greatest (panFits v.toNat) 7 0 = 127 := by omega
      rw [h5]
      omega
    · simp only [panFits, decide_eq_false_iff_not, not_le] at h4
      exact h4

/-- The highest phase step that `noteStep` searches is above every note's, at every rate (R31). -/
theorem noteStep_top : (880 * 2 ^ 32) ^ 12 * 2 ^ 127 < (2 ^ 47 - 1) ^ 12 * 2 ^ 69 := by norm_num

/-- The found phase step fits and its successor does not, for every note and every rate above 0 (R31). -/
theorem noteStep_spec {sampleRate n : Nat} (hs : 0 < sampleRate) (hn : n < 128) :
    ((2 * noteStep sampleRate n - 1) * sampleRate) ^ 12 * 2 ^ 69 ≤ (880 * 2 ^ 32) ^ 12 * 2 ^ n ∧
    (880 * 2 ^ 32) ^ 12 * 2 ^ n < ((2 * noteStep sampleRate n + 1) * sampleRate) ^ 12 * 2 ^ 69 := by
  obtain ⟨_, _, h3, h4⟩ := greatest_spec (noteFits sampleRate n) 46 0
  have hr : noteStep sampleRate n = greatest (noteFits sampleRate n) 46 0 := rfl
  rw [← hr] at h3 h4
  generalize noteStep sampleRate n = r at h3 h4 ⊢
  constructor
  · rcases h3 with rfl | h3
    · rw [Nat.mul_zero, Nat.zero_sub, Nat.zero_mul, zero_pow (by norm_num), Nat.zero_mul]
      exact Nat.zero_le _
    · rw [noteFits, decide_eq_true_eq] at h3
      exact h3
  · rcases h4 with h4 | h4
    · have h5 : 2 ^ 47 - 1 ≤ (2 * r + 1) * sampleRate :=
        le_trans (by omega) (Nat.le_mul_of_pos_right (2 * r + 1) hs)
      have h6 := Nat.mul_le_mul_right (2 ^ 69) (Nat.pow_le_pow_left h5 12)
      have h7 : 2 ^ n ≤ 2 ^ 127 := Nat.pow_le_pow_right (by norm_num) (by omega)
      exact lt_of_le_of_lt (Nat.mul_le_mul_left _ h7) (lt_of_lt_of_le noteStep_top h6)
    · have h8 : 2 * (r + 1) - 1 = 2 * r + 1 := by omega
      rw [noteFits, decide_eq_false_iff_not, not_le, h8] at h4
      exact h4

/-- A number whose double, less or plus one, brackets y in the k-th power is y/2 rounded half up (R10). -/
theorem rounded_of_powers {r k : Nat} (hk : k ≠ 0) {y : ℝ} (hy : 0 ≤ y) (h1 : ((2 * r - 1 : Nat) : ℝ) ^ k ≤ y ^ k)
    (h2 : y ^ k < ((2 * r + 1 : Nat) : ℝ) ^ k) : r = ⌊y / 2 + 1 / 2⌋₊ := by
  have h1' : ((2 * r - 1 : Nat) : ℝ) ≤ y := (pow_le_pow_iff_left₀ (by positivity) hy hk).1 h1
  have h2' : y < ((2 * r + 1 : Nat) : ℝ) := (pow_lt_pow_iff_left₀ hy (by positivity) hk).1 h2
  symm
  rw [Nat.floor_eq_iff (by positivity)]
  push_cast at h2'
  constructor
  · rcases Nat.eq_zero_or_pos r with rfl | hr
    · simp only [Nat.cast_zero]; positivity
    · have hc : ((2 * r - 1 : Nat) : ℝ) = 2 * r - 1 := by
        rw [Nat.cast_sub (by omega)]; push_cast; ring
      rw [hc] at h1'
      linarith
  · linarith

/-- POW_ROM at index 0 is unity (R32). -/
theorem powRom_unity : powRom 8192 = 32768 := by decide +kernel

/-- A configuration is legal exactly inside every range of R7 and R8, with waveforms of 2^TABLE_BITS samples (R30). -/
theorem legal_iff (cfg : Config) : cfg.legal = true ↔
    1 ≤ cfg.numVoices ∧ cfg.numVoices ≤ 256 ∧ 0 < cfg.sampleRate ∧ 1 ≤ cfg.maxFrames ∧ cfg.maxFrames ≤ 512 ∧
    1 ≤ cfg.evqDepth ∧ cfg.evqDepth ≤ 255 ∧ 1 ≤ cfg.tableBits ∧ cfg.tableBits ≤ 16 ∧ cfg.envShift ≤ 8 ∧
    cfg.bendRange ≤ 24 ∧ 1 ≤ cfg.numPatches ∧ cfg.numPatches ≤ 128 ∧
    ∀ wave ∈ cfg.waveRom.toList, wave.length = 2 ^ cfg.tableBits := by
  simp only [Config.legal, Bool.and_eq_true, decide_eq_true_eq, List.all_eq_true, and_assoc]

/-- The reference configuration is legal. -/
theorem reference_legal : Config.reference.legal = true := by decide +kernel

end Sys2Proof
end

