-- ==== Sys2Proof/Laws/Envelope.lean ====
section
/-! SUPPORT. The envelope's laws: what one Update can answer, phase by phase, with the level as a number. -/

namespace Sys2Proof.Machine

@[simp] theorem envMax_toNat : (BitVec.ofNat 16 envMax).toNat = envMax := by decide

/-- An envelope step is at least 1: a rate never stalls a phase (R144). -/
theorem envInc_pos (cfg : Config) (r : BitVec 7) : 0 < envInc cfg r := by
  simp only [envInc, Nat.shiftLeft_eq]
  exact Nat.mul_pos (by omega) (Nat.two_pow_pos _)

/-- The sustain target is at most 32512 (R145). -/
theorem envTarget_le (s : BitVec 7) : envTarget s ≤ 32512 := by
  have := s.isLt
  simp only [envTarget, Nat.shiftLeft_eq]
  omega

/-- `Target(s) = 0` exactly when s = 0 (R145). -/
theorem envTarget_eq_zero (s : BitVec 7) : envTarget s = 0 ↔ s = 0 := by
  simp only [envTarget, Nat.shiftLeft_eq]
  constructor
  · intro h
    apply BitVec.eq_of_toNat_eq
    simpa using h
  · rintro rfl
    rfl

@[simp] theorem envTarget_toNat (s : BitVec 7) : (BitVec.ofNat 16 (envTarget s)).toNat = envTarget s := by
  have := envTarget_le s
  rw [BitVec.toNat_ofNat, Nat.mod_eq_of_lt (by omega)]

/-- A record whose phase holds its level is unchanged. -/
theorem envUpdate_hold (cfg : Config) (e : Envelope) (a d s r : BitVec 7) (h : e.phase = .off ∨ e.phase = .sustain) :
    envUpdate cfg e a d s r = e := by
  rcases h with h | h <;> simp [envUpdate, h]

theorem envUpdate_attack_top (cfg : Config) (l : BitVec 16) (a d s r : BitVec 7)
    (h : envMax ≤ l.toNat + envInc cfg a) : envUpdate cfg ⟨.attack, l⟩ a d s r = ⟨.decay, BitVec.ofNat 16 envMax⟩ := by
  simp only [envUpdate, if_pos h]

theorem envUpdate_attack_ramp (cfg : Config) (l : BitVec 16) (a d s r : BitVec 7)
    (h : l.toNat + envInc cfg a < envMax) :
    envUpdate cfg ⟨.attack, l⟩ a d s r = ⟨.attack, BitVec.ofNat 16 (l.toNat + envInc cfg a)⟩ := by
  simp only [envUpdate, if_neg (not_le.2 h)]

theorem envUpdate_decay_target (cfg : Config) (l : BitVec 16) (a d s r : BitVec 7)
    (h : l.toNat ≤ envTarget s + envInc cfg d) :
    envUpdate cfg ⟨.decay, l⟩ a d s r = ⟨if s = 0 then .off else .sustain, BitVec.ofNat 16 (envTarget s)⟩ := by
  have h' : (l.toNat : Int) - envInc cfg d ≤ envTarget s := by omega
  simp only [envUpdate, if_pos h', envTarget_eq_zero]

theorem envUpdate_decay_ramp (cfg : Config) (l : BitVec 16) (a d s r : BitVec 7)
    (h : envTarget s + envInc cfg d < l.toNat) :
    envUpdate cfg ⟨.decay, l⟩ a d s r = ⟨.decay, BitVec.ofNat 16 (l.toNat - envInc cfg d)⟩ := by
  have h' : ¬ (l.toNat : Int) - envInc cfg d ≤ envTarget s := by omega
  have hi : (l.toNat : Int) - envInc cfg d = ((l.toNat - envInc cfg d : Nat) : Int) := by omega
  simp only [envUpdate]
  rw [if_neg h', hi, BitVec.ofInt_natCast]

theorem envUpdate_release_end (cfg : Config) (l : BitVec 16) (a d s r : BitVec 7)
    (h : l.toNat ≤ envInc cfg r) : envUpdate cfg ⟨.release, l⟩ a d s r = ⟨.off, 0⟩ := by
  have h' : (l.toNat : Int) - envInc cfg r ≤ 0 := by omega
  simp only [envUpdate, if_pos h']

theorem envUpdate_release_ramp (cfg : Config) (l : BitVec 16) (a d s r : BitVec 7)
    (h : envInc cfg r < l.toNat) :
    envUpdate cfg ⟨.release, l⟩ a d s r = ⟨.release, BitVec.ofNat 16 (l.toNat - envInc cfg r)⟩ := by
  have h' : ¬ (l.toNat : Int) - envInc cfg r ≤ 0 := by omega
  have hi : (l.toNat : Int) - envInc cfg r = ((l.toNat - envInc cfg r : Nat) : Int) := by omega
  simp only [envUpdate]
  rw [if_neg h', hi, BitVec.ofInt_natCast]

/-- The level stays at or below the ceiling (R27, R142). -/
theorem envUpdate_level_le (cfg : Config) (e : Envelope) (a d s r : BitVec 7) (h : e.level.toNat ≤ envMax) :
    (envUpdate cfg e a d s r).level.toNat ≤ envMax := by
  obtain ⟨ph, l⟩ := e
  have hl := l.isLt
  have hm : envMax = 32767 := rfl
  simp only at h
  cases ph with
  | off => exact h
  | sustain => exact h
  | attack =>
    by_cases ht : envMax ≤ l.toNat + envInc cfg a
    · rw [envUpdate_attack_top _ _ _ _ _ _ ht, envMax_toNat]
    · rw [envUpdate_attack_ramp _ _ _ _ _ _ (by omega), BitVec.toNat_ofNat, Nat.mod_eq_of_lt (by omega)]
      omega
  | decay =>
    by_cases ht : l.toNat ≤ envTarget s + envInc cfg d
    · rw [envUpdate_decay_target _ _ _ _ _ _ ht]
      have := envTarget_le s
      simp only [envTarget_toNat]
      omega
    · rw [envUpdate_decay_ramp _ _ _ _ _ _ (by omega), BitVec.toNat_ofNat, Nat.mod_eq_of_lt (by omega)]
      omega
  | release =>
    by_cases ht : l.toNat ≤ envInc cfg r
    · rw [envUpdate_release_end _ _ _ _ _ _ ht]; simp
    · rw [envUpdate_release_ramp _ _ _ _ _ _ (by omega), BitVec.toNat_ofNat, Nat.mod_eq_of_lt (by omega)]
      omega

/-- An Update leaves the release phase only for off, and enters it never (R142: only GateOff does). -/
theorem envUpdate_release_iff (cfg : Config) (e : Envelope) (a d s r : BitVec 7)
    (h : (envUpdate cfg e a d s r).phase ≠ .off) :
    (envUpdate cfg e a d s r).phase = .release ↔ e.phase = .release := by
  obtain ⟨ph, l⟩ := e
  cases ph with
  | off => simp [envUpdate]
  | sustain => simp [envUpdate]
  | attack =>
    by_cases ht : envMax ≤ l.toNat + envInc cfg a
    · rw [envUpdate_attack_top _ _ _ _ _ _ ht]; simp
    · rw [envUpdate_attack_ramp _ _ _ _ _ _ (by omega)]
  | decay =>
    by_cases ht : l.toNat ≤ envTarget s + envInc cfg d
    · rw [envUpdate_decay_target _ _ _ _ _ _ ht]
      by_cases hs : s = 0
      · rw [if_pos hs]; simp
      · rw [if_neg hs]; simp
    · rw [envUpdate_decay_ramp _ _ _ _ _ _ (by omega)]
  | release =>
    by_cases ht : l.toNat ≤ envInc cfg r
    · rw [envUpdate_release_end _ _ _ _ _ _ ht] at h; simp at h
    · rw [envUpdate_release_ramp _ _ _ _ _ _ (by omega)]

end Sys2Proof.Machine
end

