-- ==== Sys2Proof/Laws/State.lean ====
section
/-! SUPPORT. What each named update of the state leaves in each field: one lemma per update and field, so that no later proof
unfolds an update. -/

namespace Sys2Proof.Machine

@[simp] theorem State.setChannel_cfg (s : State) (c : BitVec 4) (ch : Channel) : (s.setChannel c ch).cfg = s.cfg := rfl
@[simp] theorem State.setChannel_channels (s : State) (c : BitVec 4) (ch : Channel) : (s.setChannel c ch).channels = s.channels.set c.toFin ch := rfl
@[simp] theorem State.setChannel_voices (s : State) (c : BitVec 4) (ch : Channel) : (s.setChannel c ch).voices = s.voices := rfl
@[simp] theorem State.setChannel_queue (s : State) (c : BitVec 4) (ch : Channel) : (s.setChannel c ch).queue = s.queue := rfl
@[simp] theorem State.setChannel_busy (s : State) (c : BitVec 4) (ch : Channel) : (s.setChannel c ch).busy = s.busy := rfl
@[simp] theorem State.setChannel_pendingK (s : State) (c : BitVec 4) (ch : Channel) : (s.setChannel c ch).pendingK = s.pendingK := rfl
@[simp] theorem State.setChannel_pendingN (s : State) (c : BitVec 4) (ch : Channel) : (s.setChannel c ch).pendingN = s.pendingN := rfl
@[simp] theorem State.setChannel_done (s : State) (c : BitVec 4) (ch : Channel) : (s.setChannel c ch).done = s.done := rfl
@[simp] theorem State.setChannel_evovf (s : State) (c : BitVec 4) (ch : Channel) : (s.setChannel c ch).evovf = s.evovf := rfl
@[simp] theorem State.setChannel_rnovr (s : State) (c : BitVec 4) (ch : Channel) : (s.setChannel c ch).rnovr = s.rnovr := rfl
@[simp] theorem State.setChannel_ie (s : State) (c : BitVec 4) (ch : Channel) : (s.setChannel c ch).ie = s.ie := rfl
@[simp] theorem State.setChannel_outbuf (s : State) (c : BitVec 4) (ch : Channel) : (s.setChannel c ch).outbuf = s.outbuf := rfl
@[simp] theorem State.setChannel_outbufEpoch (s : State) (c : BitVec 4) (ch : Channel) : (s.setChannel c ch).outbufEpoch = s.outbufEpoch := rfl
@[simp] theorem State.setChannel_draws (s : State) (c : BitVec 4) (ch : Channel) : (s.setChannel c ch).draws = s.draws := rfl
@[simp] theorem State.setChannel_hostData (s : State) (c : BitVec 4) (ch : Channel) : (s.setChannel c ch).hostData = s.hostData := rfl
@[simp] theorem State.setChannel_agenda (s : State) (c : BitVec 4) (ch : Channel) : (s.setChannel c ch).agenda = s.agenda := rfl

@[simp] theorem State.setVoices_cfg (s : State) (vs : List Voice) : (s.setVoices vs).cfg = s.cfg := rfl
@[simp] theorem State.setVoices_channels (s : State) (vs : List Voice) : (s.setVoices vs).channels = s.channels := rfl
@[simp] theorem State.setVoices_voices (s : State) (vs : List Voice) : (s.setVoices vs).voices = vs := rfl
@[simp] theorem State.setVoices_queue (s : State) (vs : List Voice) : (s.setVoices vs).queue = s.queue := rfl
@[simp] theorem State.setVoices_busy (s : State) (vs : List Voice) : (s.setVoices vs).busy = s.busy := rfl
@[simp] theorem State.setVoices_pendingK (s : State) (vs : List Voice) : (s.setVoices vs).pendingK = s.pendingK := rfl
@[simp] theorem State.setVoices_pendingN (s : State) (vs : List Voice) : (s.setVoices vs).pendingN = s.pendingN := rfl
@[simp] theorem State.setVoices_done (s : State) (vs : List Voice) : (s.setVoices vs).done = s.done := rfl
@[simp] theorem State.setVoices_evovf (s : State) (vs : List Voice) : (s.setVoices vs).evovf = s.evovf := rfl
@[simp] theorem State.setVoices_rnovr (s : State) (vs : List Voice) : (s.setVoices vs).rnovr = s.rnovr := rfl
@[simp] theorem State.setVoices_ie (s : State) (vs : List Voice) : (s.setVoices vs).ie = s.ie := rfl
@[simp] theorem State.setVoices_outbuf (s : State) (vs : List Voice) : (s.setVoices vs).outbuf = s.outbuf := rfl
@[simp] theorem State.setVoices_outbufEpoch (s : State) (vs : List Voice) : (s.setVoices vs).outbufEpoch = s.outbufEpoch := rfl
@[simp] theorem State.setVoices_draws (s : State) (vs : List Voice) : (s.setVoices vs).draws = s.draws := rfl
@[simp] theorem State.setVoices_hostData (s : State) (vs : List Voice) : (s.setVoices vs).hostData = s.hostData := rfl
@[simp] theorem State.setVoices_agenda (s : State) (vs : List Voice) : (s.setVoices vs).agenda = s.agenda := rfl

@[simp] theorem State.setQueue_cfg (s : State) (q : List EventWord) : (s.setQueue q).cfg = s.cfg := rfl
@[simp] theorem State.setQueue_channels (s : State) (q : List EventWord) : (s.setQueue q).channels = s.channels := rfl
@[simp] theorem State.setQueue_voices (s : State) (q : List EventWord) : (s.setQueue q).voices = s.voices := rfl
@[simp] theorem State.setQueue_queue (s : State) (q : List EventWord) : (s.setQueue q).queue = q := rfl
@[simp] theorem State.setQueue_busy (s : State) (q : List EventWord) : (s.setQueue q).busy = s.busy := rfl
@[simp] theorem State.setQueue_pendingK (s : State) (q : List EventWord) : (s.setQueue q).pendingK = s.pendingK := rfl
@[simp] theorem State.setQueue_pendingN (s : State) (q : List EventWord) : (s.setQueue q).pendingN = s.pendingN := rfl
@[simp] theorem State.setQueue_done (s : State) (q : List EventWord) : (s.setQueue q).done = s.done := rfl
@[simp] theorem State.setQueue_evovf (s : State) (q : List EventWord) : (s.setQueue q).evovf = s.evovf := rfl
@[simp] theorem State.setQueue_rnovr (s : State) (q : List EventWord) : (s.setQueue q).rnovr = s.rnovr := rfl
@[simp] theorem State.setQueue_ie (s : State) (q : List EventWord) : (s.setQueue q).ie = s.ie := rfl
@[simp] theorem State.setQueue_outbuf (s : State) (q : List EventWord) : (s.setQueue q).outbuf = s.outbuf := rfl
@[simp] theorem State.setQueue_outbufEpoch (s : State) (q : List EventWord) : (s.setQueue q).outbufEpoch = s.outbufEpoch := rfl
@[simp] theorem State.setQueue_draws (s : State) (q : List EventWord) : (s.setQueue q).draws = s.draws := rfl
@[simp] theorem State.setQueue_hostData (s : State) (q : List EventWord) : (s.setQueue q).hostData = s.hostData := rfl
@[simp] theorem State.setQueue_agenda (s : State) (q : List EventWord) : (s.setQueue q).agenda = s.agenda := rfl

@[simp] theorem State.setSequencer_cfg (s : State) (b : Bool) (k n : Nat) : (s.setSequencer b k n).cfg = s.cfg := rfl
@[simp] theorem State.setSequencer_channels (s : State) (b : Bool) (k n : Nat) : (s.setSequencer b k n).channels = s.channels := rfl
@[simp] theorem State.setSequencer_voices (s : State) (b : Bool) (k n : Nat) : (s.setSequencer b k n).voices = s.voices := rfl
@[simp] theorem State.setSequencer_queue (s : State) (b : Bool) (k n : Nat) : (s.setSequencer b k n).queue = s.queue := rfl
@[simp] theorem State.setSequencer_busy (s : State) (b : Bool) (k n : Nat) : (s.setSequencer b k n).busy = b := rfl
@[simp] theorem State.setSequencer_pendingK (s : State) (b : Bool) (k n : Nat) : (s.setSequencer b k n).pendingK = k := rfl
@[simp] theorem State.setSequencer_pendingN (s : State) (b : Bool) (k n : Nat) : (s.setSequencer b k n).pendingN = n := rfl
@[simp] theorem State.setSequencer_done (s : State) (b : Bool) (k n : Nat) : (s.setSequencer b k n).done = s.done := rfl
@[simp] theorem State.setSequencer_evovf (s : State) (b : Bool) (k n : Nat) : (s.setSequencer b k n).evovf = s.evovf := rfl
@[simp] theorem State.setSequencer_rnovr (s : State) (b : Bool) (k n : Nat) : (s.setSequencer b k n).rnovr = s.rnovr := rfl
@[simp] theorem State.setSequencer_ie (s : State) (b : Bool) (k n : Nat) : (s.setSequencer b k n).ie = s.ie := rfl
@[simp] theorem State.setSequencer_outbuf (s : State) (b : Bool) (k n : Nat) : (s.setSequencer b k n).outbuf = s.outbuf := rfl
@[simp] theorem State.setSequencer_outbufEpoch (s : State) (b : Bool) (k n : Nat) : (s.setSequencer b k n).outbufEpoch = s.outbufEpoch := rfl
@[simp] theorem State.setSequencer_draws (s : State) (b : Bool) (k n : Nat) : (s.setSequencer b k n).draws = s.draws := rfl
@[simp] theorem State.setSequencer_hostData (s : State) (b : Bool) (k n : Nat) : (s.setSequencer b k n).hostData = s.hostData := rfl
@[simp] theorem State.setSequencer_agenda (s : State) (b : Bool) (k n : Nat) : (s.setSequencer b k n).agenda = s.agenda := rfl

@[simp] theorem State.setSticky_cfg (s : State) (d e r : Bool) : (s.setSticky d e r).cfg = s.cfg := rfl
@[simp] theorem State.setSticky_channels (s : State) (d e r : Bool) : (s.setSticky d e r).channels = s.channels := rfl
@[simp] theorem State.setSticky_voices (s : State) (d e r : Bool) : (s.setSticky d e r).voices = s.voices := rfl
@[simp] theorem State.setSticky_queue (s : State) (d e r : Bool) : (s.setSticky d e r).queue = s.queue := rfl
@[simp] theorem State.setSticky_busy (s : State) (d e r : Bool) : (s.setSticky d e r).busy = s.busy := rfl
@[simp] theorem State.setSticky_pendingK (s : State) (d e r : Bool) : (s.setSticky d e r).pendingK = s.pendingK := rfl
@[simp] theorem State.setSticky_pendingN (s : State) (d e r : Bool) : (s.setSticky d e r).pendingN = s.pendingN := rfl
@[simp] theorem State.setSticky_done (s : State) (d e r : Bool) : (s.setSticky d e r).done = d := rfl
@[simp] theorem State.setSticky_evovf (s : State) (d e r : Bool) : (s.setSticky d e r).evovf = e := rfl
@[simp] theorem State.setSticky_rnovr (s : State) (d e r : Bool) : (s.setSticky d e r).rnovr = r := rfl
@[simp] theorem State.setSticky_ie (s : State) (d e r : Bool) : (s.setSticky d e r).ie = s.ie := rfl
@[simp] theorem State.setSticky_outbuf (s : State) (d e r : Bool) : (s.setSticky d e r).outbuf = s.outbuf := rfl
@[simp] theorem State.setSticky_outbufEpoch (s : State) (d e r : Bool) : (s.setSticky d e r).outbufEpoch = s.outbufEpoch := rfl
@[simp] theorem State.setSticky_draws (s : State) (d e r : Bool) : (s.setSticky d e r).draws = s.draws := rfl
@[simp] theorem State.setSticky_hostData (s : State) (d e r : Bool) : (s.setSticky d e r).hostData = s.hostData := rfl
@[simp] theorem State.setSticky_agenda (s : State) (d e r : Bool) : (s.setSticky d e r).agenda = s.agenda := rfl

@[simp] theorem State.setIe_cfg (s : State) (i : Bool) : (s.setIe i).cfg = s.cfg := rfl
@[simp] theorem State.setIe_channels (s : State) (i : Bool) : (s.setIe i).channels = s.channels := rfl
@[simp] theorem State.setIe_voices (s : State) (i : Bool) : (s.setIe i).voices = s.voices := rfl
@[simp] theorem State.setIe_queue (s : State) (i : Bool) : (s.setIe i).queue = s.queue := rfl
@[simp] theorem State.setIe_busy (s : State) (i : Bool) : (s.setIe i).busy = s.busy := rfl
@[simp] theorem State.setIe_pendingK (s : State) (i : Bool) : (s.setIe i).pendingK = s.pendingK := rfl
@[simp] theorem State.setIe_pendingN (s : State) (i : Bool) : (s.setIe i).pendingN = s.pendingN := rfl
@[simp] theorem State.setIe_done (s : State) (i : Bool) : (s.setIe i).done = s.done := rfl
@[simp] theorem State.setIe_evovf (s : State) (i : Bool) : (s.setIe i).evovf = s.evovf := rfl
@[simp] theorem State.setIe_rnovr (s : State) (i : Bool) : (s.setIe i).rnovr = s.rnovr := rfl
@[simp] theorem State.setIe_ie (s : State) (i : Bool) : (s.setIe i).ie = i := rfl
@[simp] theorem State.setIe_outbuf (s : State) (i : Bool) : (s.setIe i).outbuf = s.outbuf := rfl
@[simp] theorem State.setIe_outbufEpoch (s : State) (i : Bool) : (s.setIe i).outbufEpoch = s.outbufEpoch := rfl
@[simp] theorem State.setIe_draws (s : State) (i : Bool) : (s.setIe i).draws = s.draws := rfl
@[simp] theorem State.setIe_hostData (s : State) (i : Bool) : (s.setIe i).hostData = s.hostData := rfl
@[simp] theorem State.setIe_agenda (s : State) (i : Bool) : (s.setIe i).agenda = s.agenda := rfl

@[simp] theorem State.setOutbuf_cfg (s : State) (m : List Host.Cell) : (s.setOutbuf m).cfg = s.cfg := rfl
@[simp] theorem State.setOutbuf_channels (s : State) (m : List Host.Cell) : (s.setOutbuf m).channels = s.channels := rfl
@[simp] theorem State.setOutbuf_voices (s : State) (m : List Host.Cell) : (s.setOutbuf m).voices = s.voices := rfl
@[simp] theorem State.setOutbuf_queue (s : State) (m : List Host.Cell) : (s.setOutbuf m).queue = s.queue := rfl
@[simp] theorem State.setOutbuf_busy (s : State) (m : List Host.Cell) : (s.setOutbuf m).busy = s.busy := rfl
@[simp] theorem State.setOutbuf_pendingK (s : State) (m : List Host.Cell) : (s.setOutbuf m).pendingK = s.pendingK := rfl
@[simp] theorem State.setOutbuf_pendingN (s : State) (m : List Host.Cell) : (s.setOutbuf m).pendingN = s.pendingN := rfl
@[simp] theorem State.setOutbuf_done (s : State) (m : List Host.Cell) : (s.setOutbuf m).done = s.done := rfl
@[simp] theorem State.setOutbuf_evovf (s : State) (m : List Host.Cell) : (s.setOutbuf m).evovf = s.evovf := rfl
@[simp] theorem State.setOutbuf_rnovr (s : State) (m : List Host.Cell) : (s.setOutbuf m).rnovr = s.rnovr := rfl
@[simp] theorem State.setOutbuf_ie (s : State) (m : List Host.Cell) : (s.setOutbuf m).ie = s.ie := rfl
@[simp] theorem State.setOutbuf_outbuf (s : State) (m : List Host.Cell) : (s.setOutbuf m).outbuf = m := rfl
@[simp] theorem State.setOutbuf_outbufEpoch (s : State) (m : List Host.Cell) : (s.setOutbuf m).outbufEpoch = s.outbufEpoch := rfl
@[simp] theorem State.setOutbuf_draws (s : State) (m : List Host.Cell) : (s.setOutbuf m).draws = s.draws := rfl
@[simp] theorem State.setOutbuf_hostData (s : State) (m : List Host.Cell) : (s.setOutbuf m).hostData = s.hostData := rfl
@[simp] theorem State.setOutbuf_agenda (s : State) (m : List Host.Cell) : (s.setOutbuf m).agenda = s.agenda := rfl

@[simp] theorem State.setHostData_cfg (s : State) (w : Word) : (s.setHostData w).cfg = s.cfg := rfl
@[simp] theorem State.setHostData_channels (s : State) (w : Word) : (s.setHostData w).channels = s.channels := rfl
@[simp] theorem State.setHostData_voices (s : State) (w : Word) : (s.setHostData w).voices = s.voices := rfl
@[simp] theorem State.setHostData_queue (s : State) (w : Word) : (s.setHostData w).queue = s.queue := rfl
@[simp] theorem State.setHostData_busy (s : State) (w : Word) : (s.setHostData w).busy = s.busy := rfl
@[simp] theorem State.setHostData_pendingK (s : State) (w : Word) : (s.setHostData w).pendingK = s.pendingK := rfl
@[simp] theorem State.setHostData_pendingN (s : State) (w : Word) : (s.setHostData w).pendingN = s.pendingN := rfl
@[simp] theorem State.setHostData_done (s : State) (w : Word) : (s.setHostData w).done = s.done := rfl
@[simp] theorem State.setHostData_evovf (s : State) (w : Word) : (s.setHostData w).evovf = s.evovf := rfl
@[simp] theorem State.setHostData_rnovr (s : State) (w : Word) : (s.setHostData w).rnovr = s.rnovr := rfl
@[simp] theorem State.setHostData_ie (s : State) (w : Word) : (s.setHostData w).ie = s.ie := rfl
@[simp] theorem State.setHostData_outbuf (s : State) (w : Word) : (s.setHostData w).outbuf = s.outbuf := rfl
@[simp] theorem State.setHostData_outbufEpoch (s : State) (w : Word) : (s.setHostData w).outbufEpoch = s.outbufEpoch := rfl
@[simp] theorem State.setHostData_draws (s : State) (w : Word) : (s.setHostData w).draws = s.draws := rfl
@[simp] theorem State.setHostData_hostData (s : State) (w : Word) : (s.setHostData w).hostData = w := rfl
@[simp] theorem State.setHostData_agenda (s : State) (w : Word) : (s.setHostData w).agenda = s.agenda := rfl

@[simp] theorem State.setDraws_cfg (s : State) (n : Nat) : (s.setDraws n).cfg = s.cfg := rfl
@[simp] theorem State.setDraws_channels (s : State) (n : Nat) : (s.setDraws n).channels = s.channels := rfl
@[simp] theorem State.setDraws_voices (s : State) (n : Nat) : (s.setDraws n).voices = s.voices := rfl
@[simp] theorem State.setDraws_queue (s : State) (n : Nat) : (s.setDraws n).queue = s.queue := rfl
@[simp] theorem State.setDraws_busy (s : State) (n : Nat) : (s.setDraws n).busy = s.busy := rfl
@[simp] theorem State.setDraws_pendingK (s : State) (n : Nat) : (s.setDraws n).pendingK = s.pendingK := rfl
@[simp] theorem State.setDraws_pendingN (s : State) (n : Nat) : (s.setDraws n).pendingN = s.pendingN := rfl
@[simp] theorem State.setDraws_done (s : State) (n : Nat) : (s.setDraws n).done = s.done := rfl
@[simp] theorem State.setDraws_evovf (s : State) (n : Nat) : (s.setDraws n).evovf = s.evovf := rfl
@[simp] theorem State.setDraws_rnovr (s : State) (n : Nat) : (s.setDraws n).rnovr = s.rnovr := rfl
@[simp] theorem State.setDraws_ie (s : State) (n : Nat) : (s.setDraws n).ie = s.ie := rfl
@[simp] theorem State.setDraws_outbuf (s : State) (n : Nat) : (s.setDraws n).outbuf = s.outbuf := rfl
@[simp] theorem State.setDraws_outbufEpoch (s : State) (n : Nat) : (s.setDraws n).outbufEpoch = s.outbufEpoch := rfl
@[simp] theorem State.setDraws_draws (s : State) (n : Nat) : (s.setDraws n).draws = n := rfl
@[simp] theorem State.setDraws_hostData (s : State) (n : Nat) : (s.setDraws n).hostData = s.hostData := rfl
@[simp] theorem State.setDraws_agenda (s : State) (n : Nat) : (s.setDraws n).agenda = s.agenda := rfl

@[simp] theorem State.setAgenda_cfg (s : State) (ts : List Turn) : (s.setAgenda ts).cfg = s.cfg := rfl
@[simp] theorem State.setAgenda_channels (s : State) (ts : List Turn) : (s.setAgenda ts).channels = s.channels := rfl
@[simp] theorem State.setAgenda_voices (s : State) (ts : List Turn) : (s.setAgenda ts).voices = s.voices := rfl
@[simp] theorem State.setAgenda_queue (s : State) (ts : List Turn) : (s.setAgenda ts).queue = s.queue := rfl
@[simp] theorem State.setAgenda_busy (s : State) (ts : List Turn) : (s.setAgenda ts).busy = s.busy := rfl
@[simp] theorem State.setAgenda_pendingK (s : State) (ts : List Turn) : (s.setAgenda ts).pendingK = s.pendingK := rfl
@[simp] theorem State.setAgenda_pendingN (s : State) (ts : List Turn) : (s.setAgenda ts).pendingN = s.pendingN := rfl
@[simp] theorem State.setAgenda_done (s : State) (ts : List Turn) : (s.setAgenda ts).done = s.done := rfl
@[simp] theorem State.setAgenda_evovf (s : State) (ts : List Turn) : (s.setAgenda ts).evovf = s.evovf := rfl
@[simp] theorem State.setAgenda_rnovr (s : State) (ts : List Turn) : (s.setAgenda ts).rnovr = s.rnovr := rfl
@[simp] theorem State.setAgenda_ie (s : State) (ts : List Turn) : (s.setAgenda ts).ie = s.ie := rfl
@[simp] theorem State.setAgenda_outbuf (s : State) (ts : List Turn) : (s.setAgenda ts).outbuf = s.outbuf := rfl
@[simp] theorem State.setAgenda_outbufEpoch (s : State) (ts : List Turn) : (s.setAgenda ts).outbufEpoch = s.outbufEpoch := rfl
@[simp] theorem State.setAgenda_draws (s : State) (ts : List Turn) : (s.setAgenda ts).draws = s.draws := rfl
@[simp] theorem State.setAgenda_hostData (s : State) (ts : List Turn) : (s.setAgenda ts).hostData = s.hostData := rfl
@[simp] theorem State.setAgenda_agenda (s : State) (ts : List Turn) : (s.setAgenda ts).agenda = ts := rfl

/-- Reading the channel just written. -/
@[simp] theorem State.channel_setChannel_same (s : State) (c : BitVec 4) (ch : Channel) :
    (s.setChannel c ch).channel c = ch := by
  simp [State.channel, State.setChannel]

/-- Writing one channel leaves the others. -/
theorem State.channel_setChannel_other (s : State) {c c' : BitVec 4} (ch : Channel) (h : c' ≠ c) :
    (s.setChannel c ch).channel c' = s.channel c' := by
  have : (c.toNat : Nat) ≠ c'.toNat := fun e => h (BitVec.eq_of_toNat_eq e.symm)
  simp [State.channel, State.setChannel, this]

/-- Reading the controller just written. -/
@[simp] theorem Channel.controller_setController_same (ch : Channel) (k v : BitVec 7) :
    (ch.setController k v).controller k = v := by
  simp [Channel.controller, Channel.setController]

/-- Writing one controller leaves the others. -/
theorem Channel.controller_setController_other (ch : Channel) {k k' : BitVec 7} (v : BitVec 7) (h : k' ≠ k) :
    (ch.setController k v).controller k' = ch.controller k' := by
  have : (k.toNat : Nat) ≠ k'.toNat := fun e => h (BitVec.eq_of_toNat_eq e.symm)
  simp [Channel.controller, Channel.setController, this]

/-- A read of one byte looks at OUTBUF and its epoch only. -/
theorem State.memByte_congr {s t : State} (he : t.outbufEpoch = s.outbufEpoch) (hm : t.outbuf = s.outbuf) (a : Nat) :
    t.memByte a = s.memByte a := by
  simp [State.memByte, he, hm]

/-! The flag rules, field by field: they touch the sticky bits alone. -/

@[simp] theorem State.raiseDone_cfg (s : State) : s.raiseDone.cfg = s.cfg := rfl
@[simp] theorem State.raiseDone_channels (s : State) : s.raiseDone.channels = s.channels := rfl
@[simp] theorem State.raiseDone_voices (s : State) : s.raiseDone.voices = s.voices := rfl
@[simp] theorem State.raiseDone_queue (s : State) : s.raiseDone.queue = s.queue := rfl
@[simp] theorem State.raiseDone_busy (s : State) : s.raiseDone.busy = s.busy := rfl
@[simp] theorem State.raiseDone_pendingK (s : State) : s.raiseDone.pendingK = s.pendingK := rfl
@[simp] theorem State.raiseDone_pendingN (s : State) : s.raiseDone.pendingN = s.pendingN := rfl
@[simp] theorem State.raiseDone_done (s : State) : s.raiseDone.done = true := rfl
@[simp] theorem State.raiseDone_evovf (s : State) : s.raiseDone.evovf = s.evovf := rfl
@[simp] theorem State.raiseDone_rnovr (s : State) : s.raiseDone.rnovr = s.rnovr := rfl
@[simp] theorem State.raiseDone_ie (s : State) : s.raiseDone.ie = s.ie := rfl
@[simp] theorem State.raiseDone_outbuf (s : State) : s.raiseDone.outbuf = s.outbuf := rfl
@[simp] theorem State.raiseDone_outbufEpoch (s : State) : s.raiseDone.outbufEpoch = s.outbufEpoch := rfl
@[simp] theorem State.raiseDone_draws (s : State) : s.raiseDone.draws = s.draws := rfl
@[simp] theorem State.raiseDone_hostData (s : State) : s.raiseDone.hostData = s.hostData := rfl
@[simp] theorem State.raiseDone_agenda (s : State) : s.raiseDone.agenda = s.agenda := rfl

@[simp] theorem State.raiseEvovf_cfg (s : State) : s.raiseEvovf.cfg = s.cfg := rfl
@[simp] theorem State.raiseEvovf_channels (s : State) : s.raiseEvovf.channels = s.channels := rfl
@[simp] theorem State.raiseEvovf_voices (s : State) : s.raiseEvovf.voices = s.voices := rfl
@[simp] theorem State.raiseEvovf_queue (s : State) : s.raiseEvovf.queue = s.queue := rfl
@[simp] theorem State.raiseEvovf_busy (s : State) : s.raiseEvovf.busy = s.busy := rfl
@[simp] theorem State.raiseEvovf_pendingK (s : State) : s.raiseEvovf.pendingK = s.pendingK := rfl
@[simp] theorem State.raiseEvovf_pendingN (s : State) : s.raiseEvovf.pendingN = s.pendingN := rfl
@[simp] theorem State.raiseEvovf_done (s : State) : s.raiseEvovf.done = s.done := rfl
@[simp] theorem State.raiseEvovf_evovf (s : State) : s.raiseEvovf.evovf = true := rfl
@[simp] theorem State.raiseEvovf_rnovr (s : State) : s.raiseEvovf.rnovr = s.rnovr := rfl
@[simp] theorem State.raiseEvovf_ie (s : State) : s.raiseEvovf.ie = s.ie := rfl
@[simp] theorem State.raiseEvovf_outbuf (s : State) : s.raiseEvovf.outbuf = s.outbuf := rfl
@[simp] theorem State.raiseEvovf_outbufEpoch (s : State) : s.raiseEvovf.outbufEpoch = s.outbufEpoch := rfl
@[simp] theorem State.raiseEvovf_draws (s : State) : s.raiseEvovf.draws = s.draws := rfl
@[simp] theorem State.raiseEvovf_hostData (s : State) : s.raiseEvovf.hostData = s.hostData := rfl
@[simp] theorem State.raiseEvovf_agenda (s : State) : s.raiseEvovf.agenda = s.agenda := rfl

@[simp] theorem State.raiseRnovr_cfg (s : State) : s.raiseRnovr.cfg = s.cfg := rfl
@[simp] theorem State.raiseRnovr_channels (s : State) : s.raiseRnovr.channels = s.channels := rfl
@[simp] theorem State.raiseRnovr_voices (s : State) : s.raiseRnovr.voices = s.voices := rfl
@[simp] theorem State.raiseRnovr_queue (s : State) : s.raiseRnovr.queue = s.queue := rfl
@[simp] theorem State.raiseRnovr_busy (s : State) : s.raiseRnovr.busy = s.busy := rfl
@[simp] theorem State.raiseRnovr_pendingK (s : State) : s.raiseRnovr.pendingK = s.pendingK := rfl
@[simp] theorem State.raiseRnovr_pendingN (s : State) : s.raiseRnovr.pendingN = s.pendingN := rfl
@[simp] theorem State.raiseRnovr_done (s : State) : s.raiseRnovr.done = s.done := rfl
@[simp] theorem State.raiseRnovr_evovf (s : State) : s.raiseRnovr.evovf = s.evovf := rfl
@[simp] theorem State.raiseRnovr_rnovr (s : State) : s.raiseRnovr.rnovr = true := rfl
@[simp] theorem State.raiseRnovr_ie (s : State) : s.raiseRnovr.ie = s.ie := rfl
@[simp] theorem State.raiseRnovr_outbuf (s : State) : s.raiseRnovr.outbuf = s.outbuf := rfl
@[simp] theorem State.raiseRnovr_outbufEpoch (s : State) : s.raiseRnovr.outbufEpoch = s.outbufEpoch := rfl
@[simp] theorem State.raiseRnovr_draws (s : State) : s.raiseRnovr.draws = s.draws := rfl
@[simp] theorem State.raiseRnovr_hostData (s : State) : s.raiseRnovr.hostData = s.hostData := rfl
@[simp] theorem State.raiseRnovr_agenda (s : State) : s.raiseRnovr.agenda = s.agenda := rfl

@[simp] theorem State.clearSticky_cfg (s : State) (d e r : Bool) : (s.clearSticky d e r).cfg = s.cfg := rfl
@[simp] theorem State.clearSticky_channels (s : State) (d e r : Bool) : (s.clearSticky d e r).channels = s.channels := rfl
@[simp] theorem State.clearSticky_voices (s : State) (d e r : Bool) : (s.clearSticky d e r).voices = s.voices := rfl
@[simp] theorem State.clearSticky_queue (s : State) (d e r : Bool) : (s.clearSticky d e r).queue = s.queue := rfl
@[simp] theorem State.clearSticky_busy (s : State) (d e r : Bool) : (s.clearSticky d e r).busy = s.busy := rfl
@[simp] theorem State.clearSticky_pendingK (s : State) (d e r : Bool) : (s.clearSticky d e r).pendingK = s.pendingK := rfl
@[simp] theorem State.clearSticky_pendingN (s : State) (d e r : Bool) : (s.clearSticky d e r).pendingN = s.pendingN := rfl
@[simp] theorem State.clearSticky_done (s : State) (d e r : Bool) : (s.clearSticky d e r).done = (s.done && !d) := rfl
@[simp] theorem State.clearSticky_evovf (s : State) (d e r : Bool) : (s.clearSticky d e r).evovf = (s.evovf && !e) := rfl
@[simp] theorem State.clearSticky_rnovr (s : State) (d e r : Bool) : (s.clearSticky d e r).rnovr = (s.rnovr && !r) := rfl
@[simp] theorem State.clearSticky_ie (s : State) (d e r : Bool) : (s.clearSticky d e r).ie = s.ie := rfl
@[simp] theorem State.clearSticky_outbuf (s : State) (d e r : Bool) : (s.clearSticky d e r).outbuf = s.outbuf := rfl
@[simp] theorem State.clearSticky_outbufEpoch (s : State) (d e r : Bool) : (s.clearSticky d e r).outbufEpoch = s.outbufEpoch := rfl
@[simp] theorem State.clearSticky_draws (s : State) (d e r : Bool) : (s.clearSticky d e r).draws = s.draws := rfl
@[simp] theorem State.clearSticky_hostData (s : State) (d e r : Bool) : (s.clearSticky d e r).hostData = s.hostData := rfl
@[simp] theorem State.clearSticky_agenda (s : State) (d e r : Bool) : (s.clearSticky d e r).agenda = s.agenda := rfl

end Sys2Proof.Machine
end

