-- ==== Sys2Proof/Laws/Memory.lean ====
section
/-! SUPPORT. OUTBUF's laws: the canonical form is kept, a read after a write to the same place gives the value written, and a
write leaves every other place alone. -/

namespace Sys2Proof.Machine

theorem memLookup_memWrite_same (m : List Host.Cell) (a : Nat) (b : Byte) : memLookup (memWrite m a b) a = some b := by
  induction m with
  | nil => simp [memWrite, memLookup]
  | cons p m ih =>
    obtain ⟨k, x⟩ := p
    simp only [memWrite]
    split
    · simp [memLookup]
    · split
      · simp [memLookup]
      · rename_i h; simp [memLookup, Ne.symm h, ih]

theorem memLookup_memWrite_other (m : List Host.Cell) {a a' : Nat} (b : Byte) (h : a' ≠ a) :
    memLookup (memWrite m a b) a' = memLookup m a' := by
  induction m with
  | nil => simp [memWrite, memLookup, Ne.symm h]
  | cons p m ih =>
    obtain ⟨k, x⟩ := p
    simp only [memWrite]
    split
    · simp [memLookup, Ne.symm h]
    · split
      · rename_i hk; subst hk; simp [memLookup, Ne.symm h]
      · simp [memLookup, ih]

/-- A write lists the written address beside those that were listed. -/
theorem mem_memWrite {m : List Host.Cell} {a : Nat} {b : Byte} {p : Host.Cell} (h : p ∈ memWrite m a b) :
    p.1 = a ∨ p ∈ m := by
  induction m with
  | nil => simp [memWrite] at h; simp [h]
  | cons q m ih =>
    obtain ⟨k, x⟩ := q
    simp only [memWrite] at h
    split at h
    · rcases List.mem_cons.1 h with rfl | h
      · exact .inl rfl
      · exact .inr h
    · split at h
      · rcases List.mem_cons.1 h with rfl | h
        · exact .inl rfl
        · exact .inr (List.mem_cons_of_mem _ h)
      · rcases List.mem_cons.1 h with rfl | h
        · exact .inr (List.mem_cons_self ..)
        · exact (ih h).imp_right (List.mem_cons_of_mem _)

/-- Every write keeps the canonical form. -/
theorem memWf_memWrite {m : List Host.Cell} (h : Memory.wf m) (a : Nat) (b : Byte) : Memory.wf (memWrite m a b) := by
  induction m with
  | nil => simp [memWrite, Memory.wf]
  | cons p m ih =>
    obtain ⟨k, x⟩ := p
    have hd := List.pairwise_cons.1 h
    simp only [memWrite]
    split
    · rename_i hlt
      refine List.pairwise_cons.2 ⟨fun q hq => ?_, h⟩
      rcases List.mem_cons.1 hq with rfl | hq
      · exact hlt
      · exact lt_trans hlt (hd.1 q hq)
    · split
      · rename_i heq
        subst heq
        exact List.pairwise_cons.2 ⟨hd.1, hd.2⟩
      · rename_i h1 h2
        refine List.pairwise_cons.2 ⟨fun q hq => ?_, ih hd.2⟩
        rcases mem_memWrite hq with hq | hq
        · simp only [hq]; omega
        · exact hd.1 q hq

theorem outByte_memWrite_same (e : Nat) (m : List Host.Cell) (a : Nat) (b : Byte) : outByte e (memWrite m a b) a = b := by
  simp [outByte, memLookup_memWrite_same]

theorem outByte_memWrite_other (e : Nat) (m : List Host.Cell) {a a' : Nat} (b : Byte) (h : a' ≠ a) :
    outByte e (memWrite m a b) a' = outByte e m a' := by
  simp [outByte, memLookup_memWrite_other m b h]

/-- A word write leaves every byte outside the word's four alone. -/
theorem outByte_outWrite_outside (e : Nat) (m : List Host.Cell) (k : Nat) (v : Word) {a : Nat}
    (h : a < outAddr k ∨ outAddr k + 4 ≤ a) : outByte e (outWrite m k v) a = outByte e m a := by
  have h0 : a ≠ outAddr k := by omega
  have h1 : a ≠ outAddr k + 1 := by omega
  have h2 : a ≠ outAddr k + 2 := by omega
  have h3 : a ≠ outAddr k + 3 := by omega
  simp [outWrite, outByte_memWrite_other, h0, h1, h2, h3]

/-- A word is its four bytes. -/
theorem word_of_bytes (v : Word) :
    v.extractLsb' 24 8 ++ v.extractLsb' 16 8 ++ v.extractLsb' 8 8 ++ v.extractLsb' 0 8 = v := by
  apply BitVec.eq_of_getLsbD_eq
  intro i hi
  simp only [BitVec.getLsbD_append, BitVec.getLsbD_extractLsb']
  by_cases h1 : i < 8
  · simp [h1]
  · by_cases h2 : i - 8 < 8
    · simp [h1, h2, show 8 + (i - 8) = i by omega]
    · by_cases h3 : i - 8 - 8 < 8
      · simp [h1, h2, h3, show 16 + (i - 8 - 8) = i by omega]
      · simp [h1, h2, h3, show 24 + (i - 8 - 8 - 8) = i by omega, show i - 8 - 8 - 8 < 8 by omega]

/-- A read after a write to the same word gives the value written (R63). -/
@[simp] theorem outRead_outWrite_same (e : Nat) (m : List Host.Cell) (k : Nat) (v : Word) :
    outRead e (outWrite m k v) k = v := by
  have h : ∀ j, outByte e (outWrite m k v) (outAddr k + j) =
      if j = 3 then v.extractLsb' 24 8 else if j = 2 then v.extractLsb' 16 8
      else if j = 1 then v.extractLsb' 8 8 else if j = 0 then v.extractLsb' 0 8
      else outByte e m (outAddr k + j) := by
    intro j
    simp only [outWrite]
    by_cases h3 : j = 3
    · simp [h3, outByte_memWrite_same]
    by_cases h2 : j = 2
    · subst h2; rw [outByte_memWrite_other _ _ _ (by omega)]; simp [outByte_memWrite_same]
    by_cases h1 : j = 1
    · subst h1
      rw [outByte_memWrite_other _ _ _ (by omega), outByte_memWrite_other _ _ _ (by omega)]
      simp [outByte_memWrite_same]
    by_cases h0 : j = 0
    · subst h0
      rw [outByte_memWrite_other _ _ _ (by omega), outByte_memWrite_other _ _ _ (by omega),
        outByte_memWrite_other _ _ _ (by omega)]
      simp [outByte_memWrite_same]
    rw [outByte_memWrite_other _ _ _ (by omega), outByte_memWrite_other _ _ _ (by omega),
      outByte_memWrite_other _ _ _ (by omega), outByte_memWrite_other _ _ _ (by omega)]
    simp [h0, h1, h2, h3]
  have h0 := h 0
  have h1 := h 1
  have h2 := h 2
  have h3 := h 3
  simp at h0 h1 h2 h3
  simp only [outRead, h0, h1, h2, h3, word_of_bytes]

/-- A write leaves every other word alone. -/
theorem outRead_outWrite_other (e : Nat) (m : List Host.Cell) {k k' : Nat} (v : Word) (h : k' ≠ k) :
    outRead e (outWrite m k v) k' = outRead e m k' := by
  have hb : ∀ j, j < 4 → outByte e (outWrite m k v) (outAddr k' + j) = outByte e m (outAddr k' + j) := by
    intro j hj
    apply outByte_outWrite_outside
    simp only [outAddr]
    omega
  have h0 := hb 0 (by omega)
  simp only [Nat.add_zero] at h0
  simp only [outRead, h0, hb 1 (by omega), hb 2 (by omega), hb 3 (by omega)]

/-- Every word write keeps the canonical form. -/
theorem memWf_outWrite {m : List Host.Cell} (h : Memory.wf m) (k : Nat) (v : Word) : Memory.wf (outWrite m k v) :=
  memWf_memWrite (memWf_memWrite (memWf_memWrite (memWf_memWrite h _ _) _ _) _ _) _ _

/-- A word write lists its own four addresses beside those that were listed. -/
theorem mem_outWrite {m : List Host.Cell} {k : Nat} {v : Word} {p : Host.Cell} (h : p ∈ outWrite m k v) :
    (outAddr k ≤ p.1 ∧ p.1 < outAddr k + 4) ∨ p ∈ m := by
  simp only [outWrite] at h
  rcases mem_memWrite h with h | h
  · exact .inl (by omega)
  rcases mem_memWrite h with h | h
  · exact .inl (by omega)
  rcases mem_memWrite h with h | h
  · exact .inl (by omega)
  rcases mem_memWrite h with h | h
  · exact .inl (by omega)
  exact .inr h

/-- Two buffers with the same bytes have the same words. -/
theorem outRead_congr {e e' : Nat} {m m' : List Host.Cell} (h : ∀ a, outByte e m a = outByte e' m' a) (k : Nat) :
    outRead e m k = outRead e' m' k := by
  simp only [outRead, h]

/-- Byte j of a word is the byte at its address plus j (R64). -/
theorem outRead_byte (e : Nat) (m : List Host.Cell) (k : Nat) {j : Nat} (hj : j < 4) :
    (outRead e m k).extractLsb' (8 * j) 8 = outByte e m (outAddr k + j) := by
  apply BitVec.eq_of_getLsbD_eq
  intro i hi
  simp only [outRead, BitVec.getLsbD_extractLsb', hi, decide_true, Bool.true_and, BitVec.getLsbD_append]
  interval_cases j <;> interval_cases i <;> simp

/-- Writing a word's own value changes no byte. -/
theorem outByte_outWrite_self (e : Nat) (m : List Host.Cell) (k a : Nat) :
    outByte e (outWrite m k (outRead e m k)) a = outByte e m a := by
  by_cases h : a < outAddr k ∨ outAddr k + 4 ≤ a
  · exact outByte_outWrite_outside _ _ _ _ h
  · obtain ⟨j, rfl⟩ : ∃ j, a = outAddr k + j := ⟨a - outAddr k, by omega⟩
    have hj : j < 4 := by omega
    rw [← outRead_byte _ _ _ hj, outRead_outWrite_same, outRead_byte _ _ _ hj]

end Sys2Proof.Machine
end

