-- ==== Sys2Proof/Laws/Events.lean ====
section
/-! SUPPORT. What an event can do: it answers a next state, and it touches the channel file or the voice file and nothing
else.  The drain's laws follow from that alone. -/

namespace Sys2Proof.Machine

@[simp] theorem andThen_next (s : State) (f : State → Result) : andThen (.next s) f = f s := rfl
@[simp] theorem andThen_refused (r : Refusal) (f : State → Result) : andThen (.refused r) f = .refused r := rfl

/-- If one operation after another answers a next state, so did the first. -/
theorem andThen_eq_next {o : Result} {f : State → Result} {t : State} (h : andThen o f = .next t) :
    ∃ u, o = .next u ∧ f u = .next t := by
  cases o with
  | next u => exact ⟨u, rfl, h⟩
  | fault r => cases r
  | refused r => cases h

/-- Everything but the channel file and the voice file is unchanged. -/
structure EngineOnly (s t : State) : Prop where
  cfg : t.cfg = s.cfg
  queue : t.queue = s.queue
  busy : t.busy = s.busy
  pendingK : t.pendingK = s.pendingK
  pendingN : t.pendingN = s.pendingN
  done : t.done = s.done
  evovf : t.evovf = s.evovf
  rnovr : t.rnovr = s.rnovr
  ie : t.ie = s.ie
  outbuf : t.outbuf = s.outbuf
  outbufEpoch : t.outbufEpoch = s.outbufEpoch
  draws : t.draws = s.draws
  hostData : t.hostData = s.hostData
  agenda : t.agenda = s.agenda
  voiceCount : t.voices.length = s.voices.length

theorem EngineOnly.refl (s : State) : EngineOnly s s := by constructor <;> rfl

theorem EngineOnly.trans {s t u : State} (h : EngineOnly s t) (h' : EngineOnly t u) : EngineOnly s u := by
  constructor
  · rw [h'.cfg, h.cfg]
  · rw [h'.queue, h.queue]
  · rw [h'.busy, h.busy]
  · rw [h'.pendingK, h.pendingK]
  · rw [h'.pendingN, h.pendingN]
  · rw [h'.done, h.done]
  · rw [h'.evovf, h.evovf]
  · rw [h'.rnovr, h.rnovr]
  · rw [h'.ie, h.ie]
  · rw [h'.outbuf, h.outbuf]
  · rw [h'.outbufEpoch, h.outbufEpoch]
  · rw [h'.draws, h.draws]
  · rw [h'.hostData, h.hostData]
  · rw [h'.agenda, h.agenda]
  · rw [h'.voiceCount, h.voiceCount]

theorem engineOnly_setChannel (s : State) (c : BitVec 4) (ch : Channel) : EngineOnly s (s.setChannel c ch) := by
  constructor <;> rfl

theorem engineOnly_setVoices (s : State) {vs : List Voice} (h : vs.length = s.voices.length) :
    EngineOnly s (s.setVoices vs) := by
  constructor <;> first | rfl | exact h

theorem engineOnly_releaseNote (c : BitVec 4) (n : BitVec 7) (s : State) : EngineOnly s (releaseNote c n s) :=
  engineOnly_setVoices s (by simp)

/-- What `Allocate` answers: the lowest free voice, else the lowest releasable one at rest, else none (R103). -/
theorem allocate_cases (vs : List Voice) :
    (∃ i v, freeVoice vs = some i ∧ vs[i]? = some v ∧ v.inUse = false ∧ allocate vs = some (vs, i)) ∨
    (∃ i v, freeVoice vs = none ∧ stealableVoice vs = some i ∧ vs[i]? = some v ∧ v.releasable = true ∧
      allocate vs = some (vs.set i .atRest, i)) ∨
    (freeVoice vs = none ∧ stealableVoice vs = none ∧ allocate vs = none) := by
  cases hf : freeVoice vs with
  | some i =>
    obtain ⟨h1, h2, -⟩ := List.findIdx?_eq_some_iff_getElem.1 hf
    exact .inl ⟨i, vs[i], rfl, List.getElem?_eq_getElem h1, by simpa using h2, by simp [allocate, hf]⟩
  | none =>
    cases hs : stealableVoice vs with
    | some i =>
      obtain ⟨h1, h2, -⟩ := List.findIdx?_eq_some_iff_getElem.1 hs
      exact .inr (.inl ⟨i, vs[i], rfl, rfl, List.getElem?_eq_getElem h1, h2, by simp [allocate, hf, hs, deallocate]⟩)
    | none => exact .inr (.inr ⟨rfl, rfl, by simp [allocate, hf, hs]⟩)

/-- What NOTE_ON can do to the voice file: nothing, or a start of a free voice, or a start of a stolen one at rest (R102). -/
theorem noteOn_cases (c : BitVec 4) (n vel : BitVec 7) (s : State) :
    noteOn c n vel s = s ∨
    (∃ i v, s.voices[i]? = some v ∧ v.inUse = false ∧ noteOn c n vel s =
      s.setVoices (s.voices.modify i (startVoice s.cfg c n vel (patchIndex s.cfg (s.channel c).program)))) ∨
    (∃ i v, s.voices[i]? = some v ∧ v.releasable = true ∧ noteOn c n vel s = s.setVoices
      ((s.voices.set i .atRest).modify i (startVoice s.cfg c n vel (patchIndex s.cfg (s.channel c).program)))) := by
  rcases allocate_cases s.voices with ⟨i, v, -, h1, h2, h3⟩ | ⟨i, v, -, -, h1, h2, h3⟩ | ⟨-, -, h3⟩
  · exact .inr (.inl ⟨i, v, h1, h2, by simp [noteOn, h3]⟩)
  · exact .inr (.inr ⟨i, v, h1, h2, by simp [noteOn, h3]⟩)
  · exact .inl (by simp [noteOn, h3])

theorem engineOnly_noteOn (c : BitVec 4) (n vel : BitVec 7) (s : State) : EngineOnly s (noteOn c n vel s) := by
  rcases noteOn_cases c n vel s with h | ⟨i, v, -, -, h⟩ | ⟨i, v, -, -, h⟩
  · rw [h]; exact .refl s
  · rw [h]; exact engineOnly_setVoices s (by simp)
  · rw [h]; exact engineOnly_setVoices s (by simp)

/-- The commands that event words decode to (R82): NOTE_ON among them only with a non-zero velocity. -/
theorem decodeEvent_cases (w : EventWord) :
    decodeEvent w = .nonStatus ∨ decodeEvent w = .polyPressure ∨ decodeEvent w = .system ∨
    (∃ c n v, decodeEvent w = .noteOff c n v) ∨ (∃ c n, decodeEvent w = .noteOnV0 c n) ∨
    (∃ c n v, v ≠ 0 ∧ decodeEvent w = .noteOn c n v) ∨ (∃ c k v, decodeEvent w = .controlChange c k v) ∨
    (∃ c p, decodeEvent w = .programChange c p) ∨ (∃ c p, decodeEvent w = .channelPressure c p) ∨
    (∃ c l m, decodeEvent w = .pitchBend c l m) := by
  unfold decodeEvent
  split
  · exact .inr (.inr (.inr (.inl ⟨_, _, _, rfl⟩)))
  · split
    · exact .inr (.inr (.inr (.inr (.inl ⟨_, _, rfl⟩))))
    · rename_i h; exact .inr (.inr (.inr (.inr (.inr (.inl ⟨_, _, _, h, rfl⟩)))))
  · exact .inr (.inl rfl)
  · exact .inr (.inr (.inr (.inr (.inr (.inr (.inl ⟨_, _, _, rfl⟩))))))
  · exact .inr (.inr (.inr (.inr (.inr (.inr (.inr (.inl ⟨_, _, rfl⟩)))))))
  · exact .inr (.inr (.inr (.inr (.inr (.inr (.inr (.inr (.inl ⟨_, _, rfl⟩))))))))
  · exact .inr (.inr (.inr (.inr (.inr (.inr (.inr (.inr (.inr ⟨_, _, _, rfl⟩))))))))
  · exact .inr (.inr (.inl rfl))
  · exact .inl rfl

/-- Every event completes and touches the channel and voice files only (R87, R220). -/
theorem exec_event_engineOnly (w : EventWord) (s : State) : ∃ t, exec (decodeEvent w) s = .next t ∧ EngineOnly s t := by
  rcases decodeEvent_cases w with h | h | h | ⟨c, n, v, h⟩ | ⟨c, n, h⟩ | ⟨c, n, v, -, h⟩ | ⟨c, k, v, h⟩ | ⟨c, p, h⟩ | ⟨c, p, h⟩ |
    ⟨c, l, m, h⟩ <;> rw [h]
  · exact ⟨s, rfl, .refl s⟩
  · exact ⟨s, rfl, .refl s⟩
  · exact ⟨s, rfl, .refl s⟩
  · exact ⟨_, rfl, engineOnly_releaseNote c n s⟩
  · exact ⟨_, rfl, engineOnly_releaseNote c n s⟩
  · exact ⟨_, rfl, engineOnly_noteOn c n v s⟩
  · exact ⟨_, rfl, engineOnly_setChannel _ _ _⟩
  · exact ⟨_, rfl, engineOnly_setChannel _ _ _⟩
  · exact ⟨_, rfl, engineOnly_setChannel _ _ _⟩
  · exact ⟨_, rfl, engineOnly_setChannel _ _ _⟩

/-- An invariant of the state that taking an entry off the FIFO and every event keep is kept by the drain. -/
theorem drain_keeps {P : State → Prop} (hq : ∀ s w q, s.queue = w :: q → P s → P (s.setQueue q))
    (he : ∀ w s t, P s → exec (decodeEvent w) s = .next t → P t) (k : Nat) (s t : State)
    (hs : P s) (h : drain k s = .next t) : P t := by
  induction k generalizing s with
  | zero => cases h; exact hs
  | succ k ih =>
    simp only [drain] at h
    split at h
    · cases h; exact hs
    · rename_i w q hwq
      obtain ⟨u, hu, h⟩ := andThen_eq_next h
      exact ih u (he _ _ _ (hq _ _ _ hwq hs) hu) h

/-- The drain completes, takes K entries off the FIFO's head, and touches nothing else but the channel and voice files. -/
theorem drain_engineOnly (k : Nat) (s : State) :
    ∃ t, drain k s = .next t ∧ EngineOnly (s.setQueue (s.queue.drop k)) t := by
  induction k generalizing s with
  | zero => exact ⟨s, rfl, .refl s⟩
  | succ k ih =>
    simp only [drain]
    split
    · rename_i h
      refine ⟨s, rfl, ?_⟩
      have : s.setQueue (s.queue.drop (k + 1)) = s := by rw [h]; cases s; cases h; rfl
      rw [this]
      exact .refl s
    · rename_i w q h
      obtain ⟨u, hu, hu'⟩ := exec_event_engineOnly w (s.setQueue q)
      obtain ⟨t, ht, ht'⟩ := ih u
      rw [hu, andThen_next]
      refine ⟨t, ht, ?_⟩
      have hq : u.queue = q := hu'.queue
      constructor
      · rw [ht'.cfg]; exact hu'.cfg
      · rw [ht'.queue]; simp [hq, h]
      · rw [ht'.busy]; exact hu'.busy
      · rw [ht'.pendingK]; exact hu'.pendingK
      · rw [ht'.pendingN]; exact hu'.pendingN
      · rw [ht'.done]; exact hu'.done
      · rw [ht'.evovf]; exact hu'.evovf
      · rw [ht'.rnovr]; exact hu'.rnovr
      · rw [ht'.ie]; exact hu'.ie
      · rw [ht'.outbuf]; exact hu'.outbuf
      · rw [ht'.outbufEpoch]; exact hu'.outbufEpoch
      · rw [ht'.draws]; exact hu'.draws
      · rw [ht'.hostData]; exact hu'.hostData
      · rw [ht'.agenda]; exact hu'.agenda
      · rw [ht'.voiceCount]; exact hu'.voiceCount

end Sys2Proof.Machine
end

