-- ==== Sys2Proof/Laws/Modulation.lean ====
section
/-! SUPPORT. The modulator's laws: each function as arithmetic on numbers, with the spec's shifts as divisions. -/

namespace Sys2Proof.Machine

/-- FM's product as a number (R162). -/
theorem scaleStep_toNat (step : Word) (m : BitVec 16) : (scaleStep step m).toNat = step.toNat * m.toNat / 2 ^ 15 % 2 ^ 32 := by
  rw [scaleStep, BitVec.toNat_ofNat]

/-- Index 0 is unity (R32, R161). -/
theorem powLookup_zero : powLookup 0 = 32768 := powRom_unity

/-- The multiplier at unity leaves every step as it is (R162). -/
@[simp] theorem scaleStep_unity (step : Word) : scaleStep step 32768 = step := by
  apply BitVec.eq_of_toNat_eq
  have h := step.isLt
  have hm : (32768 : BitVec 16).toNat = 32768 := by decide
  rw [scaleStep_toNat, hm]
  omega

/-- FM by index 0 is the identity (R162). -/
@[simp] theorem fm_zero (step : Word) : fm step 0 = step := by rw [fm, powLookup_zero, scaleStep_unity]

/-- The patch of an index below NUM_PATCHES is the record at that position (R33, R148). -/
theorem patchAt_of_lt {cfg : Config} {p : BitVec 7} (h : p.toNat < cfg.patchRom.length) :
    patchAt cfg p = decodePatch cfg.patchRom[p.toNat] := by
  rw [patchAt, Nat.mod_eq_of_lt h, List.getD_eq_getElem _ _ h]

/-- The LFO's advance as a number; it fits 32 bits (R166). -/
theorem vibratoStep_toNat (p : Patch) : (vibratoStep p).toNat = p.vibRate.toNat * 2097152 := by
  have h := p.vibRate.isLt
  have e : (2 ^ vibRateShift : Nat) = 2097152 := by decide
  rw [vibratoStep, BitVec.toNat_ofNat, Nat.shiftLeft_eq, e]
  omega

/-- The pitch-envelope index as a division (R165). -/
theorem pitchIndex_eq (p : Patch) (e : Envelope) : pitchIndex p e = (e.level.toNat : Int) * p.penvDepth.toInt / 512 := by
  have e9 : ((2 ^ penvShift : Nat) : Int) = 512 := by decide
  rw [pitchIndex, asr, e9]

/-- The vibrato index as a division (R166). -/
theorem vibratoIndex_eq (cfg : Config) (p : Patch) (ch : Channel) (ph : Word) :
    vibratoIndex cfg p ch ph = waveSample cfg p.vibWave ph * (ch.controller 1).toNat * p.vibDepth.toNat / 524288 := by
  have e19 : ((2 ^ vibShift : Nat) : Int) = 524288 := by decide
  have hcc : ch.cc[ccModwheel] = ch.controller 1 := rfl
  rw [vibratoIndex, asr, e19, hcc]

end Sys2Proof.Machine
end

