-- ==== Sys2Proof/Laws/Render.lean ====
section
/-! SUPPORT. The render's laws: what one voice's block does to its record and to OUTBUF, word by word and byte by byte, and
what the voices do together. -/

namespace Sys2Proof.Machine

/-- The mixer's term as a division (R186). -/
theorem mixTerm_eq (gain : Nat) (smp : Int) : mixTerm gain smp = (gain : Int) * smp / 256 := rfl

/-- Mixing a term into a word adds it modulo 2^32 (R186). -/
theorem outRead_mixWord_same (e : Nat) (m : List Host.Cell) (k : Nat) (t : Int) :
    outRead e (mixWord e m k t) k = outRead e m k + wrap32 t := by
  rw [mixWord, outRead_outWrite_same, wrap32, BitVec.ofInt_add, BitVec.ofInt_toInt]
  rfl

theorem outRead_mixWord_other (e : Nat) (m : List Host.Cell) {k k' : Nat} (t : Int) (h : k' ≠ k) :
    outRead e (mixWord e m k t) k' = outRead e m k' := outRead_outWrite_other _ _ _ h

theorem outByte_mixWord_outside (e : Nat) (m : List Host.Cell) (k : Nat) (t : Int) {a : Nat}
    (h : a < outAddr k ∨ outAddr k + 4 ≤ a) : outByte e (mixWord e m k t) a = outByte e m a :=
  outByte_outWrite_outside _ _ _ _ h

/-- A frame's mix adds one term to its left word, one to its right word, and leaves the other words (R186). -/
theorem outRead_mixFrame (e : Nat) (m : List Host.Cell) (f gL gR : Nat) (smp : Int) (k : Nat) :
    outRead e (mixFrame e m f gL gR smp) k =
      if k = 2 * f then outRead e m k + wrap32 (mixTerm gL smp)
      else if k = 2 * f + 1 then outRead e m k + wrap32 (mixTerm gR smp) else outRead e m k := by
  simp only [mixFrame]
  by_cases h1 : k = 2 * f + 1
  · subst h1
    rw [outRead_mixWord_same, outRead_mixWord_other _ _ _ (by omega), if_neg (by omega), if_pos rfl]
  · rw [outRead_mixWord_other _ _ _ h1, if_neg h1]
    by_cases h0 : k = 2 * f
    · subst h0; rw [outRead_mixWord_same, if_pos rfl]
    · rw [outRead_mixWord_other _ _ _ h0, if_neg h0]

theorem outByte_mixFrame_outside (e : Nat) (m : List Host.Cell) (f gL gR : Nat) (smp : Int) {a : Nat}
    (h : a < outAddr (2 * f) ∨ outAddr (2 * f + 2) ≤ a) :
    outByte e (mixFrame e m f gL gR smp) a = outByte e m a := by
  simp only [mixFrame, outAddr] at h ⊢
  rw [outByte_mixWord_outside, outByte_mixWord_outside] <;> simp only [outAddr] <;> omega

/-- One frame and then n are n + 1 frames. -/
theorem acc_advance (acc step : Word) (n : Nat) :
    acc + step + BitVec.ofNat 32 n * step = acc + BitVec.ofNat 32 (n + 1) * step := by
  rw [BitVec.ofNat_add, BitVec.add_mul, BitVec.add_assoc]
  congr 1
  rw [BitVec.add_comm]
  congr 1
  simp

/-- The accumulator after a block: one step for each frame (R185). -/
theorem renderFrames_acc (cfg : Config) (wave : BitVec 2) (e gL gR : Nat) (step : Word) (n f : Nat) (acc : Word)
    (m : List Host.Cell) :
    (renderFrames cfg wave e gL gR step n f acc m).1 = acc + BitVec.ofNat 32 n * step := by
  induction n generalizing f acc m with
  | zero => simp [renderFrames]
  | succ n ih =>
    rw [renderFrames, ih, acc_advance]

/-- A voice's frames change no byte outside their words (R190). -/
theorem renderFrames_outside (cfg : Config) (wave : BitVec 2) (e gL gR : Nat) (step : Word) (n f : Nat) (acc : Word)
    (m : List Host.Cell) {a : Nat} (h : a < outAddr (2 * f) ∨ outAddr (2 * (f + n)) ≤ a) :
    outByte e (renderFrames cfg wave e gL gR step n f acc m).2 a = outByte e m a := by
  induction n generalizing f acc m with
  | zero => rfl
  | succ n ih =>
    rw [renderFrames, ih, outByte_mixFrame_outside]
    · simp only [outAddr] at h ⊢; omega
    · simp only [outAddr] at h ⊢; omega

/-- A voice's frames add one term to each of their words (R185, R186). -/
theorem renderFrames_word (cfg : Config) (wave : BitVec 2) (e gL gR : Nat) (step : Word) (n f : Nat) (acc : Word)
    (m : List Host.Cell) (j : Nat) :
    (outRead e (renderFrames cfg wave e gL gR step n f acc m).2 (2 * j) =
      if f ≤ j ∧ j < f + n then
        outRead e m (2 * j) + wrap32 (mixTerm gL (waveSample cfg wave (acc + BitVec.ofNat 32 (j - f) * step)))
      else outRead e m (2 * j)) ∧
    (outRead e (renderFrames cfg wave e gL gR step n f acc m).2 (2 * j + 1) =
      if f ≤ j ∧ j < f + n then
        outRead e m (2 * j + 1) + wrap32 (mixTerm gR (waveSample cfg wave (acc + BitVec.ofNat 32 (j - f) * step)))
      else outRead e m (2 * j + 1)) := by
  induction n generalizing f acc m with
  | zero =>
    have : ¬ (f ≤ j ∧ j < f + 0) := by omega
    simp only [renderFrames, if_neg this, and_self]
  | succ n ih =>
    rw [renderFrames]
    obtain ⟨h0, h1⟩ := ih (f + 1) (acc + step) (mixFrame e m f gL gR (waveSample cfg wave acc))
    rw [h0, h1]
    rw [outRead_mixFrame, outRead_mixFrame]
    by_cases hj : j = f
    · subst hj
      have hn : ¬ (j + 1 ≤ j ∧ j < j + 1 + n) := by omega
      have hp : j ≤ j ∧ j < j + (n + 1) := by omega
      have hc : ¬ (2 * j + 1 = 2 * j) := by omega
      simp only [if_neg hn, if_pos hp, hc, if_true, if_false, Nat.sub_self, BitVec.zero_mul,
        BitVec.add_zero, and_self]
    · have c0 : ¬ (2 * j = 2 * f) := by omega
      have c1 : ¬ (2 * j = 2 * f + 1) := by omega
      have c2 : ¬ (2 * j + 1 = 2 * f) := by omega
      have c3 : ¬ (2 * j + 1 = 2 * f + 1) := by omega
      simp only [c0, c1, c2, c3, if_false]
      by_cases hr : f + 1 ≤ j ∧ j < f + 1 + n
      · have hr' : f ≤ j ∧ j < f + (n + 1) := by omega
        have hs : j - f = (j - (f + 1)) + 1 := by omega
        have ha : acc + step + BitVec.ofNat 32 (j - (f + 1)) * step = acc + BitVec.ofNat 32 (j - f) * step := by
          rw [acc_advance, ← hs]
        simp only [if_pos hr, if_pos hr', ha, and_self]
      · have hr' : ¬ (f ≤ j ∧ j < f + (n + 1)) := by omega
        simp only [if_neg hr, if_neg hr', and_self]

/-- A block lists bytes of its own words beside those that were listed, and keeps the canonical form. -/
theorem renderFrames_keeps (cfg : Config) (wave : BitVec 2) (e gL gR : Nat) (step : Word) (n f : Nat) (acc : Word)
    {m : List Host.Cell} {lo hi : Nat} (hw : Memory.wf m) (hm : ∀ p ∈ m, lo ≤ p.1 ∧ p.1 < hi)
    (hlo : lo ≤ outAddr (2 * f)) (hhi : outAddr (2 * (f + n)) ≤ hi) :
    Memory.wf (renderFrames cfg wave e gL gR step n f acc m).2 ∧
      ∀ p ∈ (renderFrames cfg wave e gL gR step n f acc m).2, lo ≤ p.1 ∧ p.1 < hi := by
  induction n generalizing f acc m with
  | zero => exact ⟨hw, hm⟩
  | succ n ih =>
    rw [renderFrames]
    refine ih (f + 1) _ (memWf_outWrite (memWf_outWrite hw _ _) _ _) (fun p hp => ?_) ?_ ?_
    · simp only [outAddr] at hlo hhi
      rcases mem_outWrite hp with h | h
      · simp only [outAddr] at h; omega
      rcases mem_outWrite h with h | h
      · simp only [outAddr] at h; omega
      exact hm p h
    · simp only [outAddr] at hlo ⊢; omega
    · simp only [outAddr] at hhi ⊢; omega

/-- The voice that a block leaves (R187). -/
theorem voiceRender_voice (cfg : Config) (ch : Channel) (e n : Nat) (v : Voice) (m : List Host.Cell) :
    (voiceRender cfg ch e n v m).1 =
      { modStep cfg ch v with phaseAcc := v.phaseAcc + BitVec.ofNat 32 n * composedStep cfg ch v } := by
  simp only [voiceRender, renderFrames_acc]
  rfl

/-- What the voices' block does to one voice: an idle one is unchanged, an in-use one renders (R180). -/
theorem renderVoices_voices (cfg : Config) (chs : Vector Channel numChannels) (e n : Nat) (vs : List Voice)
    (m : List Host.Cell) :
    (renderVoices cfg chs e n vs m).1 = vs.map fun v =>
      if v.inUse then
        { modStep cfg chs[v.channel.toFin] v with
          phaseAcc := v.phaseAcc + BitVec.ofNat 32 n * composedStep cfg chs[v.channel.toFin] v }
      else v := by
  induction vs generalizing m with
  | nil => rfl
  | cons v vs ih =>
    simp only [renderVoices, List.map_cons, ih]
    congr 1
    split
    · rw [voiceRender_voice]
    · rfl

/-- The voices' block changes no byte outside its frames (R190). -/
theorem renderVoices_outside (cfg : Config) (chs : Vector Channel numChannels) (e n : Nat) (vs : List Voice)
    (m : List Host.Cell) {a : Nat} (h : a < outAddr 0 ∨ outAddr (2 * n) ≤ a) :
    outByte e (renderVoices cfg chs e n vs m).2 a = outByte e m a := by
  induction vs generalizing m with
  | nil => rfl
  | cons v vs ih =>
    simp only [renderVoices, ih]
    split
    · simp only [voiceRender]
      exact renderFrames_outside _ _ _ _ _ _ _ _ _ _ (by simpa using h)
    · rfl

/-- With no voice in use the block leaves OUTBUF as it is (R190). -/
theorem renderVoices_silent (cfg : Config) (chs : Vector Channel numChannels) (e n : Nat) (vs : List Voice)
    (m : List Host.Cell) (h : ∀ v ∈ vs, v.inUse = false) : (renderVoices cfg chs e n vs m).2 = m := by
  induction vs generalizing m with
  | nil => rfl
  | cons v vs ih =>
    have hv := h v (List.mem_cons_self ..)
    simp only [renderVoices, hv, Bool.false_eq_true, if_false]
    exact ih m fun u hu => h u (List.mem_cons_of_mem _ hu)

/-- The voices' block keeps OUTBUF's canonical form and lists bytes of its frames beside those that were listed. -/
theorem renderVoices_keeps (cfg : Config) (chs : Vector Channel numChannels) (e n : Nat) (vs : List Voice)
    {m : List Host.Cell} {hi : Nat} (hw : Memory.wf m) (hm : ∀ p ∈ m, offOutbuf ≤ p.1 ∧ p.1 < hi)
    (hhi : outAddr (2 * n) ≤ hi) :
    Memory.wf (renderVoices cfg chs e n vs m).2 ∧
      ∀ p ∈ (renderVoices cfg chs e n vs m).2, offOutbuf ≤ p.1 ∧ p.1 < hi := by
  induction vs generalizing m with
  | nil => exact ⟨hw, hm⟩
  | cons v vs ih =>
    simp only [renderVoices]
    split
    · obtain ⟨h1, h2⟩ := renderFrames_keeps cfg (patchAt cfg v.patch).wave e
        (gainLeft cfg chs[v.channel.toFin] v) (gainRight cfg chs[v.channel.toFin] v)
        (modStep cfg chs[v.channel.toFin] v).phaseStepCurrent n 0 (modStep cfg chs[v.channel.toFin] v).phaseAcc hw hm
        (by simp [outAddr]) (by simpa using hhi)
      exact ih h1 h2
    · exact ih hw hm

/-! What a block leaves in each field. -/

@[simp] theorem renderBlock_cfg (n : Nat) (s : State) : (renderBlock n s).cfg = s.cfg := rfl
@[simp] theorem renderBlock_channels (n : Nat) (s : State) : (renderBlock n s).channels = s.channels := rfl
@[simp] theorem renderBlock_queue (n : Nat) (s : State) : (renderBlock n s).queue = s.queue := rfl
@[simp] theorem renderBlock_busy (n : Nat) (s : State) : (renderBlock n s).busy = false := rfl
@[simp] theorem renderBlock_pendingK (n : Nat) (s : State) : (renderBlock n s).pendingK = 0 := rfl
@[simp] theorem renderBlock_pendingN (n : Nat) (s : State) : (renderBlock n s).pendingN = 0 := rfl
@[simp] theorem renderBlock_done (n : Nat) (s : State) : (renderBlock n s).done = true := rfl
@[simp] theorem renderBlock_evovf (n : Nat) (s : State) : (renderBlock n s).evovf = s.evovf := rfl
@[simp] theorem renderBlock_rnovr (n : Nat) (s : State) : (renderBlock n s).rnovr = s.rnovr := rfl
@[simp] theorem renderBlock_ie (n : Nat) (s : State) : (renderBlock n s).ie = s.ie := rfl
@[simp] theorem renderBlock_outbufEpoch (n : Nat) (s : State) : (renderBlock n s).outbufEpoch = s.outbufEpoch := rfl
@[simp] theorem renderBlock_draws (n : Nat) (s : State) : (renderBlock n s).draws = s.draws := rfl
@[simp] theorem renderBlock_hostData (n : Nat) (s : State) : (renderBlock n s).hostData = s.hostData := rfl
@[simp] theorem renderBlock_agenda (n : Nat) (s : State) : (renderBlock n s).agenda = s.agenda := rfl

/-- The voice file that a block leaves. -/
theorem renderBlock_voices (n : Nat) (s : State) :
    (renderBlock n s).voices = (envelopePass s.cfg s.voices).map fun v =>
      if v.inUse then
        { modStep s.cfg (s.channel v.channel) v with
          phaseAcc := v.phaseAcc + BitVec.ofNat 32 n * composedStep s.cfg (s.channel v.channel) v }
      else v := renderVoices_voices _ _ _ _ _ _

end Sys2Proof.Machine
end

