-- ==== Sys2Proof/Laws/Step.lean ====
section
/-! SUPPORT. What a step is, turn by turn, and what a host access decodes to: the case analyses that claims about every step
go through. -/

namespace Sys2Proof

/-- What the window admits decodes by the map, according to its direction (R61, R65). -/
theorem decodeAccess_admitted {base : Nat} {a : Access} (h : Machine.Access.admitted base a) :
    decodeAccess base a = .ok (match a.kind with
      | .read => decodeRead (a.addr - base)
      | .write => decodeWrite (a.addr - base) a.data) := by
  obtain ⟨h1, h2, h3, h4⟩ := h
  have h5 : ¬ (a.addr < base ∨ base + windowBytes ≤ a.addr) := by omega
  simp only [decodeAccess, h1, ne_eq, not_true_eq_false, if_false, if_neg h5, h4]
  cases a.kind <;> rfl

/-- What decodes was admitted. -/
theorem admitted_of_decodeAccess {base : Nat} {a : Access} {i : Instr} (h : decodeAccess base a = .ok i) :
    Machine.Access.admitted base a := by
  simp only [decodeAccess] at h
  split at h
  · cases h
  · split at h
    · cases h
    · split at h
      · cases h
      · exact ⟨by omega, by omega, by omega, by omega⟩

/-- A read decodes to a reading command (R61). -/
theorem decodeRead_cases (off : Nat) :
    (off = offEvent ∧ decodeRead off = .eventRd) ∨ (off = offRender ∧ decodeRead off = .renderRd) ∨
    (off = offStatus ∧ decodeRead off = .statusRd) ∨ (off = offCtrl ∧ decodeRead off = .ctrlRd) ∨
    (offOutbuf ≤ off ∧ decodeRead off = .outbufRd (outbufIndex off)) ∨
    (offVoiceStat ≤ off ∧ off < offVoiceStatEnd ∧
      decodeRead off = .voiceStatRd (voiceStatIndex off) (voiceStatWord1 off)) ∨
    (off < offOutbuf ∧ off ∉ [offEvent, offRender, offStatus, offCtrl] ∧ (off < offVoiceStat ∨ offVoiceStatEnd ≤ off) ∧
      decodeRead off = .reservedRd (BitVec.ofNat 13 off)) := by
  simp only [decodeRead]
  split; · rename_i h; exact .inl ⟨h, rfl⟩
  split; · rename_i h; exact .inr (.inl ⟨h, rfl⟩)
  split; · rename_i h; exact .inr (.inr (.inl ⟨h, rfl⟩))
  split; · rename_i h; exact .inr (.inr (.inr (.inl ⟨h, rfl⟩)))
  split; · rename_i h; exact .inr (.inr (.inr (.inr (.inl ⟨h, rfl⟩))))
  split; · rename_i h; exact .inr (.inr (.inr (.inr (.inr (.inl ⟨h.1, h.2, rfl⟩)))))
  rename_i h1 h2 h3 h4 h5 h6
  exact .inr (.inr (.inr (.inr (.inr (.inr ⟨by omega, by simp only [List.mem_cons, List.not_mem_nil]; tauto, by omega, rfl⟩)))))

/-- A write decodes to a writing command (R61). -/
theorem decodeWrite_cases (off : Nat) (w : Word) :
    (off = offEvent ∧ decodeWrite off w = .eventWr (w.extractLsb' 0 24)) ∨
    (off = offRender ∧ decodeWrite off w = .renderWr (w.extractLsb' 0 16)) ∨
    (off = offStatus ∧ decodeWrite off w = .statusWr (w.getLsbD 1) (w.getLsbD 2) (w.getLsbD 3)) ∨
    (off = offCtrl ∧ decodeWrite off w = .ctrlWr (w.getLsbD 0)) ∨
    (offOutbuf ≤ off ∧ decodeWrite off w = .outbufWr (outbufIndex off) w) ∨
    (off < offOutbuf ∧ off ∉ [offEvent, offRender, offStatus, offCtrl] ∧
      decodeWrite off w = .reservedWr (BitVec.ofNat 13 off)) := by
  simp only [decodeWrite]
  split; · rename_i h; exact .inl ⟨h, rfl⟩
  split; · rename_i h; exact .inr (.inl ⟨h, rfl⟩)
  split; · rename_i h; exact .inr (.inr (.inl ⟨h, rfl⟩))
  split; · rename_i h; exact .inr (.inr (.inr (.inl ⟨h, rfl⟩)))
  split; · rename_i h; exact .inr (.inr (.inr (.inr (.inl ⟨h, rfl⟩))))
  rename_i h1 h2 h3 h4 h5
  exact .inr (.inr (.inr (.inr (.inr ⟨by omega, by simp only [List.mem_cons, List.not_mem_nil]; tauto, rfl⟩))))

namespace Machine

/-- With no turn left a step is the CORE's. -/
theorem step_of_nil {s : State} (hl : s.cfg.legal = true) (ha : s.agenda = []) : step s = coreTurn s := by
  simp only [step, hl, ha, if_true]

/-- A step is the turn at the agenda's head, taken off it (R71). -/
theorem step_of_cons {s : State} {t : Turn} {ts : List Turn} (hl : s.cfg.legal = true) (ha : s.agenda = t :: ts) :
    step s = takeTurn t (s.setAgenda ts) := by
  simp only [step, hl, ha, if_true]

/-- A step that answers a next state: the CORE's, the host's command, or a reset, in a legal configuration. -/
theorem step_cases {s t : State} (h : step s = .next t) : s.cfg.legal = true ∧
    ((s.agenda = [] ∧ coreTurn s = .next t) ∨
     (∃ ts, s.agenda = .core :: ts ∧ coreTurn (s.setAgenda ts) = .next t) ∨
     (∃ ts, s.agenda = .reset :: ts ∧ t = resetCore (s.setAgenda ts)) ∨
     ∃ a ts i, s.agenda = .host a :: ts ∧ decodeAccess s.cfg.coreBase a = .ok i ∧ exec i (s.setAgenda ts) = .next t) := by
  have hl : s.cfg.legal = true := by
    by_contra hl
    simp [step, hl] at h
  refine ⟨hl, ?_⟩
  cases ha : s.agenda with
  | nil => exact .inl ⟨rfl, by rw [← step_of_nil hl ha]; exact h⟩
  | cons u ts =>
    rw [step_of_cons hl ha] at h
    cases u with
    | core => exact .inr (.inl ⟨ts, rfl, h⟩)
    | reset => exact .inr (.inr (.inl ⟨ts, rfl, by cases h; rfl⟩))
    | host a =>
      simp only [takeTurn, hostTurn] at h
      split at h
      · rename_i i hd
        exact .inr (.inr (.inr ⟨a, ts, i, rfl, hd, h⟩))
      · cases h

/-- A render is the drain and then the block, and it completes (R180). -/
theorem render_cases (s : State) : ∃ u, drain s.pendingK s = .next u ∧
    EngineOnly (s.setQueue (s.queue.drop s.pendingK)) u ∧ render s = .next (renderBlock s.pendingN u) := by
  obtain ⟨u, hu, he⟩ := drain_engineOnly s.pendingK s
  exact ⟨u, hu, he, by simp only [render, hu, andThen_next]⟩

/-- A CORE turn is a render while busy, and nothing else ever. -/
theorem coreTurn_cases {s t : State} (h : coreTurn s = .next t) : (s.busy = true ∧ render s = .next t) ∨ (s.busy = false ∧ t = s) := by
  simp only [coreTurn] at h
  split at h
  · rename_i hb; exact .inl ⟨hb, h⟩
  · rename_i hb; cases h; exact .inr ⟨by simpa using hb, rfl⟩

/-- The states that a read of the window can lead to: the returned word, and one drawn value (R66, R205). -/
theorem exec_decodeRead {off : Nat} {s t : State} (h : exec (decodeRead off) s = .next t) :
    ∃ w, t = s.setHostData w ∨ t = (s.setDraws (s.draws + 1)).setHostData w := by
  rcases decodeRead_cases off with ⟨-, e⟩ | ⟨-, e⟩ | ⟨-, e⟩ | ⟨-, e⟩ | ⟨-, e⟩ | ⟨-, -, e⟩ | ⟨-, -, -, e⟩ <;> rw [e] at h
  · exact ⟨_, .inl (by cases h; rfl)⟩
  · exact ⟨_, .inl (by cases h; rfl)⟩
  · exact ⟨_, .inl (by cases h; rfl)⟩
  · exact ⟨_, .inl (by cases h; rfl)⟩
  · simp only [exec, execOutbufRd, returnWord] at h
    split at h
    · split at h
      · cases h
      · exact ⟨_, .inl (by cases h; rfl)⟩
    · exact ⟨_, .inl (by cases h; rfl)⟩
  · simp only [exec, execVoiceStatRd, returnWord] at h
    split at h
    · exact ⟨_, .inl (by cases h; rfl)⟩
    · split at h
      · exact ⟨_, .inr (by cases h; rfl)⟩
      · exact ⟨_, .inl (by cases h; rfl)⟩
  · exact ⟨_, .inl (by cases h; rfl)⟩

/-- The states that a write to the window can lead to, each with the offset it needs (R200 to R203, R206, R62). -/
theorem exec_decodeWrite {off : Nat} {w : Word} {s t : State} (h : exec (decodeWrite off w) s = .next t) :
    t = s ∨
    (s.queue.length < s.cfg.evqDepth ∧ t = s.setQueue (s.queue ++ [w.extractLsb' 0 24])) ∨ t = s.raiseEvovf ∨
    (s.busy = false ∧ t = s.setSequencer true s.queue.length (blockLength s.cfg (w.extractLsb' 0 16))) ∨ t = s.raiseRnovr ∨
    (off = offStatus ∧ t = s.clearSticky (w.getLsbD 1) (w.getLsbD 2) (w.getLsbD 3)) ∨ t = s.setIe (w.getLsbD 0) ∨
    (s.busy = false ∧ (outbufIndex off).toNat < 2 * s.cfg.maxFrames ∧
      t = s.setOutbuf (outWrite s.outbuf (outbufIndex off).toNat w)) := by
  rcases decodeWrite_cases off w with ⟨-, e⟩ | ⟨-, e⟩ | ⟨ho, e⟩ | ⟨-, e⟩ | ⟨-, e⟩ | ⟨-, -, e⟩ <;> rw [e] at h
  · simp only [exec, execEventWr] at h
    split at h
    · rename_i hq; exact .inr (.inl ⟨hq, by cases h; rfl⟩)
    · exact .inr (.inr (.inl (by cases h; rfl)))
  · simp only [exec, execRenderWr] at h
    split at h
    · exact .inr (.inr (.inr (.inr (.inl (by cases h; rfl)))))
    · rename_i hb; exact .inr (.inr (.inr (.inl ⟨by simpa using hb, by cases h; rfl⟩)))
  · exact .inr (.inr (.inr (.inr (.inr (.inl ⟨ho, by cases h; rfl⟩)))))
  · exact .inr (.inr (.inr (.inr (.inr (.inr (.inl (by cases h; rfl)))))))
  · simp only [exec, execOutbufWr] at h
    split at h
    · rename_i hk
      split at h
      · cases h
      · rename_i hb
        exact .inr (.inr (.inr (.inr (.inr (.inr (.inr ⟨by simpa using hb, by simpa [outbufHas] using hk, by cases h; rfl⟩))))))
    · exact .inl (by cases h; rfl)
  · exact .inl (by cases h; rfl)

/-- A host access, by its direction: a read changes nothing but what the host holds and the draws, and a write is one of
`exec_decodeWrite`'s. -/
theorem hostAccess_cases {s t : State} {base : Nat} {a : Access} {i : Instr} (hd : decodeAccess base a = .ok i)
    (h : exec i s = .next t) :
    (a.kind = .read ∧ ∃ w, t = s.setHostData w ∨ t = (s.setDraws (s.draws + 1)).setHostData w) ∨
    (a.kind = .write ∧ base ≤ a.addr ∧ a.addr < base + windowBytes ∧
      exec (decodeWrite (a.addr - base) a.data) s = .next t) := by
  have had := admitted_of_decodeAccess hd
  have hm := decodeAccess_admitted had
  rw [hd] at hm
  cases hk : a.kind with
  | read =>
    rw [hk] at hm
    cases hm
    exact .inl ⟨rfl, exec_decodeRead h⟩
  | write =>
    rw [hk] at hm
    cases hm
    exact .inr ⟨rfl, had.2.1, had.2.2.1, h⟩

end Machine

end Sys2Proof
end

