-- ==== Sys2Proof/Laws/Invariant.lean ====
section
/-! SUPPORT. The records' invariants, operation by operation: what each event, the envelope pass, a voice's block and a reset
keep of `ChannelInv` and `VoiceInv`. -/

namespace Sys2Proof.Machine

/-! ## Channels -/

@[simp] theorem setChannel_channel_same (s : State) (c : BitVec 4) (ch : Channel) : (s.setChannel c ch).channel c = ch := by
  simp [State.channel, State.setChannel]

theorem setChannel_channel_other (s : State) {c c' : BitVec 4} (ch : Channel) (h : c' ≠ c) :
    (s.setChannel c ch).channel c' = s.channel c' := by
  have hf : (c.toFin : Nat) ≠ (c'.toFin : Nat) := fun e => h (BitVec.toFin_inj.1 (Fin.ext e.symm))
  simp only [State.channel, State.setChannel]
  exact Vector.getElem_set_ne _ _ hf

@[simp] theorem setController_controller_same (ch : Channel) (k v : BitVec 7) : (ch.setController k v).controller k = v := by
  simp [Channel.controller, Channel.setController]

theorem setController_controller_other (ch : Channel) {k k' : BitVec 7} (v : BitVec 7) (h : k' ≠ k) :
    (ch.setController k v).controller k' = ch.controller k' := by
  have hf : (k.toFin : Nat) ≠ (k'.toFin : Nat) := fun e => h (BitVec.toFin_inj.1 (Fin.ext e.symm))
  simp only [Channel.controller, Channel.setController]
  exact Vector.getElem_set_ne _ _ hf

theorem toFin_eq_ccPan (k : BitVec 7) : k.toFin = ccPan ↔ k = 10 := by
  constructor
  · intro h; apply BitVec.toFin_inj.1; rw [h]; rfl
  · rintro rfl; rfl

/-- A raw bend as a number (R83). -/
theorem bendRaw14_toNat (l m : BitVec 7) : (bendRaw14 l m).toNat = 128 * m.toNat + l.toNat := by
  rw [bendRaw14, toNat_append_add]
  omega

/-- The bend offset is inside POW_ROM (R126). -/
theorem bendOffset_range (cfg : Config) (raw : BitVec 14) : 0 ≤ bendOffset cfg raw ∧ bendOffset cfg raw ≤ 16383 := by
  simp only [bendOffset, clamp]
  omega

/-- The 15 bits of a bend index hold its exact value (R21, R126). -/
theorem bendIndex_exact {x : Int} (h0 : 0 ≤ x) (h1 : x ≤ 16383) : (BitVec.ofInt 15 (x - 8192)).toInt = x - 8192 := by
  rw [BitVec.toInt_ofInt, Int.bmod_eq_of_le] <;> omega

/-- The reset values of a channel are coherent, for every BEND_RANGE (R23). -/
theorem channelInv_reset (cfg : Config) : ChannelInv cfg .reset := by
  have hcc : Channel.reset.cc[ccPan] = 64 := by decide
  have hoff : bendOffset cfg 8192 = 8192 := by simp [bendOffset, bendValue, clamp]
  constructor
  · rw [hcc]; decide +kernel
  · rw [hcc]; decide +kernel
  · show (0 : BitVec 15).toInt = bendOffset cfg 8192 - 8192
    rw [hoff]; decide
  · show (32768 : BitVec 16) = powRom 8192
    rw [powRom_unity]

/-- CONTROL_CHANGE leaves no stale pan coefficient (R22, R120, R121). -/
theorem channelInv_controlChange {cfg : Config} {ch : Channel} (h : ChannelInv cfg ch) (k v : BitVec 7) :
    ChannelInv cfg (controlChange k v ch) := by
  simp only [controlChange]
  split
  · exact ⟨rfl, rfl, h.bendIndex, h.bendMult⟩
  · rename_i hk
    have hne : (10 : BitVec 7) ≠ k := fun e => hk ((toFin_eq_ccPan k).2 e.symm)
    have hcc : (ch.setController k v).cc[ccPan] = ch.cc[ccPan] := setController_controller_other ch v hne
    exact ⟨by rw [hcc]; exact h.panLeft, by rw [hcc]; exact h.panRight, h.bendIndex, h.bendMult⟩

/-- PITCH_BEND leaves no stale bend value (R22, R125, R126). -/
theorem channelInv_pitchBend {cfg : Config} {ch : Channel} (h : ChannelInv cfg ch) (l m : BitVec 7) :
    ChannelInv cfg (pitchBend cfg l m ch) := by
  simp only [pitchBend]
  split
  · obtain ⟨h0, h1⟩ := bendOffset_range cfg (bendRaw14 l m)
    refine ⟨h.panLeft, h.panRight, bendIndex_exact h0 h1, ?_⟩
    simp only [bendUpdate]
    rw [bendIndex_exact h0 h1]
    congr 2
    omega
  · exact h

/-! ## Voices -/

/-- What a legal configuration says of the patch count (R7, R8). -/
theorem numPatches_pos {cfg : Config} (hl : cfg.legal = true) : 0 < cfg.numPatches := by
  obtain ⟨-, -, -, -, -, -, -, -, -, -, -, h, -⟩ := (legal_iff cfg).1 hl
  exact h

theorem patchIndex_toNat (cfg : Config) (p : BitVec 7) : (patchIndex cfg p).toNat = p.toNat % cfg.numPatches := by
  have hp := p.isLt
  have hm := Nat.mod_le p.toNat cfg.numPatches
  rw [patchIndex, BitVec.toNat_ofNat, Nat.mod_eq_of_lt (by omega)]

theorem voiceInv_atRest {cfg : Config} (hp : 0 < cfg.numPatches) : VoiceInv cfg .atRest := by
  constructor
  · intro; rfl
  · intro h; cases h
  · intro h; cases h
  · exact hp
  · intro h; cases h
  · intro h; cases h
  · intro h; cases h
  · simp [Voice.atRest, Envelope.atRest]
  · simp [Voice.atRest, Envelope.atRest]
  · intro; rfl

/-- NOTE_ON's writes to a voice at rest (R102). -/
theorem voiceInv_startVoice {cfg : Config} (hp : 0 < cfg.numPatches) (c : BitVec 4) (n v prog : BitVec 7) (hv : v ≠ 0) :
    VoiceInv cfg (startVoice cfg c n v (patchIndex cfg prog) .atRest) := by
  have hv' : 1 ≤ v.toNat := by
    have : v.toNat ≠ 0 := fun e => hv (BitVec.eq_of_toNat_eq e)
    omega
  constructor
  · intro h; cases h
  · intro; exact hv'
  · intro; simp [startVoice, gateOn]
  · show (patchIndex cfg prog).toNat < cfg.numPatches
    rw [patchIndex_toNat]; exact Nat.mod_lt _ hp
  · intro; rfl
  · intro; rfl
  · intro; simp [startVoice, gateOn]
  · simp [startVoice, gateOn, Voice.atRest, Envelope.atRest]
  · simp only [startVoice, Voice.atRest, Envelope.atRest, gateOn]
    split <;> simp
  · intro h
    have h' : (patchAt cfg (patchIndex cfg prog)).penvEn = false := h
    simp only [startVoice, h', Bool.false_eq_true, if_false]
    rfl

/-- A release (R105). -/
theorem voiceInv_releaseVoice {cfg : Config} {v : Voice} (h : VoiceInv cfg v) (hu : v.inUse = true) :
    VoiceInv cfg (releaseVoice v) := by
  constructor
  · intro h'; rw [show (releaseVoice v).inUse = v.inUse from rfl, hu] at h'; cases h'
  · intro; exact h.velocity hu
  · intro; simp [releaseVoice, gateOff]
  · exact h.patch
  · intro; exact h.penvEn hu
  · intro; exact h.base hu
  · intro; simp [releaseVoice, gateOff]
  · exact h.ampLevel
  · show (if v.penvEn then gateOff v.pitch else v.pitch).level.toNat ≤ envMax
    split <;> exact h.pitchLevel
  · intro h'
    have h'' : v.penvEn = false := h'
    simp only [releaseVoice, h'', Bool.false_eq_true, if_false]
    exact h.noPitch h''

/-- The envelope pass (R182). -/
theorem voiceInv_envelopePassVoice {cfg : Config} (hp : 0 < cfg.numPatches) {v : Voice} (h : VoiceInv cfg v) :
    VoiceInv cfg (envelopePassVoice cfg v) := by
  simp only [envelopePassVoice]
  split
  · rename_i hu
    split
    · rename_i ha
      have hne : (ampUpdate cfg (patchAt cfg v.patch) v.amp).phase ≠ .off := by simpa [envActive] using ha
      constructor
      · intro h'; simp only [hu] at h'; cases h'
      · intro; exact h.velocity hu
      · intro; exact hne
      · exact h.patch
      · intro; exact h.penvEn hu
      · intro; exact h.base hu
      · intro; exact (h.released hu).trans (envUpdate_release_iff _ _ _ _ _ _ hne).symm
      · exact envUpdate_level_le _ _ _ _ _ _ h.ampLevel
      · exact h.pitchLevel
      · exact h.noPitch
    · exact voiceInv_atRest hp
  · exact h

/-- A voice's block (R163, R185). -/
theorem voiceInv_block {cfg : Config} {v : Voice} (h : VoiceInv cfg v) (hu : v.inUse = true) (ch : Channel) (acc : Word) :
    VoiceInv cfg { modStep cfg ch v with phaseAcc := acc } := by
  constructor
  · intro h'; rw [show ({ modStep cfg ch v with phaseAcc := acc } : Voice).inUse = v.inUse from rfl, hu] at h'; cases h'
  · intro; exact h.velocity hu
  · intro; exact h.sounding hu
  · exact h.patch
  · intro; exact h.penvEn hu
  · intro; exact h.base hu
  · intro; exact h.released hu
  · exact h.ampLevel
  · show (advancePitch cfg v).level.toNat ≤ envMax
    simp only [advancePitch]
    split
    · exact envUpdate_level_le _ _ _ _ _ _ h.pitchLevel
    · exact h.pitchLevel
  · intro h'
    have h'' : v.penvEn = false := h'
    show advancePitch cfg v = .atRest
    simp only [advancePitch, h'', Bool.false_eq_true, if_false]
    exact h.noPitch h''

/-- The records of the engine's two files all satisfy their invariants. -/
structure FilesInv (s : State) : Prop where
  channel : ∀ c, ChannelInv s.cfg (s.channel c)
  voice : ∀ v ∈ s.voices, VoiceInv s.cfg v

theorem filesInv_setChannel {s : State} (h : FilesInv s) (c : BitVec 4) {ch : Channel} (hc : ChannelInv s.cfg ch) :
    FilesInv (s.setChannel c ch) := by
  refine ⟨fun c' => ?_, h.voice⟩
  by_cases hcc : c' = c
  · subst hcc; rw [setChannel_channel_same]; exact hc
  · rw [setChannel_channel_other _ _ hcc]; exact h.channel c'

/-- An element of a modified list is an old one or the changed one. -/
theorem mem_modify {vs : List Voice} {i : Nat} {f : Voice → Voice} {u : Voice} (h : u ∈ vs.modify i f) :
    u ∈ vs ∨ ∃ v, vs[i]? = some v ∧ u = f v := by
  obtain ⟨j, hj⟩ := List.mem_iff_getElem?.1 h
  rw [List.getElem?_modify] at hj
  cases hv : vs[j]? with
  | none => rw [hv] at hj; cases hj
  | some v =>
    rw [hv] at hj
    by_cases hij : i = j
    · subst hij
      simp only [if_true, Option.map_eq_map, Option.map_some, Option.some.injEq] at hj
      exact .inr ⟨v, hv, hj.symm⟩
    · simp only [hij, if_false, Option.map_eq_map, Option.map_some, Option.some.injEq] at hj
      subst hj
      exact .inl (List.mem_iff_getElem?.2 ⟨j, hv⟩)

theorem filesInv_noteOn {s : State} (hp : 0 < s.cfg.numPatches) (h : FilesInv s) (c : BitVec 4) (n v : BitVec 7) (hv : v ≠ 0) :
    FilesInv (noteOn c n v s) := by
  rcases noteOn_cases c n v s with e | ⟨i, old, hi, hu, e⟩ | ⟨i, old, hi, -, e⟩ <;> rw [e]
  · exact h
  · refine ⟨h.channel, fun u hu' => ?_⟩
    rcases mem_modify hu' with hm | ⟨w, hw, rfl⟩
    · exact h.voice u hm
    · rw [hi] at hw
      cases hw
      rw [(h.voice old (List.mem_iff_getElem?.2 ⟨i, hi⟩)).free hu]
      exact voiceInv_startVoice hp c n v _ hv
  · refine ⟨h.channel, fun u hu' => ?_⟩
    rcases mem_modify hu' with hm | ⟨w, hw, rfl⟩
    · rcases List.mem_or_eq_of_mem_set hm with hm | rfl
      · exact h.voice u hm
      · exact voiceInv_atRest hp
    · have hlt : i < s.voices.length := (List.getElem?_eq_some_iff.1 hi).1
      rw [List.getElem?_set_self hlt] at hw
      cases hw
      exact voiceInv_startVoice hp c n v _ hv

theorem filesInv_releaseNote {s : State} (h : FilesInv s) (c : BitVec 4) (n : BitVec 7) : FilesInv (releaseNote c n s) := by
  refine ⟨h.channel, fun u hu => ?_⟩
  obtain ⟨v, hv, rfl⟩ := List.mem_map.1 hu
  show VoiceInv s.cfg _
  split
  · rename_i hp
    refine voiceInv_releaseVoice (h.voice v hv) ?_
    simp only [plays, Bool.and_eq_true] at hp
    exact hp.1
  · exact h.voice v hv

/-- Every event keeps the records' invariants. -/
theorem filesInv_event {s t : State} (hp : 0 < s.cfg.numPatches) (h : FilesInv s) (w : EventWord)
    (he : exec (decodeEvent w) s = .next t) : FilesInv t := by
  rcases decodeEvent_cases w with e | e | e | ⟨c, n, v, e⟩ | ⟨c, n, e⟩ | ⟨c, n, v, hv, e⟩ | ⟨c, k, v, e⟩ | ⟨c, p, e⟩ | ⟨c, p, e⟩ |
    ⟨c, l, m, e⟩ <;> rw [e] at he <;> cases he
  · exact h
  · exact h
  · exact h
  · exact filesInv_releaseNote h c n
  · exact filesInv_releaseNote h c n
  · exact filesInv_noteOn hp h c n v hv
  · exact filesInv_setChannel h c (channelInv_controlChange (h.channel c) k v)
  · exact filesInv_setChannel h c ⟨(h.channel c).panLeft, (h.channel c).panRight, (h.channel c).bendIndex, (h.channel c).bendMult⟩
  · exact filesInv_setChannel h c ⟨(h.channel c).panLeft, (h.channel c).panRight, (h.channel c).bendIndex, (h.channel c).bendMult⟩
  · exact filesInv_setChannel h c (channelInv_pitchBend (h.channel c) l m)

/-- The drain keeps the records' invariants. -/
theorem filesInv_drain {s t : State} (hp : 0 < s.cfg.numPatches) (h : FilesInv s) {k : Nat} (hd : drain k s = .next t) :
    FilesInv t := by
  refine (drain_keeps (P := fun u => 0 < u.cfg.numPatches ∧ FilesInv u) ?_ ?_ k s t ⟨hp, h⟩ hd).2
  · exact fun u w q _ hu => ⟨hu.1, hu.2.channel, hu.2.voice⟩
  · intro w u u' hu he
    obtain ⟨u'', hu'', heng⟩ := exec_event_engineOnly w u
    rw [he] at hu''
    cases hu''
    exact ⟨by rw [heng.cfg]; exact hu.1, filesInv_event hu.1 hu.2 w he⟩

/-- The block keeps the records' invariants. -/
theorem filesInv_renderBlock {s : State} (hp : 0 < s.cfg.numPatches) (h : FilesInv s) (n : Nat) :
    FilesInv (renderBlock n s) := by
  refine ⟨h.channel, fun u hu => ?_⟩
  rw [renderBlock_voices] at hu
  obtain ⟨v, hv, rfl⟩ := List.mem_map.1 hu
  obtain ⟨v', hv', rfl⟩ := List.mem_map.1 hv
  have hi := voiceInv_envelopePassVoice hp (h.voice v' hv')
  show VoiceInv s.cfg _
  split
  · rename_i hu'; exact voiceInv_block hi hu' _ _
  · exact hi

/-- A reset establishes the records' invariants. -/
theorem filesInv_resetCore {s : State} (hp : 0 < s.cfg.numPatches) : FilesInv (resetCore s) := by
  constructor
  · intro c
    have : (resetCore s).channel c = .reset := by simp [State.channel, resetCore]
    rw [this]
    exact channelInv_reset _
  · intro v hv
    have : v = .atRest := List.eq_of_mem_replicate hv
    rw [this]
    exact voiceInv_atRest hp

end Sys2Proof.Machine
end

