-- ==== Sys2Proof/Laws/PerInstr.lean ====
section
/-! SUPPORT. Statements made per instruction, one lemma per constructor: what the encoder writes for a well-formed command is
something the CORE can be given, an event word or a host access that the window admits. -/

namespace Sys2Proof.Laws.EncodesAdmissible

/-- For every place of the window: a well-formed command's encoding is an event word, or a 32-bit access to an aligned offset
of the window (R65, R80, R86). -/
def Statement (i : Instr) : Prop :=
  ∀ base : Nat, i.wellFormed = true →
    (∃ w, encode base i = .event w) ∨
    ∃ off w, off < windowBytes ∧ off % 4 = 0 ∧
      (encode base i = .access (readAccess base off) ∨ encode base i = .access (writeAccess base off w))

theorem nonStatus : Statement .nonStatus := fun _ _ => .inl ⟨_, rfl⟩
theorem noteOff (c : BitVec 4) (n v : BitVec 7) : Statement (.noteOff c n v) := fun _ _ => .inl ⟨_, rfl⟩
theorem noteOnV0 (c : BitVec 4) (n : BitVec 7) : Statement (.noteOnV0 c n) := fun _ _ => .inl ⟨_, rfl⟩
theorem noteOn (c : BitVec 4) (n v : BitVec 7) : Statement (.noteOn c n v) := fun _ _ => .inl ⟨_, rfl⟩
theorem polyPressure : Statement .polyPressure := fun _ _ => .inl ⟨_, rfl⟩
theorem controlChange (c : BitVec 4) (k v : BitVec 7) : Statement (.controlChange c k v) := fun _ _ => .inl ⟨_, rfl⟩
theorem programChange (c : BitVec 4) (p : BitVec 7) : Statement (.programChange c p) := fun _ _ => .inl ⟨_, rfl⟩
theorem channelPressure (c : BitVec 4) (p : BitVec 7) : Statement (.channelPressure c p) := fun _ _ => .inl ⟨_, rfl⟩
theorem pitchBend (c : BitVec 4) (l m : BitVec 7) : Statement (.pitchBend c l m) := fun _ _ => .inl ⟨_, rfl⟩
theorem system : Statement .system := fun _ _ => .inl ⟨_, rfl⟩

theorem eventWr (e : EventWord) : Statement (.eventWr e) :=
  fun _ _ => .inr ⟨_, _, by decide, by decide, .inr rfl⟩
theorem eventRd : Statement .eventRd := fun _ _ => .inr ⟨_, 0, by decide, by decide, .inl rfl⟩
theorem renderWr (frames : BitVec 16) : Statement (.renderWr frames) :=
  fun _ _ => .inr ⟨_, _, by decide, by decide, .inr rfl⟩
theorem renderRd : Statement .renderRd := fun _ _ => .inr ⟨_, 0, by decide, by decide, .inl rfl⟩
theorem statusRd : Statement .statusRd := fun _ _ => .inr ⟨_, 0, by decide, by decide, .inl rfl⟩
theorem statusWr (d e r : Bool) : Statement (.statusWr d e r) :=
  fun _ _ => .inr ⟨_, _, by decide, by decide, .inr rfl⟩
theorem ctrlRd : Statement .ctrlRd := fun _ _ => .inr ⟨_, 0, by decide, by decide, .inl rfl⟩
theorem ctrlWr (ie : Bool) : Statement (.ctrlWr ie) :=
  fun _ _ => .inr ⟨_, _, by decide, by decide, .inr rfl⟩

theorem voiceStatRd (i : BitVec 8) (word1 : Bool) : Statement (.voiceStatRd i word1) := by
  intro base _
  have hi := i.isLt
  have hw : word1.toNat ≤ 1 := by cases word1 <;> decide
  refine .inr ⟨_, 0, ?_, ?_, .inl rfl⟩ <;> simp only [offVoiceStat, windowBytes] <;> omega

theorem outbufRd (k : BitVec 10) : Statement (.outbufRd k) := by
  intro base _
  have hk := k.isLt
  refine .inr ⟨_, 0, ?_, ?_, .inl rfl⟩ <;> simp only [offOutbuf, windowBytes] <;> omega

theorem outbufWr (k : BitVec 10) (w : Word) : Statement (.outbufWr k w) := by
  intro base _
  have hk := k.isLt
  refine .inr ⟨_, _, ?_, ?_, .inr rfl⟩ <;> simp only [offOutbuf, windowBytes] <;> omega

theorem reservedRd (off : BitVec 13) : Statement (.reservedRd off) := by
  intro base h
  simp only [Instr.wellFormed, ReservedRead, decide_eq_true_eq] at h
  refine .inr ⟨_, 0, ?_, h.1, .inl rfl⟩
  simp only [windowBytes]
  omega

theorem reservedWr (off : BitVec 13) : Statement (.reservedWr off) := by
  intro base h
  simp only [Instr.wellFormed, ReservedWrite, decide_eq_true_eq] at h
  refine .inr ⟨_, _, ?_, h.1, .inr rfl⟩
  simp only [windowBytes]
  omega

end Sys2Proof.Laws.EncodesAdmissible
end

