-- ==== Sys2Proof/Laws/Waves.lean ====
section
/-! SUPPORT. The waveforms of the reference WAVE_ROM (R30): their lengths and entries, and how near the sines of the multiples
of an angle are to the powers of a Gaussian integer, which makes the sine table's rounding a comparison of integers. -/

namespace Sys2Proof

@[simp] theorem sawWave_length (n : Nat) : (sawWave n).length = n := by simp [sawWave]
@[simp] theorem squareWave_length (n : Nat) : (squareWave n).length = n := by simp [squareWave]
@[simp] theorem triangleWave_length (n : Nat) : (triangleWave n).length = n := by simp [triangleWave]
theorem sineWave_length : sineWave.length = 256 := by decide +kernel

theorem sawWave_getD {n k : Nat} (hk : k < n) :
    (sawWave n).getD k 0 = BitVec.ofInt 16 (-32768 + ((k * 65536 / n : Nat) : Int)) := by
  simp [sawWave, List.getD_eq_getElem?_getD, hk]

theorem squareWave_getD {n k : Nat} (hk : k < n) :
    (squareWave n).getD k 0 = BitVec.ofInt 16 (if k < n / 2 then 32767 else -32768) := by
  simp only [squareWave, List.getD_eq_getElem?_getD, List.getElem?_map, List.getElem?_range hk, Option.map_some,
    Option.getD_some]
  split <;> rfl

theorem triangleWave_getD {n k : Nat} (hk : k < n) :
    (triangleWave n).getD k 0 = BitVec.ofInt 16 (if k < n / 2 then -32768 + ((k * 131072 / n : Nat) : Int)
      else 32767 - (((k - n / 2) * 131072 / n : Nat) : Int)) := by
  simp only [triangleWave, List.getD_eq_getElem?_getD, List.getElem?_map, List.getElem?_range hk, Option.map_some,
    Option.getD_some]
  split <;> rfl

/-- Powers of two numbers of the unit disc are no further apart than the exponent times the numbers' distance. -/
theorem norm_pow_sub_pow_le (z w : ℂ) (hz : ‖z‖ ≤ 1) (hw : ‖w‖ ≤ 1) (k : Nat) : ‖z ^ k - w ^ k‖ ≤ k * ‖z - w‖ := by
  induction k with
  | zero => simp
  | succ k ih =>
    have h : z ^ (k + 1) - w ^ (k + 1) = (z ^ k - w ^ k) * z + w ^ k * (z - w) := by ring
    calc ‖z ^ (k + 1) - w ^ (k + 1)‖ ≤ ‖z ^ k - w ^ k‖ * ‖z‖ + ‖w‖ ^ k * ‖z - w‖ := by
          rw [h]; exact (norm_add_le _ _).trans_eq (by rw [norm_mul, norm_mul, norm_pow])
      _ ≤ ‖z ^ k - w ^ k‖ * 1 + 1 * ‖z - w‖ := by gcongr; exact pow_le_one₀ (norm_nonneg _) hw
      _ ≤ (k + 1 : Nat) * ‖z - w‖ := by push_cast; linarith

/-- The product of two Gaussian integers, each as its real and imaginary parts. -/
def gaussMul (z w : Int × Int) : Int × Int := (z.1 * w.1 - z.2 * w.2, z.1 * w.2 + z.2 * w.1)

/-- The Gaussian integer c + s·i to the power k. -/
def gaussPow (c s : Int) : Nat → Int × Int
  | 0 => (1, 0)
  | k + 1 => gaussMul (gaussPow c s k) (c, s)

/-- A power of a rational point of the plane is the power of its numerators over that of its denominator. -/
theorem gaussPow_eq (c s : Int) (d : ℝ) (hd : d ≠ 0) (k : Nat) :
    (⟨c / d, s / d⟩ : ℂ) ^ k = ⟨(gaussPow c s k).1 / d ^ k, (gaussPow c s k).2 / d ^ k⟩ := by
  induction k with
  | zero => apply Complex.ext <;> simp [gaussPow]
  | succ k ih =>
    rw [pow_succ, ih]
    apply Complex.ext <;> simp only [Complex.mul_re, Complex.mul_im, gaussPow, gaussMul] <;> push_cast <;> field_simp <;> ring

/-- The sine of a multiple of an angle, from a rational point of the unit disc close to the angle's. -/
theorem sin_mul_close (θ d e : ℝ) (c s : Int) (hd : d ≠ 0) (hw : ((c : ℝ) / d) ^ 2 + (s / d) ^ 2 ≤ 1)
    (hc : |Real.cos θ - c / d| ≤ e) (hs : |Real.sin θ - s / d| ≤ e) (k : Nat) :
    |Real.sin (k * θ) - (gaussPow c s k).2 / d ^ k| ≤ k * (2 * e) := by
  have hz : ‖Complex.exp (θ * Complex.I)‖ ≤ 1 := (Complex.norm_exp_ofReal_mul_I θ).le
  have hw' : ‖(⟨c / d, s / d⟩ : ℂ)‖ ≤ 1 := by
    rw [← sq_le_one_iff₀ (norm_nonneg _), ← Complex.normSq_eq_norm_sq, Complex.normSq_mk]
    linarith
  have hp := norm_pow_sub_pow_le _ _ hz hw' k
  have hzk : Complex.exp (θ * Complex.I) ^ k = Complex.exp (((k * θ : ℝ) : ℂ) * Complex.I) := by
    rw [← Complex.exp_nat_mul]; congr 1; push_cast; ring
  have him := (Complex.abs_im_le_norm (Complex.exp (θ * Complex.I) ^ k - (⟨c / d, s / d⟩ : ℂ) ^ k)).trans hp
  rw [hzk, gaussPow_eq c s d hd, Complex.sub_im, Complex.exp_ofReal_mul_I_im] at him
  refine him.trans (mul_le_mul_of_nonneg_left ?_ (Nat.cast_nonneg k))
  refine (Complex.norm_le_abs_re_add_abs_im _).trans ?_
  rw [Complex.sub_re, Complex.sub_im, Complex.exp_ofReal_mul_I_re, Complex.exp_ofReal_mul_I_im]
  show |Real.cos θ - c / d| + |Real.sin θ - s / d| ≤ 2 * e
  linarith

/-- The point of the unit circle at π/128, in units of 2^-40, rounded down. -/
theorem cos_sin_pi_div_128 :
    |Real.cos (Real.pi / 128) - 1099180475430 / 2 ^ 40| ≤ 1 / 2 ^ 40 ∧
    |Real.sin (Real.pi / 128) - 26983366120 / 2 ^ 40| ≤ 1 / 2 ^ 40 := by
  have hc := Real.cos_pi_over_two_pow 6
  have hs := Real.sin_pi_over_two_pow_succ 5
  norm_num [Real.sqrtTwoAddSeries] at hc hs
  have hc' : √(2 + √(2 + √(2 + √(2 + √(2 + √2))))) = 2 * Real.cos (Real.pi / 128) := by rw [hc]; ring
  have hs' : √(2 - √(2 + √(2 + √(2 + √(2 + √2))))) = 2 * Real.sin (Real.pi / 128) := by rw [hs]; ring
  have up : ∀ x l u : ℝ, 0 < l → 0 ≤ u → l ^ 2 ≤ x → x ≤ u ^ 2 → l ≤ √x ∧ √x ≤ u := fun x l u hl hu h1 h2 =>
    ⟨Real.le_sqrt_of_sq_le h1, Real.sqrt_le_iff.2 ⟨hu, h2⟩⟩
  have h0 := up 2 (1414213562373095048 / 10 ^ 18) (1414213562373095050 / 10 ^ 18)
    (by norm_num) (by norm_num) (by norm_num) (by norm_num)
  have h1 := up (2 + √2) (1847759065022573510 / 10 ^ 18) (1847759065022573514 / 10 ^ 18)
    (by norm_num) (by norm_num) (by linarith [h0.1]) (by linarith [h0.2])
  have h2 := up (2 + √(2 + √2)) (1961570560806460896 / 10 ^ 18) (1961570560806460900 / 10 ^ 18)
    (by norm_num) (by norm_num) (by linarith [h1.1]) (by linarith [h1.2])
  have h3 := up (2 + √(2 + √(2 + √2))) (1990369453344393770 / 10 ^ 18) (1990369453344393774 / 10 ^ 18)
    (by norm_num) (by norm_num) (by linarith [h2.1]) (by linarith [h2.2])
  have h4 := up (2 + √(2 + √(2 + √(2 + √2)))) (1997590912410344783 / 10 ^ 18) (1997590912410344787 / 10 ^ 18)
    (by norm_num) (by norm_num) (by linarith [h3.1]) (by linarith [h3.2])
  have hC := up (2 + √(2 + √(2 + √(2 + √(2 + √2))))) (2 * 1099180475430 / 2 ^ 40) (2 * 1099180475431 / 2 ^ 40)
    (by norm_num) (by norm_num) (by linarith [h4.1]) (by linarith [h4.2])
  have hS := up (2 - √(2 + √(2 + √(2 + √(2 + √2))))) (2 * 26983366120 / 2 ^ 40) (2 * 26983366121 / 2 ^ 40)
    (by norm_num) (by norm_num) (by linarith [h4.2]) (by linarith [h4.1])
  rw [hc'] at hC
  rw [hs'] at hS
  rw [abs_le, abs_le]
  refine ⟨⟨?_, ?_⟩, ?_, ?_⟩ <;> linarith [hC.1, hC.2, hS.1, hS.2]

end Sys2Proof
end

