-- ==== Sys2Proof/Tests/Slice0.lean ====
section
/-! SUPPORT. The model's own tests: the checks of well-formedness, one written-out word for each command, one step on a small
state for each command, with the values of spec/95_test_vectors.md, and for every statement with hypotheses concrete data
that meets them. -/

namespace Sys2Proof.Tests

open Sys2Proof.Machine

/-! ## Small states -/

/-- What a next state has, nothing where the step stops. -/
def seen {α : Type} (o : Result) (f : State → α) : Option α :=
  match o with
  | .next t => some (f t)
  | .fault _ => none
  | .refused _ => none

/-- This hardware with two voices and a FIFO of two entries. -/
def smallCfg : Config := { Config.reference with numVoices := 2, evqDepth := 2 }

/-- The voice that NOTE_ON 0,69,100 starts, after one envelope pass (95_test_vectors.md section 2.2). -/
def sounding : Voice where
  inUse := true
  releasable := false
  note := 69
  velocity := 100
  channel := 0
  patch := 0
  penvEn := false
  amp := ⟨.attack, 512⟩
  pitch := .atRest
  phaseAcc := 0
  phaseStepBase := 42852281
  phaseStepCurrent := 42852281
  vibPhase := 0

/-- That voice released, at a level that one more block of its release ends. -/
def fading : Voice := { sounding with releasable := true, amp := ⟨.release, 128⟩ }

/-- Two voices at given records, the rest as after reset. -/
def two (v w : Voice) : State := { State.reset with cfg := smallCfg, voices := [v, w] }

/-- A render of `n` frames accepted, draining `evs`, and the CORE's turn next. -/
def rendering (s : State) (evs : List EventWord) (n : Nat) : State :=
  { s with queue := evs, busy := true, pendingK := evs.length, pendingN := n, agenda := [.core] }

/-- The first two words of OUTBUF are 0. -/
def cleared (s : State) : State := { s with outbuf := outWrite (outWrite [] 0 0) 1 0 }

/-- A configuration with everything else as after reset. -/
def withCfg (cfg : Config) : State := { State.reset with cfg := cfg }

/-! ## Well-formedness -/

theorem test_wf_noteOn_needs_a_velocity : (Instr.noteOn 3 60 0).wellFormed = false := by decide
theorem test_wf_reservedRd_not_event : (Instr.reservedRd 0x0000).wellFormed = false := by decide
theorem test_wf_reservedRd_aligned : (Instr.reservedRd 0x0011).wellFormed = false := by decide
theorem test_wf_reservedRd_not_voiceStat : (Instr.reservedRd 0x08FC).wellFormed = false := by decide
theorem test_wf_reservedRd_not_outbuf : (Instr.reservedRd 0x1000).wellFormed = false := by decide
theorem test_wf_reservedWr_not_ctrl : (Instr.reservedWr 0x000C).wellFormed = false := by decide
theorem test_wf_reservedWr_aligned : (Instr.reservedWr 0x0102).wellFormed = false := by decide
theorem test_wf_reservedWr_not_outbuf : (Instr.reservedWr 0x1FFC).wellFormed = false := by decide

/-! ## Decoding: words written out from R80, R82, R86 and the opcode table; event words are those of 95_test_vectors.md
section 2.1 -/

theorem test_decode_nonStatus : decodeEvent 0b011111110100010101100100 = .nonStatus := by decide
theorem test_decode_noteOff : decodeEvent 0b100000000100010101000000 = .noteOff 0 69 64 := by decide
theorem test_decode_noteOnV0 : decodeEvent 0b100100001000000000000000 = .noteOnV0 0 0 := by decide
theorem test_decode_noteOnV0_ignores_bit7 : decodeEvent 0b100100000100010110000000 = .noteOnV0 0 69 := by decide
theorem test_decode_noteOn : decodeEvent 0b100100000100010101100100 = .noteOn 0 69 100 := by decide
theorem test_decode_polyPressure : decodeEvent 0b101000000100010100110010 = .polyPressure := by decide
theorem test_decode_controlChange : decodeEvent 0b101100000000101000000000 = .controlChange 0 10 0 := by decide
theorem test_decode_programChange : decodeEvent 0b110000000000010100000000 = .programChange 0 5 := by decide
theorem test_decode_channelPressure : decodeEvent 0b110100110101101000000000 = .channelPressure 3 90 := by decide
theorem test_decode_pitchBend : decodeEvent 0b111000000111100100111111 = .pitchBend 0 121 63 := by decide
theorem test_decode_system : decodeEvent 0b111110000000000000000000 = .system := by decide
theorem test_decode_eventWr :
    decodeAccess 0x8000 ⟨0x8000, 32, .write, 0xFF90C5E4⟩ = .ok (.eventWr 0x90C5E4) := by decide
theorem test_decode_eventRd : decodeAccess 0x8000 ⟨0x8000, 32, .read, 0⟩ = .ok .eventRd := by decide
theorem test_decode_renderWr :
    decodeAccess 0x8000 ⟨0x8004, 32, .write, 0xABCD0100⟩ = .ok (.renderWr 256) := by decide
theorem test_decode_renderRd : decodeAccess 0x8000 ⟨0x8004, 32, .read, 0⟩ = .ok .renderRd := by decide
theorem test_decode_statusRd : decodeAccess 0x8000 ⟨0x8008, 32, .read, 0⟩ = .ok .statusRd := by decide
theorem test_decode_statusWr :
    decodeAccess 0x8000 ⟨0x8008, 32, .write, 0b1011⟩ = .ok (.statusWr true false true) := by decide
theorem test_decode_ctrlRd : decodeAccess 0x8000 ⟨0x800C, 32, .read, 0⟩ = .ok .ctrlRd := by decide
theorem test_decode_ctrlWr : decodeAccess 0x8000 ⟨0x800C, 32, .write, 0xFFFFFFFE⟩ = .ok (.ctrlWr false) := by decide
theorem test_decode_voiceStatRd_first :
    decodeAccess 0x8000 ⟨0x8100, 32, .read, 0⟩ = .ok (.voiceStatRd 0 false) := by decide
theorem test_decode_voiceStatRd_last :
    decodeAccess 0x8000 ⟨0x88FC, 32, .read, 0⟩ = .ok (.voiceStatRd 255 true) := by decide
theorem test_decode_outbufRd : decodeAccess 0x8000 ⟨0x9FFC, 32, .read, 0⟩ = .ok (.outbufRd 1023) := by decide
theorem test_decode_outbufWr :
    decodeAccess 0x8000 ⟨0x9004, 32, .write, 0x12345678⟩ = .ok (.outbufWr 1 0x12345678) := by decide
theorem test_decode_reservedRd : decodeAccess 0x8000 ⟨0x8010, 32, .read, 0⟩ = .ok (.reservedRd 0x0010) := by decide
theorem test_decode_reservedWr :
    decodeAccess 0x8000 ⟨0x8100, 32, .write, 7⟩ = .ok (.reservedWr 0x0100) := by decide
theorem test_decode_refuses_misaligned : decodeAccess 0x8000 ⟨0x8002, 32, .read, 0⟩ = .error .misaligned := by decide
theorem test_decode_refuses_halfword : decodeAccess 0x8000 ⟨0x8000, 16, .write, 0⟩ = .error .notWord := by decide
theorem test_decode_refuses_outside : decodeAccess 0x8000 ⟨0xA000, 32, .read, 0⟩ = .error .outsideWindow := by decide

/-- The table's rows: an event row's 24 bits, and host-access rows' offsets (spec/opcode_table.json). -/
theorem test_decodeTableWord :
    decodeTableWord 24 0xC00500 = some (.programChange 0 5) ∧ decodeTableWord 16 0x0008 = some (.statusWr false false false) ∧
    decodeTableWord 16 0x000D = some (.ctrlWr true) ∧ decodeTableWord 16 0x10008 = some .statusRd ∧
    decodeTableWord 16 0x0100 = some (.voiceStatRd 0 false) ∧ decodeTableWord 16 0x10100 = some (.reservedWr 0x0100) := by decide

/-! ## ROMs (R30 to R34; 95_test_vectors.md sections 2.3, 2.5 and 2.6) -/

theorem test_rom_pan : panRom 1 = 11 ∧ panRom 63 = 89 ∧ panRom 64 = 90 ∧ panRom 100 = 113 ∧ panRom 127 = 127 := by
  decide +kernel
theorem test_rom_note : noteRom 44100 60 = 25480119 ∧ noteRom 44100 67 = 38177043 ∧ noteRom 44100 69 = 42852281 := by
  decide +kernel
theorem test_rom_pow : powRom 0 = 16384 ∧ powRom 8193 = 32771 ∧ powRom 8191 = 32765 ∧ powRom 9557 = 36780 ∧
    powRom 16383 = 65530 := by decide +kernel
theorem test_rom_waves : (([0, 1, 2, 64, 128, 192, 255].map fun k => (sineWave.getD k 0).toInt) =
      [0, 804, 1608, 32767, 0, -32767, -804]) ∧
    (([0, 1, 64, 127, 128, 129, 192, 255].map fun k => ((triangleWave 256).getD k 0).toInt) =
      [-32768, -32256, 0, 32256, 32767, 32255, -1, -32257]) := by decide +kernel

/-! ## One step for each command (95_test_vectors.md, the section named) -/

/-- Section 2.1: no change; the word is consumed and the render completes. -/
theorem test_nonStatus :
    seen (step (State.reset.withFetchWord 24 0x7F4564)) (fun t => (t.queue, t.voiceStat 0 false, t.statusWord)) =
      some ([], 0, 0x00000022) := by decide +kernel

/-- Section 2.2: released in the drain, level 384 after the pass. -/
theorem test_noteOff_then_block :
    seen (step (rendering (two sounding .atRest) [0x804500] 0)) (fun t => (t.voiceStat 0 false, t.voiceStat 0 true)) =
      some (0x64004513, 0x00000180) := by decide +kernel
/-- Section 2.2: no voice on channel 5. -/
theorem test_noteOff_other_channel : seen (exec (.noteOff 5 69 0) (two sounding sounding)) (fun t => t.voices) =
    some [sounding, sounding] := by decide

/-- R101: a note-on with velocity 0 is a note-off; every matching voice is released. -/
theorem test_noteOnV0 : seen (exec (.noteOnV0 0 69) (two sounding sounding)) (fun t => t.voices.map (·.amp)) =
    some [⟨.release, 512⟩, ⟨.release, 512⟩] := by decide

/-- Section 2.1, the second row: VOICE_STAT0[0] after one render from reset. -/
theorem test_noteOn_from_reset :
    seen (step (State.reset.withFetchWord 24 0x90C5E4)) (fun t => (t.voiceStat 0 false, t.voiceStat 0 true)) =
      some (0x64004505, 0x00000200) := by decide +kernel
/-- Program P2: the new note steals the releasable voice 1 and starts it afresh; its step is NOTE_ROM[67]. -/
theorem test_noteOn_steals :
    seen (exec (.noteOn 0 67 100) (two sounding fading)) (fun t => t.voices.map fun v => (v.note, v.amp, v.phaseStepBase)) =
      some [(69, ⟨.attack, 512⟩, 42852281), (67, ⟨.attack, 0⟩, 38177043)] := by decide +kernel

/-- Section 2.1. -/
theorem test_polyPressure :
    seen (step (State.reset.withFetchWord 24 0xA04532)) (fun t => (t.queue, t.voiceStat 0 false, t.statusWord)) =
      some ([], 0, 0x00000022) := by decide +kernel

/-- Section 2.3: pan 100. -/
theorem test_controlChange_pan :
    seen (exec (.controlChange 2 10 100) State.reset) (fun t => ((t.channel 2).panLeft, (t.channel 2).panRight)) =
      some (59, 113) := by decide +kernel
/-- Section 2.3: the sustain pedal is stored and has no other effect. -/
theorem test_controlChange_pedal :
    seen (exec (.controlChange 0 64 127) State.reset)
      (fun t => ((t.channel 0).controller 64, (t.channel 0).panLeft, t.channel 1 == .reset)) = some (127, 89, true) := by
  decide +kernel

/-- Section 2.2: program 5 is patch 5 mod 4 = 1 at the note-on; the first block's level is 2032. -/
theorem test_programChange_then_noteOn :
    seen (step (rendering (two .atRest .atRest) [0xC00500, 0x904564] 0))
      (fun t => ((t.channel 0).program, t.voices.map (·.patch), t.voiceStat 0 true)) =
      some (5, [1, 0], 2032) := by decide +kernel

/-- Section 2.1. -/
theorem test_channelPressure :
    seen (step (State.reset.withFetchWord 24 0xD35A00)) (fun t => (t.channel 3).pressure) = some 90 := by decide +kernel

/-- Section 2.3: the full upward bend. -/
theorem test_pitchBend_up :
    seen (exec (.pitchBend 0 127 127) State.reset) (fun t => ((t.channel 0).bendIndex.toInt, (t.channel 0).bendMult)) =
      some (1365, 36780) := by decide +kernel
/-- Section 2.3: the division rounds toward zero. -/
theorem test_pitchBend_toward_zero :
    seen (exec (.pitchBend 0 0x79 0x3F) State.reset) (fun t => ((t.channel 0).bendIndex.toInt, (t.channel 0).bendMult)) =
      some (-1, 32765) := by decide +kernel

/-- Section 2.1. -/
theorem test_system :
    seen (step (State.reset.withFetchWord 24 0xF80000)) (fun t => (t.queue, t.voiceStat 0 false, t.statusWord)) =
      some ([], 0, 0x00000022) := by decide +kernel

/-- Section 2.7: STATUS 00000100 after the write. -/
theorem test_eventWr : seen (exec (.eventWr 0x904564) State.reset) (fun t => t.statusWord) = some 0x00000100 := by
  decide +kernel
/-- Program P4: at a full FIFO the event is dropped, STATUS 00000214. -/
theorem test_eventWr_full :
    seen (exec (.eventWr 0x904864) { withCfg smallCfg with queue := [0x904564, 0x904764] }) (fun t => t.statusWord) =
      some 0x00000214 := by decide +kernel

/-- Section 2.7. -/
theorem test_eventRd : seen (exec .eventRd { State.reset with hostData := 5 }) (fun t => t.hostData) = some 0 := by decide

/-- Section 2.7: STATUS 00000101. -/
theorem test_renderWr :
    seen (exec (.renderWr 256) { State.reset with queue := [0x904564] }) (fun t => (t.statusWord, t.pendingK, t.pendingN)) =
      some (0x00000101, 1, 256) := by decide +kernel
/-- Program P4: a render while busy is ignored, STATUS 0000021D. -/
theorem test_renderWr_busy :
    seen (exec (.renderWr 16) { rendering (withCfg smallCfg) [0x904564, 0x904764] 0 with evovf := true })
      (fun t => (t.statusWord, t.pendingN)) = some (0x0000021D, 0) := by decide +kernel

/-- Section 2.7. -/
theorem test_renderRd : seen (exec .renderRd { State.reset with hostData := 5 }) (fun t => t.hostData) = some 0 := by decide

/-- Section 2.7: the STATUS of reset. -/
theorem test_statusRd : seen (exec .statusRd State.reset) (fun t => t.hostData) = some 0x00000020 := by decide +kernel

/-- Program P4: ACK takes STATUS from 0000002E to 00000020. -/
theorem test_statusWr :
    seen (exec (.statusWr true true true) { State.reset with done := true, evovf := true, rnovr := true })
      (fun t => t.statusWord) = some 0x00000020 := by decide +kernel
/-- R202: a 0 leaves its bit. -/
theorem test_statusWr_partly :
    seen (exec (.statusWr false true false) { State.reset with done := true, evovf := true, rnovr := true })
      (fun t => t.statusWord) = some 0x0000002A := by decide +kernel

/-- Section 2.7. -/
theorem test_ctrlRd : seen (exec .ctrlRd { State.reset with ie := true }) (fun t => t.hostData) = some 1 := by decide
/-- Program P4: with IE set, irq is DONE. -/
theorem test_ctrlWr : seen (exec (.ctrlWr true) { State.reset with done := true }) (fun t => (t.ie, t.irq)) =
    some (true, true) := by decide

/-- Program P5: VOICE_STAT0 and VOICE_STAT1 of the first block. -/
theorem test_voiceStatRd :
    seen (exec (.voiceStatRd 0 false)
        (two { sounding with note := 60, patch := 2, penvEn := true, pitch := ⟨.attack, 0x07F0⟩, amp := ⟨.attack, 0x0400⟩ } .atRest))
      (fun t => (t.hostData, t.voiceStat 0 true)) = some (0x64103C25, 0x07F00400) := by decide
/-- Section 2.7: an absent voice. -/
theorem test_voiceStatRd_absent :
    seen (exec (.voiceStatRd 40 false) { State.reset with hostData := 5 }) (fun t => t.hostData) = some 0 := by decide

/-- R206: the word written is read. -/
theorem test_outbufRd : seen (exec (.outbufRd 1) (State.reset.setOutbuf (outWrite [] 1 0x80000001))) (fun t => t.hostData) =
    some 0x80000001 := by decide
/-- R62: above the buffer. -/
theorem test_outbufRd_above : seen (exec (.outbufRd 512) { State.reset with hostData := 5 }) (fun t => t.hostData) = some 0 := by
  decide
/-- R64: little-endian. -/
theorem test_outbufWr : seen (exec (.outbufWr 511 0x12345678) State.reset) (fun t => t.outbuf) =
    some [(0x17FC, 0x78), (0x17FD, 0x56), (0x17FE, 0x34), (0x17FF, 0x12)] := by decide
/-- R62: above the buffer. -/
theorem test_outbufWr_above : seen (exec (.outbufWr 1023 0x12345678) State.reset) (fun t => t.outbuf) = some [] := by decide

/-- R62. -/
theorem test_reservedRd : seen (exec (.reservedRd 0x0010) { State.reset with hostData := 5 }) (fun t => t.hostData) =
    some 0 := by decide
/-- R61, R62: VOICE_STAT is read-only. -/
theorem test_reservedWr :
    seen (step ((two sounding fading).setAgenda [.host ⟨0x0100, 32, .write, 0⟩])) (fun t => (t.voices, t.statusWord)) =
      some ([sounding, fading], 0x00000020) := by decide +kernel

/-! ## The render (95_test_vectors.md) -/

/-- Section 2.2: the saw voice's first frame after CLEAR. -/
theorem test_render_saw :
    seen (step (rendering (cleared (two .atRest .atRest)) [0xC00500, 0x904564] 1))
      (fun t => ((t.outWord 0).toInt, (t.outWord 1).toInt, t.statusWord)) = some (-86016, -86912, 0x00000022) := by decide +kernel
/-- Program P1, render 5: the voice is freed in the envelope pass. -/
theorem test_render_frees :
    seen (step (rendering (two fading .atRest) [] 0)) (fun t => t.voices) = some [.atRest, .atRest] := by decide +kernel
/-- Program P3: the bent step. -/
theorem test_render_bend :
    seen (step (rendering (two .atRest .atRest) [0xE07F7F, 0x90457F] 0)) (fun t => t.voices.map (·.phaseStepCurrent)) =
      some [48098965, 0] := by decide +kernel
/-- Program P6, block 2: the vibrato index is 196. -/
theorem test_modStep_vibrato :
    (modStep .reference (Channel.reset.setController 1 127) { sounding with patch := 3, vibPhase := 134217728 }).phaseStepCurrent =
      43568926 := by decide +kernel
/-- Program P5, block 1: the pitch-envelope index is 254. -/
theorem test_modStep_pitch :
    (modStep .reference .reset { sounding with patch := 2, penvEn := true, pitch := ⟨.attack, 0⟩, phaseStepBase := 25480119 }).phaseStepCurrent =
      26033764 := by decide +kernel

/-! ## Witnesses: concrete data that meet the hypotheses of each statement, clause by clause -/

/-- EventRowsFollowTheOpcodeMap: one word at an edge of each row. -/
theorem witness_EventRowsFollowTheOpcodeMap :
    0x7FFFFF#24 &&& 0x800000#24 = 0x000000#24 ∧ 0x8FFFFF#24 &&& 0xF00000#24 = 0x800000#24 ∧
    0x9FFF80#24 &&& 0xF0007F#24 = 0x900000#24 ∧
    (0x900001#24 &&& 0xF00000#24 = 0x900000#24 ∧ (0x900001#24).extractLsb' 0 7 ≠ 0#7) ∧
    0xA00000#24 &&& 0xF00000#24 = 0xA00000#24 ∧ 0xBFFFFF#24 &&& 0xF00000#24 = 0xB00000#24 ∧
    0xC00000#24 &&& 0xF00000#24 = 0xC00000#24 ∧ 0xDFFFFF#24 &&& 0xF00000#24 = 0xD00000#24 ∧
    0xE00000#24 &&& 0xF00000#24 = 0xE00000#24 ∧ 0xFFFFFF#24 &&& 0xF00000#24 = 0xF00000#24 := by decide

/-- DecodeOfEncodeIsTheCommand: the commands whose well-formedness says something, at the edges of their ranges. -/
theorem witness_DecodeOfEncodeIsTheCommand :
    (Instr.noteOn 15 127 1).wellFormed = true ∧ (Instr.reservedRd 0x0010).wellFormed = true ∧
    (Instr.reservedRd 0x00FC).wellFormed = true ∧ (Instr.reservedRd 0x0900).wellFormed = true ∧
    (Instr.reservedRd 0x0FFC).wellFormed = true ∧ (Instr.reservedWr 0x0010).wellFormed = true ∧
    (Instr.reservedWr 0x0FFC).wellFormed = true := by decide

/-- ExactlyTheAdmittedAccessesDecode: the last admitted offset, and one not admitted for each reason. -/
theorem witness_ExactlyTheAdmittedAccessesDecode :
    Access.admitted 0x8000 ⟨0x9FFC, 32, .read, 0⟩ ∧ ¬ Access.admitted 0x8000 ⟨0xA000, 32, .read, 0⟩ ∧
    ¬ Access.admitted 0x8000 ⟨0x7FFC, 32, .read, 0⟩ ∧ ¬ Access.admitted 0x8000 ⟨0x9FFD, 32, .write, 0⟩ ∧
    ¬ Access.admitted 0x8000 ⟨0x8000, 8, .write, 0⟩ := by unfold Access.admitted; decide

/-- HostStepRunsTheDecodedCommand. -/
theorem witness_HostStepRunsTheDecodedCommand :
    (State.reset.setAgenda [.host ⟨8, 32, .read, 0⟩]).cfg.legal = true ∧
    (State.reset.setAgenda [.host ⟨8, 32, .read, 0⟩]).agenda = .host ⟨8, 32, .read, 0⟩ :: [] ∧
    decodeAccess (State.reset.setAgenda [.host ⟨8, 32, .read, 0⟩]).cfg.coreBase ⟨8, 32, .read, 0⟩ = .ok .statusRd :=
  ⟨reference_legal, rfl, by decide⟩

theorem small_legal : smallCfg.legal = true := by decide +kernel

/-- RenderStepRunsThePendingEvents: two events pending, a third queued behind them. -/
theorem witness_RenderStepRunsThePendingEvents :
    ∃ s : State, s.cfg.legal = true ∧ s.agenda = .core :: [] ∧ s.busy = true ∧
      s.queue = [0x904564, 0x804500] ++ [0x904764] ∧ s.pendingK = [(0x904564 : EventWord), 0x804500].length :=
  ⟨{ rendering State.reset [0x904564, 0x804500] 4 with queue := [0x904564, 0x804500, 0x904764] }, reference_legal, rfl, rfl, rfl, rfl⟩

/-- CoreTurnRendersOrIdles: each of its three clauses. -/
theorem witness_CoreTurnRendersOrIdles :
    State.reset.cfg.legal = true ∧ (State.reset.agenda = [] ∧ State.reset.busy = false) ∧
    (((rendering State.reset [] 1).setAgenda []).agenda = [] ∧ ((rendering State.reset [] 1).setAgenda []).busy = true) ∧
    ((State.reset.setAgenda [.core]).agenda = .core :: [] ∧ (State.reset.setAgenda [.core]).busy = false) :=
  ⟨reference_legal, ⟨rfl, rfl⟩, ⟨rfl, rfl⟩, rfl, rfl⟩

/-- The greatest legal parameters, with waveforms of two samples. -/
def greatestCfg : Config where
  numVoices := 256
  sampleRate := 1
  maxFrames := 512
  evqDepth := 255
  tableBits := 1
  envShift := 8
  bendRange := 24
  waveRom := Vector.replicate 4 [0, 0]
  patchRom := List.replicate 128 (encodePatch patch0)
  coreBase := 0

/-- IllegalConfigurationIsRefused, the legal ones: every range at an end. -/
theorem witness_IllegalConfigurationIsRefused_legal :
    1 ≤ greatestCfg.numVoices ∧ greatestCfg.numVoices ≤ 256 ∧ 0 < greatestCfg.sampleRate ∧ 1 ≤ greatestCfg.maxFrames ∧
    greatestCfg.maxFrames ≤ 512 ∧ 1 ≤ greatestCfg.evqDepth ∧ greatestCfg.evqDepth ≤ 255 ∧ 1 ≤ greatestCfg.tableBits ∧
    greatestCfg.tableBits ≤ 16 ∧ greatestCfg.envShift ≤ 8 ∧ greatestCfg.bendRange ≤ 24 ∧ 1 ≤ greatestCfg.numPatches ∧
    greatestCfg.numPatches ≤ 128 ∧ ∀ w : Fin 4, (greatestCfg.waveRom[w]).length = 2 ^ greatestCfg.tableBits := by
  decide +kernel

/-- IllegalConfigurationIsRefused: every disjunct at the first value outside its range. -/
theorem witness_IllegalConfigurationIsRefused :
    (withCfg { smallCfg with numVoices := 0 }).cfg.numVoices = 0 ∧ 256 < (withCfg { smallCfg with numVoices := 257 }).cfg.numVoices ∧
    (withCfg { smallCfg with sampleRate := 0 }).cfg.sampleRate = 0 ∧ (withCfg { smallCfg with maxFrames := 0 }).cfg.maxFrames = 0 ∧
    512 < (withCfg { smallCfg with maxFrames := 513 }).cfg.maxFrames ∧ (withCfg { smallCfg with evqDepth := 0 }).cfg.evqDepth = 0 ∧
    255 < (withCfg { smallCfg with evqDepth := 256 }).cfg.evqDepth ∧ (withCfg { smallCfg with tableBits := 0 }).cfg.tableBits = 0 ∧
    16 < (withCfg { smallCfg with tableBits := 17 }).cfg.tableBits ∧ 8 < (withCfg { smallCfg with envShift := 9 }).cfg.envShift ∧
    24 < (withCfg { smallCfg with bendRange := 25 }).cfg.bendRange ∧ (withCfg { smallCfg with patchRom := [] }).cfg.numPatches = 0 ∧
    128 < (withCfg { smallCfg with patchRom := List.replicate 129 (encodePatch patch0) }).cfg.numPatches ∧
    ∃ wave ∈ (withCfg { smallCfg with tableBits := 9 }).cfg.waveRom.toList,
      wave.length ≠ 2 ^ (withCfg { smallCfg with tableBits := 9 }).cfg.tableBits := by
  decide +kernel

/-- UnadmittedAccessIsRefused: a half word, and the window's last byte as a word. -/
theorem witness_UnadmittedAccessIsRefused :
    State.reset.cfg.legal = true ∧ (Access.mk 0 16 .read 0).bits ≠ 32 ∧
    ((Access.mk 0x1FFF 32 .read 0).bits = 32 ∧ State.reset.cfg.coreBase ≤ (Access.mk 0x1FFF 32 .read 0).addr ∧
      (Access.mk 0x1FFF 32 .read 0).addr < State.reset.cfg.coreBase + windowBytes ∧
      ((Access.mk 0x1FFF 32 .read 0).addr - State.reset.cfg.coreBase) % 4 ≠ 0) :=
  ⟨reference_legal, by decide, by decide, by decide, by decide, by decide⟩

/-- EveryDutifulStepCompletes: while busy, the host reads the first offset above the buffer. -/
theorem witness_EveryDutifulStepCompletes :
    ((rendering State.reset [] 1).setAgenda [.host ⟨0x1800, 32, .read, 0⟩]).cfg.legal = true ∧
    ((rendering State.reset [] 1).setAgenda [.host ⟨0x1800, 32, .read, 0⟩]).keepsDuties := by
  refine ⟨reference_legal, ?_⟩
  intro a ts h
  have ha : a = ⟨0x1800, 32, .read, 0⟩ := by cases h; rfl
  subst ha
  refine ⟨by unfold Access.admitted; decide, fun _ => by unfold Access.toOutbuf; decide⟩

/-- OutbufIsRefusedWhileBusy: the buffer's last word and the first above it. -/
theorem witness_OutbufIsRefusedWhileBusy :
    (rendering State.reset [] 1).busy = true ∧ (511 : BitVec 10).toNat < 2 * (rendering State.reset [] 1).cfg.maxFrames ∧
    2 * (rendering State.reset [] 1).cfg.maxFrames ≤ (512 : BitVec 10).toNat := by decide

/-- NoteOffReleasesTheMatchingVoices: a voice that matches and one that is free. -/
theorem witness_NoteOffReleasesTheMatchingVoices :
    (∃ v, (two sounding .atRest).voice? 0 = some v ∧ v.inUse = true ∧ v.channel = 0 ∧ v.note = 69) ∧
    ∃ v, (two sounding .atRest).voice? 1 = some v ∧ ¬ (v.inUse = true ∧ v.channel = 0 ∧ v.note = 69) :=
  ⟨⟨sounding, rfl, rfl, rfl, rfl⟩, ⟨.atRest, rfl, by decide⟩⟩

/-- NoteOnTakesTheLowestFreeVoice: voice 1 is free, voice 0 is not. -/
theorem witness_NoteOnTakesTheLowestFreeVoice :
    (two sounding .atRest).voice? 1 = some .atRest ∧
    ∀ j v, j < 1 → (two sounding .atRest).voice? j = some v → v.inUse = true := by
  refine ⟨rfl, fun j v hj hv => ?_⟩
  obtain rfl : j = 0 := by omega
  cases hv
  rfl

/-- NoteOnStealsTheLowestReleasableVoice: voice 1 is releasable, voice 0 is not. -/
theorem witness_NoteOnStealsTheLowestReleasableVoice :
    (∀ v ∈ (two sounding fading).voices, v.inUse = true) ∧ (two sounding fading).voice? 1 = some fading ∧
    fading.releasable = true ∧ ∀ j v, j < 1 → (two sounding fading).voice? j = some v → v.releasable = false := by
  refine ⟨by decide, rfl, rfl, fun j v hj hv => ?_⟩
  obtain rfl : j = 0 := by omega
  cases hv
  rfl

/-- NoteOnIsDroppedWithoutAVoice. -/
theorem witness_NoteOnIsDroppedWithoutAVoice :
    ∀ v ∈ (two sounding sounding).voices, v.inUse = true ∧ v.releasable = false := by decide

/-- NoEventFreesAVoice: a note-off of the voice. -/
theorem witness_NoEventFreesAVoice :
    ∃ t v, exec (decodeEvent 0x804500) (two sounding .atRest) = .next t ∧ (two sounding .atRest).voice? 0 = some v ∧
      v.inUse = true := ⟨_, sounding, rfl, rfl, rfl⟩

/-- ControlChangeStoresAndPans: the pan controller, another one, another controller and another channel. -/
theorem witness_ControlChangeStoresAndPans :
    (10 : BitVec 7) = 10 ∧ (127 : BitVec 7) ≠ 10 ∧ (0 : BitVec 7) ≠ 127 ∧ (15 : BitVec 4) ≠ 0 := by decide

/-- ProgramChangeStoresTheProgram and ChannelPressureStoresThePressure: another channel. -/
theorem witness_ProgramChangeStoresTheProgram : (0 : BitVec 4) ≠ 15 := by decide
theorem witness_ChannelPressureStoresThePressure : (14 : BitVec 4) ≠ 15 := by decide

/-- PitchBendUpdatesIndexAndMultiplier: the cached value again, and the largest raw value. -/
theorem witness_PitchBendUpdatesIndexAndMultiplier :
    128 * (64 : BitVec 7).toNat + (0 : BitVec 7).toNat = (State.reset.channel 0).bendRaw.toNat ∧
    128 * (127 : BitVec 7).toNat + (127 : BitVec 7).toNat ≠ (State.reset.channel 0).bendRaw.toNat := by decide

/-- IgnoredEventsChangeNothing: the highest NON_STATUS word, an A and an F word, and a FIFO that holds the last. -/
theorem witness_IgnoredEventsChangeNothing :
    (0x7FFFFF#24).getLsbD 23 = false ∧ (0xA04532#24).extractLsb' 20 4 = 0xA#4 ∧ (0xF80000#24).extractLsb' 20 4 = 0xF#4 ∧
    (rendering State.reset [0xF80000, 0x904564] 0).queue = 0xF80000 :: [0x904564] := by decide

/-- EventWriteAppendsOrIsDropped: room for one more, and none. -/
theorem witness_EventWriteAppendsOrIsDropped :
    (rendering (withCfg smallCfg) [0x904564] 0).queue.length < (rendering (withCfg smallCfg) [0x904564] 0).cfg.evqDepth ∧
    (rendering (withCfg smallCfg) [0x904564, 0x904764] 0).cfg.evqDepth ≤
      (rendering (withCfg smallCfg) [0x904564, 0x904764] 0).queue.length := by decide

/-- RenderWriteIsAcceptedOrFlagged: idle and busy. -/
theorem witness_RenderWriteIsAcceptedOrFlagged :
    State.reset.busy = false ∧ (rendering State.reset [] 0).busy = true := by decide

/-- StatusReadReturnsTheFields: the fullest FIFO that an EVQ_DEPTH allows. -/
theorem witness_StatusReadReturnsTheFields :
    ({ State.reset with queue := List.replicate 255 0x904564 } : State).queue.length ≤ 255 := by
  simp only [List.length_replicate, Nat.le_refl]

/-- ReservedAndWriteOnlyReadZero: both ends of each reserved range, and a VOICE_STAT offset among those written. -/
theorem witness_ReservedAndWriteOnlyReadZero :
    (0x0010 % 4 = 0 ∧ 0x0010 ≤ 0x0010 ∧ 0x0010 < 0x0100) ∧ (0x00FC % 4 = 0 ∧ 0x0010 ≤ 0x00FC ∧ 0x00FC < 0x0100) ∧
    (0x0900 % 4 = 0 ∧ 0x0900 ≤ 0x0900 ∧ 0x0900 < 0x1000) ∧ (0x0FFC % 4 = 0 ∧ 0x0900 ≤ 0x0FFC ∧ 0x0FFC < 0x1000) ∧
    (0x0100 % 4 = 0 ∧ 0x0010 ≤ 0x0100 ∧ 0x0100 < 0x1000) := by decide

/-- VoiceStatReadReturnsTheVoice: the first absent voice; the last voice, busy and idle; both words. -/
theorem witness_VoiceStatReadReturnsTheVoice :
    State.reset.cfg.numVoices ≤ (32 : BitVec 8).toNat ∧
    ((31 : BitVec 8).toNat < (rendering State.reset [] 0).cfg.numVoices ∧ (rendering State.reset [] 0).busy = true) ∧
    ((31 : BitVec 8).toNat < State.reset.cfg.numVoices ∧ State.reset.busy = false ∧
      State.reset.voice? (31 : BitVec 8).toNat = some .atRest) ∧ false = false ∧ true = true := by decide

/-- OutbufAccessesReadAndWriteTheirWord: the last word of the buffer, a byte on each side of it, and the first above. -/
theorem witness_OutbufAccessesReadAndWriteTheirWord :
    (State.reset.busy = false ∧ (511 : BitVec 10).toNat < 2 * State.reset.cfg.maxFrames ∧
      (0x17FB < outAddr (511 : BitVec 10).toNat ∧ outAddr (511 : BitVec 10).toNat + 4 ≤ 0x1800)) ∧
    2 * State.reset.cfg.maxFrames ≤ (512 : BitVec 10).toNat := by decide

/-- OutbufIsLittleEndian: the first word, and its last byte. -/
theorem witness_OutbufIsLittleEndian :
    (0 : BitVec 10).toNat < 2 * State.reset.cfg.maxFrames ∧ (∃ t, exec (.outbufWr 0 7) State.reset = .next t) ∧ 3 < 4 :=
  ⟨by decide, ⟨_, rfl⟩, by decide⟩

/-- HostAccessesLeaveTheEngineAlone: a read. -/
theorem witness_HostAccessesLeaveTheEngineAlone :
    ∃ t, decodeAccess 0 ⟨8, 32, .read, 0⟩ = .ok .statusRd ∧ exec .statusRd State.reset = .next t ∧
      (Access.mk 8 32 .read 0).kind = .read := ⟨_, by decide, rfl, rfl⟩

/-- EnvelopeUpdateRampsAndClamps: each clause at its boundary (95_test_vectors.md section 2.4; ENV_SHIFT is 4). -/
theorem witness_EnvelopeUpdateRampsAndClamps :
    Config.reference.envShift = 4 ∧ envMax ≤ 30735 + 127 * 2 ^ 4 ∧ 30734 + 127 * 2 ^ 4 < envMax ∧ 24832 ≤ 256 * 96 + 16 * 2 ^ 4 ∧
    256 * 96 + 16 * 2 ^ 4 < 24833 ∧ 16 ≤ 1 * 2 ^ 4 ∧ 1 * 2 ^ 4 < 17 := by decide

/-- GatesSetThePhaseOnly: a released envelope, one at off, and one that an Update brings to off. -/
theorem witness_GatesSetThePhaseOnly :
    fading.amp.phase = .release ∧ Envelope.atRest = ⟨.off, 0⟩ ∧ envActive .atRest = false ∧ envActive ⟨.release, 16⟩ = true ∧
    envActive (envUpdate .reference ⟨.release, 16⟩ 0 0 0 0) = false := by decide

/-- EnvelopePhasesLastTheirBlocks: the lowest level, and a block before the end of each phase. -/
theorem witness_EnvelopePhasesLastTheirBlocks :
    0 < (1 : BitVec 16).toNat ∧ 63 < (envMax + envInc .reference 32 - 1) / envInc .reference 32 ∧
    31 < (envMax - envTarget 96 + envInc .reference 16 - 1) / envInc .reference 16 ∧
    0 < ((1 : BitVec 16).toNat + envInc .reference 8 - 1) / envInc .reference 8 := by decide

/-- The ROM statements: the last position, two pan values and the lowest sample rate. -/
theorem witness_PowRomIsTheRoundedExponential : 16383 < powSize := by decide
theorem witness_PanRomIsTheRoundedSquareRoot : (126 : BitVec 7).toNat ≤ (127 : BitVec 7).toNat := by decide
theorem witness_NoteRomIsTheRoundedFormula :
    12544 ≤ 12544 ∧
    (0 < 44100 ∧ ⌊(440 : ℝ) * (2 : ℝ) ^ ((((69 : BitVec 7).toNat : ℝ) - 69) / 12) * 2 ^ 32 / ((44100 : Nat) : ℝ) + 1 / 2⌋₊ < 2 ^ 32) ∧
    (0 < 1 ∧ 2 ^ 32 ≤ ⌊(440 : ℝ) * (2 : ℝ) ^ ((((69 : BitVec 7).toNat : ℝ) - 69) / 12) * 2 ^ 32 / ((1 : Nat) : ℝ) + 1 / 2⌋₊) := by
  have h69 : (((69 : BitVec 7).toNat : ℝ) - 69) / 12 = 0 := by
    rw [show (69 : BitVec 7).toNat = 69 from rfl]; norm_num
  rw [h69, Real.rpow_zero]
  refine ⟨le_refl _, ⟨by decide, ?_⟩, by decide, Nat.le_floor ?_⟩
  · rw [Nat.floor_lt (by positivity)]; norm_num
  · norm_num
theorem witness_PowLookupClampsTheIndex : (-8192 : Int) ≤ -8192 ∧ (8191 : Int) ≤ 8191 ∧
    (0 < powSize ∧ (-8192 : Int) = (0 : Nat) - 8192) ∧ 16383 < powSize ∧ (8191 : Int) = (16383 : Nat) - 8192 := by decide

/-- ModulationIndicesStayInRange: the highest level; the mod wheel at 0; the depth at 0. -/
theorem witness_ModulationIndicesStayInRange :
    (Envelope.mk .decay 0x7FFF).level.toNat ≤ envMax ∧ Channel.reset.controller 1 = 0 ∧ patch0.vibDepth = 0 := by decide

/-- ModStepUnmodulatedKeepsTheBase: a voice of patch 0 on a channel at its defaults. -/
theorem witness_ModStepUnmodulatedKeepsTheBase :
    Channel.reset.bendMult = 32768 ∧ sounding.penvEn = false ∧ Channel.reset.controller 1 = 0 ∧
    (patchAt .reference sounding.patch).vibDepth = 0 := by decide

/-- EnvelopePassAdvancesOrFrees: the last patch; a free voice, one that goes on and one that ends. -/
theorem witness_EnvelopePassAdvancesOrFrees :
    let amp := fun v : Voice =>
      let p := patchAt Config.reference v.patch
      envUpdate .reference v.amp p.ampA p.ampD p.ampS p.ampR
    (3 : BitVec 7).toNat < Config.reference.patchRom.length ∧
    ([Voice.atRest, sounding, fading][0]? = some .atRest ∧ Voice.atRest.inUse = false) ∧
    ([Voice.atRest, sounding, fading][1]? = some sounding ∧ sounding.inUse = true ∧ (amp sounding).phase ≠ .off) ∧
    ([Voice.atRest, sounding, fading][2]? = some fading ∧ fading.inUse = true ∧ (amp fading).phase = .off) := by decide

/-- ScaleAndGainsAreBounded: the ceiling. -/
theorem witness_ScaleAndGainsAreBounded : ({ sounding with amp := ⟨.decay, 0x7FFF⟩ } : Voice).amp.level.toNat ≤ envMax := by decide

/-- BlockMixesTheSumOfItsVoices: the last frame of the longest block. -/
theorem witness_BlockMixesTheSumOfItsVoices : 511 < 512 := by decide

/-- BlockWritesOnlyItsFrames: an address on each side of a block of one frame, and a block in which every voice ends. -/
theorem witness_BlockWritesOnlyItsFrames :
    (0x0FFF < outAddr 0 ∧ outAddr (2 * 1) ≤ 0x1008) ∧
    ∀ v ∈ envelopePass (two fading .atRest).cfg (two fading .atRest).voices, v.inUse = false := by decide

/-- BlockAdvancesEveryVoice: a voice that goes on and a free one. -/
theorem witness_BlockAdvancesEveryVoice :
    (∃ v, (envelopePass (two sounding fading).cfg (two sounding fading).voices)[0]? = some v ∧ v.inUse = true) ∧
    ∃ v, (envelopePass (two sounding fading).cfg (two sounding fading).voices)[1]? = some v ∧ v.inUse = false :=
  ⟨⟨_, rfl, by decide⟩, ⟨_, rfl, by decide⟩⟩

/-- SilentVoiceAddsNothingAndAdvances: the channel's volume at 0. -/
theorem witness_SilentVoiceAddsNothingAndAdvances :
    voiceScale .reference (Channel.reset.setController 7 0) sounding = 0 := by decide

/-- ResetGivesEveryElementItsValue: a reset during a render. -/
theorem witness_ResetGivesEveryElementItsValue :
    ((rendering (two sounding fading) [0x904564] 4).setAgenda [.reset]).cfg.legal = true ∧
    ((rendering (two sounding fading) [0x904564] 4).setAgenda [.reset]).agenda = .reset :: [] := ⟨small_legal, rfl⟩

/-- The sounding voice satisfies the voice invariant: its records are those of a note-on and one envelope pass. -/
theorem sounding_inv : VoiceInv smallCfg sounding := by
  constructor
  · intro h; cases h
  · intro; decide
  · intro; decide
  · decide
  · intro; decide
  · intro; decide +kernel
  · intro; decide
  · decide
  · decide
  · intro; rfl

/-- EveryStepKeepsTheInvariant: a render with a sounding voice and a pending event. -/
theorem witness_EveryStepKeepsTheInvariant :
    StateInv (rendering (two sounding .atRest) [0x804500] 4) ∧
    ∃ t, step (rendering (two sounding .atRest) [0x804500] 4) = .next t := by
  constructor
  · refine ⟨small_legal, fun c => ?_, rfl, fun v hv => ?_, by decide, by decide, by decide, ?_, ?_, ?_⟩
    · have hc : (rendering (two sounding .atRest) [0x804500] 4).channel c = .reset := by
        simp [State.channel, rendering, two, State.reset]
      rw [hc]
      exact channelInv_reset _
    · have hv' : v = sounding ∨ v = .atRest := by simpa [rendering, two] using hv
      rcases hv' with rfl | rfl
      · exact sounding_inv
      · exact voiceInv_atRest (by decide)
    · intro h; cases h
    · exact List.Pairwise.nil
    · intro p hp; cases hp
  · have hl : (rendering (two sounding .atRest) [0x804500] 4).cfg.legal = true := small_legal
    rw [step_of_cons hl rfl]
    obtain ⟨u, -, -, hr⟩ := render_cases ((rendering (two sounding .atRest) [0x804500] 4).setAgenda [])
    exact ⟨_, hr⟩

/-- OnlyARenderOrAResetFreesAVoice: a render that ends voice 0. -/
theorem witness_OnlyARenderOrAResetFreesAVoice :
    seen (step (rendering (two fading .atRest) [] 0)) (fun t => (t.voice? 0).map (·.inUse)) = some (some false) ∧
    (two fading .atRest).voice? 0 = some fading ∧ fading.inUse = true := by decide +kernel

/-- OnlyARenderSetsDone: a render. -/
theorem witness_OnlyARenderSetsDone :
    seen (step (rendering (two fading .atRest) [] 0)) (fun t => t.done) = some true ∧
    (rendering (two fading .atRest) [] 0).done = false := by decide +kernel

/-- StickyBitsAreClearedByTheHostOrReset: each bit cleared by the host's write, the others set before and after. -/
theorem witness_StickyBitsAreClearedByTheHostOrReset :
    let s := fun w : Word => (((withCfg smallCfg).setSticky true true true).setAgenda [.host ⟨0x0008, 32, .write, w⟩])
    let bits := fun t : State => (t.done, t.evovf, t.rnovr)
    seen (step (s 0x2)) bits = some (false, true, true) ∧ seen (step (s 0x4)) bits = some (true, false, true) ∧
    seen (step (s 0x8)) bits = some (true, true, false) := by decide +kernel

/-- NoStepChangesTheRoms: an idle step with the right number of voices. -/
theorem witness_NoStepChangesTheRoms :
    seen (step (two sounding fading)) (fun t => t.voices.length) = some 2 ∧
    (two sounding fading).voices.length = (two sounding fading).cfg.numVoices := by decide +kernel

/-- ReferenceWavesFollowTheFormulas: the last sample, and the first with its mirror image. -/
theorem witness_ReferenceWavesFollowTheFormulas : 255 < 256 ∧ 1 ≤ 1 ∧ 1 < 256 := by decide

end Sys2Proof.Tests
end

section
/-! PROOFS. The scope statements (spec/00_scope.md R7, R8): the configurations that a step accepts, and the reference one. -/

namespace Sys2Proof

/-- A statement over every waveform of a WAVE_ROM is one over the four waveform numbers. -/
theorem forall_mem_waveRom (cfg : Config) (p : List (BitVec 16) → Prop) :
    (∀ wave ∈ cfg.waveRom.toList, p wave) ↔ ∀ w : Fin 4, p cfg.waveRom[w] := by
  simp only [Vector.mem_toList_iff, Vector.mem_iff_getElem]
  constructor
  · intro h w
    exact h _ ⟨w, w.isLt, rfl⟩
  · rintro h _ ⟨i, hi, rfl⟩
    exact h ⟨i, hi⟩

/-- R8, U7: a step refuses every configuration that is not legal. -/
theorem Machine.step_of_not_legal {s : Machine.State} (hl : s.cfg.legal ≠ true) :
    Machine.step s = .refused .illegalConfiguration := by
  simp only [Machine.step, if_neg hl]

/-- A 7-bit field of a byte whose bit 7 is 0 (R84). -/
@[simp] theorem low7_byte (x : BitVec 7) : BitVec.extractLsb' 0 7 (0#1 ++ x : Byte) = x :=
  BitVec.extractLsb'_append_eq_right

/-- A 2-bit field of a byte whose bits [7:2] are 0 (R84). -/
@[simp] theorem low2_byte (x : BitVec 2) : BitVec.extractLsb' 0 2 (0#6 ++ x : Byte) = x :=
  BitVec.extractLsb'_append_eq_right

/-- The flag of a byte whose bits [7:1] are 0 (R84). -/
@[simp] theorem low1_byte (b : Bool) : (0#7 ++ BitVec.ofBool b : Byte)[0] = b := by
  cases b <;> rfl

/-- A record written from a patch decodes to that patch (R84). -/
@[simp] theorem decodePatch_encodePatch (p : Patch) : decodePatch (encodePatch p) = p := by
  obtain ⟨⟩ := p
  simp [decodePatch, encodePatch, patchField7, patchField2]

/-- The records of the reference PATCH_ROM are the four patches of R33. -/
theorem map_decodePatch_referencePatches : referencePatches.map decodePatch = [patch0, patch1, patch2, patch3] := by
  simp [referencePatches]

end Sys2Proof

open Sys2Proof Sys2Proof.Machine

/-- Settles O9: `legal_iff` reads the ranges off `Config.legal`, and a step refuses what is not legal. -/
theorem illegalConfigurationIsRefused : Obligations.IllegalConfigurationIsRefused := by
  unfold Obligations.IllegalConfigurationIsRefused
  constructor
  · intro cfg hv hv' hs hf hf' hq hq' ht ht' he hb hp hp' hw
    exact (legal_iff cfg).2
      ⟨hv, hv', hs, hf, hf', hq, hq', ht, ht', he, hb, hp, hp', (forall_mem_waveRom cfg _).2 hw⟩
  · intro s hout
    refine step_of_not_legal fun hl => ?_
    obtain ⟨hv, hv', hs, hf, hf', hq, hq', ht, ht', he, hb, hp, hp', hw⟩ := (legal_iff s.cfg).1 hl
    have hlen : ¬ ∃ wave ∈ s.cfg.waveRom.toList, wave.length ≠ 2 ^ s.cfg.tableBits :=
      fun ⟨wave, hmem, hne⟩ => hne (hw wave hmem)
    simp only [hlen, or_false] at hout
    omega

/-- Settles O59: the reference records are encodings, and decoding one gives its patch back. -/
theorem referenceConfigurationIsThisHardware : Obligations.ReferenceConfigurationIsThisHardware := by
  unfold Obligations.ReferenceConfigurationIsThisHardware
  constructor
  · exact ⟨rfl, rfl, rfl, rfl, rfl, rfl, rfl, rfl, reference_legal⟩
  · exact map_decodePatch_referencePatches
end

section
/-! PROOFS. The state statements (spec/10_state.md): the invariant of the whole state, turn by turn. -/

namespace Sys2Proof.Machine

theorem StateInv.filesInv {s : State} (h : StateInv s) : FilesInv s := ⟨h.channel, h.voice⟩

/-- The agenda is the model's own: no part of the invariant speaks of it. -/
theorem stateInv_setAgenda {s : State} (h : StateInv s) (ts : List Turn) : StateInv (s.setAgenda ts) := { h with }

/-- A reset establishes the invariant in every legal configuration (R240). -/
theorem stateInv_resetCore {s : State} (hl : s.cfg.legal = true) : StateInv (resetCore s) where
  legal := hl
  channel := (filesInv_resetCore (numPatches_pos hl)).channel
  voiceCount := List.length_replicate
  voice := (filesInv_resetCore (numPatches_pos hl)).voice
  fifo := Nat.zero_le _
  pendingK := Nat.le_refl _
  pendingN := Nat.zero_le _
  idle := fun _ => ⟨rfl, rfl⟩
  memory := List.Pairwise.nil
  memoryRange := fun _ hp => nomatch hp

/-- A block keeps the number of voices. -/
theorem renderBlock_voices_length (n : Nat) (s : State) : (renderBlock n s).voices.length = s.voices.length := by
  rw [renderBlock_voices, List.length_map, envelopePass, List.length_map]

/-- A render keeps the invariant: the drain keeps the records', and the block the memory's and the bounds (R180). -/
theorem stateInv_render {s t : State} (h : StateInv s) (hr : render s = .next t) : StateInv t := by
  obtain ⟨u, hd, he, hu⟩ := render_cases s
  cases hu.symm.trans hr
  have hcfg : u.cfg = s.cfg := he.cfg
  have hout : u.outbuf = s.outbuf := he.outbuf
  have hqueue : u.queue = s.queue.drop s.pendingK := he.queue
  have hcount : u.voices.length = s.voices.length := he.voiceCount
  have hpos : 0 < s.cfg.numPatches := numPatches_pos h.legal
  have hfiles : FilesInv (renderBlock s.pendingN u) :=
    filesInv_renderBlock (hcfg ▸ hpos) (filesInv_drain hpos h.filesInv hd) _
  have hend : outAddr (2 * s.pendingN) ≤ offOutbuf + 8 * s.cfg.maxFrames := by
    have hn := h.pendingN
    simp only [outAddr]
    omega
  obtain ⟨hwf, hrange⟩ := renderVoices_keeps u.cfg u.channels u.outbufEpoch s.pendingN (envelopePass u.cfg u.voices)
    (hout ▸ h.memory) (hout ▸ h.memoryRange) hend
  exact {
    legal := by rw [renderBlock_cfg, hcfg]; exact h.legal
    channel := hfiles.channel
    voiceCount := by rw [renderBlock_voices_length, hcount, renderBlock_cfg, hcfg]; exact h.voiceCount
    voice := hfiles.voice
    fifo := by
      have hq := h.fifo
      rw [renderBlock_queue, hqueue, List.length_drop, renderBlock_cfg, hcfg]
      omega
    pendingK := Nat.zero_le _
    pendingN := Nat.zero_le _
    idle := fun _ => ⟨rfl, rfl⟩
    memory := hwf
    memoryRange := by rw [renderBlock_cfg, hcfg]; exact hrange }

/-- A CORE turn keeps the invariant. -/
theorem stateInv_coreTurn {s t : State} (h : StateInv s) (hc : coreTurn s = .next t) : StateInv t := by
  rcases coreTurn_cases hc with ⟨-, hr⟩ | ⟨-, rfl⟩
  · exact stateInv_render h hr
  · exact h

/-- A host's write to a word of OUTBUF keeps the invariant (R206). -/
theorem stateInv_outWrite {s : State} (h : StateInv s) {k : Nat} (hk : k < 2 * s.cfg.maxFrames) (w : Word) :
    StateInv (s.setOutbuf (outWrite s.outbuf k w)) :=
  { h with
    memory := memWf_outWrite h.memory k w
    memoryRange := fun p hp => by
      rcases mem_outWrite hp with ⟨hlo, hhi⟩ | hp
      · simp only [outAddr, State.setOutbuf_cfg] at hlo hhi ⊢
        omega
      · exact h.memoryRange p hp }

/-- Every write to the window keeps the invariant: the FIFO takes an entry only while it has room, and an accepted render
pends no more entries than are present and no more frames than MAX_FRAMES (R200, R201). -/
theorem stateInv_decodeWrite {s t : State} {off : Nat} {w : Word} (h : StateInv s)
    (he : exec (decodeWrite off w) s = .next t) : StateInv t := by
  rcases exec_decodeWrite he with rfl | ⟨hq, rfl⟩ | rfl | ⟨-, rfl⟩ | rfl | ⟨-, rfl⟩ | rfl | ⟨-, hk, rfl⟩
  · exact h
  · have hlen : (s.queue ++ [w.extractLsb' 0 24]).length = s.queue.length + 1 := List.length_append
    exact { h with
      fifo := hlen.trans_le hq
      pendingK := h.pendingK.trans (hlen ▸ Nat.le_succ _) }
  · exact { h with }
  · exact { h with
      pendingK := Nat.le_refl _
      pendingN := Nat.min_le_right _ _
      idle := fun hb => nomatch hb }
  · exact { h with }
  · exact { h with }
  · exact { h with }
  · exact stateInv_outWrite h hk w

/-- A host's turn keeps the invariant. -/
theorem stateInv_hostAccess {s t : State} {base : Nat} {a : Access} {i : Instr} (h : StateInv s)
    (hd : decodeAccess base a = .ok i) (he : exec i s = .next t) : StateInv t := by
  rcases hostAccess_cases hd he with ⟨-, w, rfl | rfl⟩ | ⟨-, -, -, hw⟩
  · exact { h with }
  · exact { h with }
  · exact stateInv_decodeWrite h hw

end Sys2Proof.Machine

open Sys2Proof Sys2Proof.Machine

/-- Settles O53: the four turns of `step_cases`, each with the lemma that it keeps the invariant. -/
theorem everyStepKeepsTheInvariant : Obligations.EveryStepKeepsTheInvariant := by
  unfold Obligations.EveryStepKeepsTheInvariant
  intro s t h hst
  obtain ⟨hl, ⟨-, hc⟩ | ⟨ts, -, hc⟩ | ⟨ts, -, rfl⟩ | ⟨a, ts, i, -, hd, he⟩⟩ := step_cases hst
  · exact stateInv_coreTurn h hc
  · exact stateInv_coreTurn (stateInv_setAgenda h ts) hc
  · exact stateInv_resetCore hl
  · exact stateInv_hostAccess (stateInv_setAgenda h ts) hd he
end

section
/-! PROOFS. The reset state, and what no step changes or clears (spec/10_state.md R20, R29, R42, R46). -/

namespace Sys2Proof.Machine

/-- The reset controllers: volume 100, pan 64, the others 0 (R23). -/
theorem Channel.reset_controller (k : BitVec 7) :
    Channel.reset.controller k = if k = 7 then 100 else if k = 10 then 64 else 0 := by
  revert k
  decide

/-- Every channel of the reset state is at its defaults (R46). -/
theorem State.reset_channel (c : BitVec 4) : State.reset.channel c = .reset := by
  simp [State.channel, State.reset]

/-- The reset state is, but for the count of resets, what a reset leaves of it. -/
theorem stateInv_reset : StateInv State.reset := { stateInv_resetCore (s := .reset) reference_legal with }

/-- A host's access changes neither the parameters nor the voice file (R66, R70). -/
theorem hostAccess_cfg_voices {s t : State} {base : Nat} {a : Access} {i : Instr} (hd : decodeAccess base a = .ok i)
    (h : exec i s = .next t) : t.cfg = s.cfg ∧ t.voices = s.voices := by
  rcases hostAccess_cases hd h with ⟨-, w, rfl | rfl⟩ | ⟨-, -, -, hw⟩
  · exact ⟨rfl, rfl⟩
  · exact ⟨rfl, rfl⟩
  · rcases exec_decodeWrite hw with rfl | ⟨-, rfl⟩ | rfl | ⟨-, rfl⟩ | rfl | ⟨-, rfl⟩ | rfl | ⟨-, -, rfl⟩ <;>
      exact ⟨rfl, rfl⟩

/-- A CORE turn changes no parameter and keeps the number of voices (R24, R29). -/
theorem coreTurn_cfg_voiceCount {s t : State} (h : coreTurn s = .next t) :
    t.cfg = s.cfg ∧ t.voices.length = s.voices.length := by
  rcases coreTurn_cases h with ⟨-, hr⟩ | ⟨-, rfl⟩
  · obtain ⟨u, -, he, hu⟩ := render_cases s
    cases hu.symm.trans hr
    exact ⟨he.cfg, (renderBlock_voices_length _ u).trans he.voiceCount⟩
  · exact ⟨rfl, rfl⟩

/-- Every sticky bit that is set before is set after (R42). -/
def StickyKept (s t : State) : Prop :=
  (s.done = true → t.done = true) ∧ (s.evovf = true → t.evovf = true) ∧ (s.rnovr = true → t.rnovr = true)

/-- The hypothesis of O56: a sticky bit went from set to clear. -/
theorem not_stickyKept {s t : State}
    (h : (s.done = true ∧ t.done = false) ∨ (s.evovf = true ∧ t.evovf = false) ∨ (s.rnovr = true ∧ t.rnovr = false)) :
    ¬ StickyKept s t := by
  rintro ⟨hd, he, hr⟩
  rcases h with ⟨h, h'⟩ | ⟨h, h'⟩ | ⟨h, h'⟩
  · exact absurd (hd h) (by simp [h'])
  · exact absurd (he h) (by simp [h'])
  · exact absurd (hr h) (by simp [h'])

/-- A CORE turn clears no sticky bit (R42). -/
theorem stickyKept_coreTurn {s t : State} (h : coreTurn s = .next t) : StickyKept s t := by
  rcases coreTurn_cases h with ⟨-, hr⟩ | ⟨-, rfl⟩
  · obtain ⟨u, -, he, hu⟩ := render_cases s
    cases hu.symm.trans hr
    exact ⟨fun _ => rfl, he.evovf.trans, he.rnovr.trans⟩
  · exact ⟨id, id, id⟩

/-- Of the host's accesses only a write of STATUS can clear a sticky bit, and it is STATUS_WR's clear (R42, R202). -/
theorem hostAccess_sticky {s t : State} {base : Nat} {a : Access} {i : Instr} (hd : decodeAccess base a = .ok i)
    (h : exec i s = .next t) :
    StickyKept s t ∨ (a.kind = .write ∧ a.addr = base + offStatus ∧
      t = s.clearSticky (a.data.getLsbD 1) (a.data.getLsbD 2) (a.data.getLsbD 3)) := by
  rcases hostAccess_cases hd h with ⟨-, w, rfl | rfl⟩ | ⟨hk, hb, -, hw⟩
  · exact .inl ⟨id, id, id⟩
  · exact .inl ⟨id, id, id⟩
  · rcases exec_decodeWrite hw with rfl | ⟨-, rfl⟩ | rfl | ⟨-, rfl⟩ | rfl | ⟨ho, rfl⟩ | rfl | ⟨-, -, rfl⟩
    · exact .inl ⟨id, id, id⟩
    · exact .inl ⟨id, id, id⟩
    · exact .inl ⟨id, fun _ => rfl, id⟩
    · exact .inl ⟨id, id, id⟩
    · exact .inl ⟨id, id, fun _ => rfl⟩
    · exact .inr ⟨hk, by omega, rfl⟩
    · exact .inl ⟨id, id, id⟩
    · exact .inl ⟨id, id, id⟩

/-- A sticky bit that a STATUS write clears was written with a 1 (R202). -/
theorem written_of_cleared {old clr : Bool} (h : old = true ∧ (old && !clr) = false) : clr = true := by
  obtain ⟨rfl, hc⟩ := h
  simpa using hc

end Sys2Proof.Machine

open Sys2Proof Sys2Proof.Machine

/-- Settles O56: a turn other than a reset keeps the sticky bits, unless it is the host's write of STATUS, whose clear takes
only the bits written with a 1. -/
theorem stickyBitsAreClearedByTheHostOrReset : Obligations.StickyBitsAreClearedByTheHostOrReset := by
  unfold Obligations.StickyBitsAreClearedByTheHostOrReset
  intro s t hst hclr
  have hnot : ¬ StickyKept s t := not_stickyKept hclr
  obtain ⟨-, ⟨-, hc⟩ | ⟨ts, -, hc⟩ | ⟨ts, ha, -⟩ | ⟨a, ts, i, ha, hd, he⟩⟩ := step_cases hst
  · exact absurd (stickyKept_coreTurn hc) hnot
  · exact absurd (stickyKept_coreTurn hc) hnot
  · exact .inl ⟨ts, ha⟩
  · rcases hostAccess_sticky hd he with hk | ⟨hw, haddr, rfl⟩
    · exact absurd hk hnot
    · exact .inr ⟨a, ts, ha, hw, haddr, written_of_cleared, written_of_cleared, written_of_cleared⟩

/-- Settles O57: a reset gives the configuration's number of voices, and every other turn keeps the file's length. -/
theorem noStepChangesTheRoms : Obligations.NoStepChangesTheRoms := by
  unfold Obligations.NoStepChangesTheRoms
  intro s t hst
  obtain ⟨-, ⟨-, hc⟩ | ⟨ts, -, hc⟩ | ⟨ts, -, rfl⟩ | ⟨a, ts, i, -, hd, he⟩⟩ := step_cases hst
  · obtain ⟨hcfg, hlen⟩ := coreTurn_cfg_voiceCount hc
    exact ⟨hcfg, fun h => by rw [hlen, hcfg]; exact h⟩
  · obtain ⟨hcfg, hlen⟩ := coreTurn_cfg_voiceCount hc
    exact ⟨hcfg, fun h => by rw [hlen, hcfg]; exact h⟩
  · exact ⟨rfl, fun _ => List.length_replicate⟩
  · obtain ⟨hcfg, hvoices⟩ := hostAccess_cfg_voices hd he
    exact ⟨hcfg, fun h => by rw [hvoices, hcfg]; exact h⟩

/-- Settles O52: the invariant is a reset's, and every channel is `Channel.reset`. -/
theorem resetStateMeetsTheInvariant : Obligations.ResetStateMeetsTheInvariant := by
  unfold Obligations.ResetStateMeetsTheInvariant
  refine ⟨stateInv_reset, rfl, by decide +kernel, rfl, rfl, rfl, rfl, rfl, rfl, rfl, rfl, rfl, rfl, rfl,
    fun v hv => List.eq_of_mem_replicate hv, fun c => ?_, fun a => rfl, rfl, rfl, rfl, rfl⟩
  rw [State.reset_channel]
  exact ⟨rfl, rfl, rfl, rfl, rfl, rfl, rfl, Channel.reset_controller⟩
end

section
/-! PROOFS. The computed ROMs (spec/10_state.md R31, R32, R34): each entry is its formula on the real numbers, rounded.  Each
double formula is a y whose k-th power is the number that the table's comparison of integers is against. -/

namespace Sys2Proof

/-- A number that fits under x is at most one whose successor does not fit under a larger y. -/
theorem le_of_fits_of_not_fits {a b k x y : Nat} (ha : (2 * a - 1) ^ k ≤ x) (hxy : x ≤ y) (hb : y < (2 * b + 1) ^ k) :
    a ≤ b := by
  have hlt : 2 * a - 1 < 2 * b + 1 := lt_of_pow_lt_pow_left₀ k (Nat.zero_le _) (ha.trans_lt (hxy.trans_lt hb))
  omega

/-- A number whose double, less or plus one, brackets 2x in the k-th power is x rounded half up (R10). -/
theorem eq_round_of_powers {r k : Nat} (hk : k ≠ 0) {x : ℝ} (hx : 0 ≤ x) (h1 : ((2 * r - 1 : Nat) : ℝ) ^ k ≤ (2 * x) ^ k)
    (h2 : (2 * x) ^ k < ((2 * r + 1 : Nat) : ℝ) ^ k) : r = ⌊x + 1 / 2⌋₊ := by
  rw [rounded_of_powers hk (by positivity) h1 h2, mul_div_cancel_left₀ x two_ne_zero]

/-- The same where the k-th power of 2x is a natural number, so that the comparisons are of integers. -/
theorem eq_round_of_nat_powers {r k y : Nat} (hk : k ≠ 0) {x : ℝ} (hx : 0 ≤ x) (hy : (2 * x) ^ k = (y : ℝ))
    (h1 : (2 * r - 1) ^ k ≤ y) (h2 : y < (2 * r + 1) ^ k) : r = ⌊x + 1 / 2⌋₊ :=
  eq_round_of_powers hk hx (by rw [hy]; exact_mod_cast h1) (by rw [hy]; exact_mod_cast h2)

/-! ## POW_ROM -/

/-- Twice R32's formula, to the 8192th power. -/
theorem pow_formula_pow (p : Nat) :
    (2 * ((32768 : ℝ) * (2 : ℝ) ^ (((p : ℝ) - 8192) / 8192))) ^ 8192 = ((2 ^ (122880 + p) : Nat) : ℝ) := by
  have hy : 2 * ((32768 : ℝ) * (2 : ℝ) ^ (((p : ℝ) - 8192) / 8192)) = (2 : ℝ) ^ (((122880 + p : Nat) : ℝ) / 8192) := by
    have he : ((122880 + p : Nat) : ℝ) / 8192 = 16 + ((p : ℝ) - 8192) / 8192 := by push_cast; ring
    rw [he, Real.rpow_add two_pos]
    norm_num
    ring
  rw [hy, ← Real.rpow_mul_natCast two_pos.le, Nat.cast_pow, ← Real.rpow_natCast]
  congr 1
  push_cast
  ring

/-- POW_ROM's entries are R32's formula, rounded. -/
theorem powRom_eq_round {p : Nat} (hp : p < powSize) :
    (powRom p).toNat = ⌊(32768 : ℝ) * (2 : ℝ) ^ (((p : ℝ) - 8192) / 8192) + 1 / 2⌋₊ := by
  obtain ⟨hfit, hnext, -⟩ := powRom_toNat_spec hp
  exact eq_round_of_nat_powers (by decide) (by positivity) (pow_formula_pow p) hfit hnext

/-- POW_ROM does not decrease. -/
theorem powRom_mono {p q : Nat} (hpq : p ≤ q) (hq : q < powSize) : (powRom p).toNat ≤ (powRom q).toNat :=
  le_of_fits_of_not_fits (powRom_toNat_spec (hpq.trans_lt hq)).1 (Nat.pow_le_pow_right two_pos (by omega))
    (powRom_toNat_spec hq).2.1

theorem powRom_first : (powRom 0).toNat = 16384 := by decide +kernel
theorem powRom_last : (powRom 16383).toNat = 65530 := by decide +kernel

/-! ## PAN_ROM -/

/-- Twice R34's formula, squared. -/
theorem pan_formula_sq (v : Nat) : (2 * ((127 : ℝ) * √((v : ℝ) / 127))) ^ 2 = ((508 * v : Nat) : ℝ) := by
  rw [mul_pow, mul_pow, Real.sq_sqrt (by positivity)]
  push_cast
  ring

/-- PAN_ROM's entries are R34's formula, rounded. -/
theorem panRom_eq_round (v : BitVec 7) : (panRom v).toNat = ⌊(127 : ℝ) * √((v.toNat : ℝ) / 127) + 1 / 2⌋₊ := by
  obtain ⟨hfit, hnext⟩ := panRom_toNat_spec v
  exact eq_round_of_nat_powers two_ne_zero (by positivity) (pan_formula_sq v.toNat) hfit hnext

/-- PAN_ROM does not decrease. -/
theorem panRom_mono {u v : BitVec 7} (h : u.toNat ≤ v.toNat) : (panRom u).toNat ≤ (panRom v).toNat :=
  le_of_fits_of_not_fits (panRom_toNat_spec u).1 (Nat.mul_le_mul_left 508 h) (panRom_toNat_spec v).2

/-! ## NOTE_ROM -/

/-- R31's formula before it is rounded. -/
noncomputable def noteFormula (sampleRate n : Nat) : ℝ :=
  (440 : ℝ) * (2 : ℝ) ^ (((n : ℝ) - 69) / 12) * 2 ^ 32 / (sampleRate : ℝ)

/-- Twice R31's formula, to the twelfth power, against both sides of `noteFits`. -/
theorem noteFormula_pow {sampleRate : Nat} (hs : 0 < sampleRate) (n : Nat) :
    (2 * noteFormula sampleRate n) ^ 12 * ((sampleRate : ℝ) ^ 12 * 2 ^ 69) = (880 * 2 ^ 32) ^ 12 * 2 ^ n := by
  have hs' : (sampleRate : ℝ) ≠ 0 := by positivity
  have hroot : ((2 : ℝ) ^ (((n : ℝ) - 69) / 12)) ^ 12 * 2 ^ 69 = 2 ^ n := by
    rw [← Real.rpow_mul_natCast two_pos.le, ← Real.rpow_natCast 2 69, ← Real.rpow_natCast 2 n, ← Real.rpow_add two_pos]
    congr 1
    push_cast
    ring
  rw [← hroot, noteFormula]
  field_simp
  ring

/-- A number fits under R31's formula in the reals exactly when `noteFits` says so of the integers. -/
theorem pow_le_noteFormula_iff {sampleRate : Nat} (hs : 0 < sampleRate) (n m : Nat) :
    (m : ℝ) ^ 12 ≤ (2 * noteFormula sampleRate n) ^ 12 ↔ (m * sampleRate) ^ 12 * 2 ^ 69 ≤ (880 * 2 ^ 32) ^ 12 * 2 ^ n := by
  have hpos : (0 : ℝ) < (sampleRate : ℝ) ^ 12 * 2 ^ 69 := by positivity
  rw [← mul_le_mul_iff_left₀ hpos, noteFormula_pow hs, ← mul_assoc, ← mul_pow]
  exact_mod_cast Iff.rfl

/-- The phase step that the search finds is R31's formula, rounded. -/
theorem noteStep_eq_round {sampleRate n : Nat} (hs : 0 < sampleRate) (hn : n < 128) :
    noteStep sampleRate n = ⌊noteFormula sampleRate n + 1 / 2⌋₊ := by
  obtain ⟨hfit, hnext⟩ := noteStep_spec hs hn
  have hpos : 0 ≤ noteFormula sampleRate n := by rw [noteFormula]; positivity
  exact eq_round_of_powers (by decide) hpos ((pow_le_noteFormula_iff hs n _).2 hfit)
    (not_le.1 fun h => absurd ((pow_le_noteFormula_iff hs n _).1 h) (not_le.2 hnext))

/-- From 12544 Hz on 32 bits hold every note's phase step (R31). -/
theorem noteStep_lt {sampleRate n : Nat} (hs : 12544 ≤ sampleRate) (hn : n < 128) : noteStep sampleRate n < 2 ^ 32 := by
  by_contra hge
  obtain ⟨hfit, -⟩ := noteStep_spec (sampleRate := sampleRate) (by omega) hn
  have hlow : (2 ^ 33 - 1) * 12544 ≤ (2 * noteStep sampleRate n - 1) * sampleRate := Nat.mul_le_mul (by omega) hs
  have htop : 2 ^ n ≤ 2 ^ 127 := Nat.pow_le_pow_right two_pos (by omega)
  have hle : ((2 ^ 33 - 1) * 12544) ^ 12 * 2 ^ 69 ≤ (880 * 2 ^ 32) ^ 12 * 2 ^ 127 :=
    (Nat.mul_le_mul_right _ (Nat.pow_le_pow_left hlow 12)).trans (hfit.trans (Nat.mul_le_mul_left _ htop))
  exact absurd hle (by norm_num)

/-- An entry that 32 bits hold is the found phase step. -/
theorem noteRom_of_lt {sampleRate : Nat} {n : BitVec 7} (h : noteStep sampleRate n.toNat < 2 ^ 32) :
    (noteRom sampleRate n).toNat = noteStep sampleRate n.toNat := by
  rw [noteRom, if_pos h, BitVec.toNat_ofNat, Nat.mod_eq_of_lt h]

/-- An entry that 32 bits do not hold is free (notes/assumptions/11.md). -/
theorem noteRom_of_ge {sampleRate : Nat} {n : BitVec 7} (h : 2 ^ 32 ≤ noteStep sampleRate n.toNat) :
    noteRom sampleRate n = Config.freeNoteStep sampleRate n.toNat := by
  rw [noteRom, if_neg (not_lt.2 h)]

end Sys2Proof

open Sys2Proof Sys2Proof.Machine

/-- Settles O36: the formula is `powRom_eq_round`, and the bounds are the table's ends, since it does not decrease. -/
theorem powRomIsTheRoundedExponential : Obligations.PowRomIsTheRoundedExponential := by
  unfold Obligations.PowRomIsTheRoundedExponential
  refine ⟨fun p hp => ⟨powRom_eq_round hp, ?_, ?_⟩, powRom_first, by rw [powRom_unity]; rfl, powRom_last⟩
  · rw [← powRom_first]
    exact powRom_mono (Nat.zero_le p) hp
  · rw [← powRom_last]
    exact powRom_mono (Nat.le_pred_of_lt hp) (by decide)

/-- Settles O37: the formula is `panRom_eq_round`; the four named entries are computed. -/
theorem panRomIsTheRoundedSquareRoot : Obligations.PanRomIsTheRoundedSquareRoot := by
  unfold Obligations.PanRomIsTheRoundedSquareRoot
  exact ⟨panRom_eq_round, by decide +kernel, fun _ _ => panRom_mono⟩

/-- Settles O38: the search finds the rounded formula, and 32 bits hold it at every rate from 12544 Hz on. -/
theorem noteRomIsTheRoundedFormula : Obligations.NoteRomIsTheRoundedFormula := by
  unfold Obligations.NoteRomIsTheRoundedFormula
  refine ⟨fun sampleRate n hs => ?_, fun sampleRate n hs => ?_, by decide +kernel⟩
  · have hround := noteStep_eq_round hs n.isLt
    rw [noteFormula] at hround
    exact ⟨fun h => (noteRom_of_lt (hround ▸ h)).trans hround, fun h => noteRom_of_ge (hround ▸ h)⟩
  · exact (noteRom_of_lt (noteStep_lt hs n.isLt)).trans (noteStep_eq_round (by omega) n.isLt)
end

section
/-! PROOFS. The reference WAVE_ROM (spec/10_state.md R30): three waveforms by their formulas, and the sine's entries by
comparisons of integers with the powers of the Gaussian integer that `cos_sin_pi_div_128` puts near the point at π/128. -/

namespace Sys2Proof

/-- A sample of 16 bits holds its exact value (R10). -/
theorem toInt_ofInt_sample {x : Int} (hlo : -32768 ≤ x) (hhi : x ≤ 32767) : (BitVec.ofInt 16 x).toInt = x := by
  rw [BitVec.toInt_ofInt, Int.bmod_eq_of_le] <;> omega

/-- The sawtooth's samples of a table of 256 (R30). -/
theorem sawWave_sample {k : Nat} (hk : k < 256) :
    ((sawWave 256).getD k 0).toInt = -32768 + ((k * 65536 / 256 : Nat) : Int) := by
  rw [sawWave_getD hk]
  exact toInt_ofInt_sample (by omega) (by omega)

/-- The square's samples of a table of 256 (R30). -/
theorem squareWave_sample {k : Nat} (hk : k < 256) :
    ((squareWave 256).getD k 0).toInt = if k < 128 then 32767 else -32768 := by
  rw [squareWave_getD hk]
  exact toInt_ofInt_sample (by split <;> omega) (by split <;> omega)

/-- The triangle's samples of a table of 256 (R30). -/
theorem triangleWave_sample {k : Nat} (hk : k < 256) :
    ((triangleWave 256).getD k 0).toInt =
      if k < 128 then -32768 + ((k * 131072 / 256 : Nat) : Int) else 32767 - (((k - 128) * 131072 / 256 : Nat) : Int) := by
  rw [triangleWave_getD hk]
  exact toInt_ofInt_sample (by split <;> omega) (by split <;> omega)

/-- The k-th sample of the sine (R30). -/
def sineSample (k : Nat) : Int := (sineWave.getD k 0).toInt

/-- The numerator over 2^(40k) of the rational near sin(π k / 128). -/
def sineNumerator (k : Nat) : Int := (gaussPow 1099180475430 26983366120 k).2

/-- `32767 × sin(π k / 128)` rounds to the sample, also if the rational near the sine is off by 2^-31: the product with 32767
is then off by less than 2^-16, and these are the bounds half a unit about the sample, narrowed by that. -/
def SineBracketed (k : Nat) : Prop :=
  (sineSample k * 2 ^ 16 - 2 ^ 15 + 1) * ((2 ^ (40 * k) : Nat) : Int) ≤ 32767 * 2 ^ 16 * sineNumerator k ∧
  32767 * 2 ^ 16 * sineNumerator k < (sineSample k * 2 ^ 16 + 2 ^ 15 - 1) * ((2 ^ (40 * k) : Nat) : Int)

theorem sineBracketed : ∀ k < 256, SineBracketed k := by
  unfold SineBracketed
  decide +kernel

/-- The sines of the multiples of π/128 are within 2^-31 of the rationals (255 steps, each off by at most 2^-39). -/
theorem sin_near_sineNumerator {k : Nat} (hk : k < 256) :
    |Real.sin (k * (Real.pi / 128)) - sineNumerator k / (2 ^ 40) ^ k| ≤ 1 / 2 ^ 31 := by
  obtain ⟨hcos, hsin⟩ := cos_sin_pi_div_128
  have hclose := sin_mul_close (Real.pi / 128) (2 ^ 40) (1 / 2 ^ 40) 1099180475430 26983366120 (by norm_num) (by norm_num)
    (by rw [Int.cast_ofNat]; exact hcos) (by rw [Int.cast_ofNat]; exact hsin) k
  have hk' : (k : ℝ) ≤ 256 := by exact_mod_cast hk.le
  calc _ ≤ (k : ℝ) * (2 * (1 / 2 ^ 40)) := hclose
    _ ≤ 256 * (2 * (1 / 2 ^ 40)) := mul_le_mul_of_nonneg_right hk' (by norm_num)
    _ = 1 / 2 ^ 31 := by norm_num

/-- The sine's samples are R30's formula, rounded. -/
theorem sineSample_eq_round {k : Nat} (hk : k < 256) :
    sineSample k = ⌊(32767 : ℝ) * Real.sin (2 * Real.pi * k / 256) + 1 / 2⌋ := by
  have hangle : 2 * Real.pi * k / 256 = k * (Real.pi / 128) := by ring
  obtain ⟨hlo, hhi⟩ := sineBracketed k hk
  obtain ⟨hbelow, habove⟩ := abs_le.1 (sin_near_sineNumerator hk)
  have hden : (0 : ℝ) < (2 ^ 40) ^ k := by positivity
  have hlo' : ((sineSample k : ℝ) * 2 ^ 16 - 2 ^ 15 + 1) ≤ 32767 * 2 ^ 16 * (sineNumerator k / (2 ^ 40) ^ k) := by
    rw [← mul_div_assoc, le_div_iff₀ hden, ← pow_mul]
    exact_mod_cast hlo
  have hhi' : 32767 * 2 ^ 16 * (sineNumerator k / (2 ^ 40) ^ k) < ((sineSample k : ℝ) * 2 ^ 16 + 2 ^ 15 - 1) := by
    rw [← mul_div_assoc, div_lt_iff₀ hden, ← pow_mul]
    exact_mod_cast hhi
  rw [hangle, eq_comm, Int.floor_eq_iff]
  constructor <;> linarith

/-- The reference WAVE_ROM's four tables have 2^TABLE_BITS = 256 samples (R30). -/
theorem referenceWaves_length (w : Fin 4) : (Config.reference.waveRom[w]).length = 256 := by
  fin_cases w
  · exact sineWave_length
  · exact sawWave_length 256
  · exact squareWave_length 256
  · exact triangleWave_length 256

/-- The sine's samples sum to 0 (R30). -/
theorem sineWave_sum : (sineWave.map BitVec.toInt).sum = 0 := by decide +kernel

/-- The sine's samples are antisymmetric about the middle of the table (R30). -/
theorem sineSample_antisymmetric : ∀ k < 256, 1 ≤ k → sineSample k = -sineSample (256 - k) := by decide +kernel

end Sys2Proof

open Sys2Proof Sys2Proof.Machine

/-- Settles O58: the sine's entries are R30's formula by `sineSample_eq_round`, the other three by their definitions; the
sine's sum and antisymmetry are computed from its table. -/
theorem referenceWavesFollowTheFormulas : Obligations.ReferenceWavesFollowTheFormulas := by
  unfold Obligations.ReferenceWavesFollowTheFormulas
  exact ⟨referenceWaves_length,
    fun k hk => ⟨sineSample_eq_round hk, sawWave_sample hk, squareWave_sample hk, triangleWave_sample hk⟩,
    sineWave_sum, fun k h1 hk => sineSample_antisymmetric k hk h1⟩
end

section
/-! PROOFS. The register window (spec/20_memory.md R61, R65, R71): which accesses decode, and what a host step makes of an
access that does and of one that does not. -/

namespace Sys2Proof

/-- An aligned offset below 0x0010 is one of the four registers' (R61). -/
theorem le_of_not_mem_registers {off : Nat} (h4 : off % 4 = 0) (hreg : off ∉ [offEvent, offRender, offStatus, offCtrl]) :
    0x0010 ≤ off := by
  simp only [offEvent, offRender, offStatus, offCtrl, List.mem_cons, List.not_mem_nil, or_false, not_or] at hreg
  omega

/-- The map gives every aligned offset a well-formed reading command (R61, R62). -/
theorem decodeRead_wellFormed {off : Nat} (h4 : off % 4 = 0) : (decodeRead off).wellFormed = true := by
  rcases decodeRead_cases off with ⟨-, e⟩ | ⟨-, e⟩ | ⟨-, e⟩ | ⟨-, e⟩ | ⟨-, e⟩ | ⟨-, -, e⟩ | ⟨hlt, hreg, hvoice, e⟩ <;> rw [e]
  · rfl
  · rfl
  · rfl
  · rfl
  · rfl
  · rfl
  · have hge : 0x0010 ≤ off := le_of_not_mem_registers h4 hreg
    simp only [offOutbuf, offVoiceStat, offVoiceStatEnd] at hlt hvoice
    simp only [Instr.wellFormed, ReservedRead, decide_eq_true_eq, BitVec.toNat_ofNat]
    omega

/-- The map gives every aligned offset a well-formed writing command (R61, R62). -/
theorem decodeWrite_wellFormed {off : Nat} (h4 : off % 4 = 0) (w : Word) : (decodeWrite off w).wellFormed = true := by
  rcases decodeWrite_cases off w with ⟨-, e⟩ | ⟨-, e⟩ | ⟨-, e⟩ | ⟨-, e⟩ | ⟨-, e⟩ | ⟨hlt, hreg, e⟩ <;> rw [e]
  · rfl
  · rfl
  · rfl
  · rfl
  · rfl
  · have hge : 0x0010 ≤ off := le_of_not_mem_registers h4 hreg
    simp only [offOutbuf] at hlt
    simp only [Instr.wellFormed, ReservedWrite, decide_eq_true_eq, BitVec.toNat_ofNat]
    omega

/-- An access of another width than 32 bits does not decode (R65). -/
theorem decodeAccess_notWord {base : Nat} {a : Access} (hbits : a.bits ≠ 32) : decodeAccess base a = .error .notWord := by
  rw [decodeAccess, if_pos hbits]

/-- A 32-bit access inside the window at an offset that is not a multiple of 4 does not decode (R65). -/
theorem decodeAccess_misaligned {base : Nat} {a : Access} (hbits : a.bits = 32) (hlo : base ≤ a.addr)
    (hhi : a.addr < base + windowBytes) (h4 : (a.addr - base) % 4 ≠ 0) : decodeAccess base a = .error .misaligned := by
  have hin : ¬ (a.addr < base ∨ base + windowBytes ≤ a.addr) := by omega
  rw [decodeAccess, if_neg (not_not.2 hbits), if_neg hin, if_pos h4]

namespace Machine

/-- A host step is the command that its access decodes to (R71). -/
theorem step_host_of_ok {s : State} {a : Access} {ts : List Turn} {i : Instr} (hl : s.cfg.legal = true)
    (ha : s.agenda = .host a :: ts) (hd : decodeAccess s.cfg.coreBase a = .ok i) : step s = exec i (s.setAgenda ts) := by
  rw [step_of_cons hl ha]
  simp only [takeTurn, hostTurn, State.setAgenda_cfg, hd]

/-- A host step is refused for the reason that its access does not decode (R65). -/
theorem step_host_of_error {s : State} {a : Access} {ts : List Turn} {r : Reject} (hl : s.cfg.legal = true)
    (ha : s.agenda = .host a :: ts) (hd : decodeAccess s.cfg.coreBase a = .error r) : step s = .refused (refusalOf r) := by
  rw [step_of_cons hl ha]
  simp only [takeTurn, hostTurn, State.setAgenda_cfg, hd]

end Machine

end Sys2Proof

open Sys2Proof Sys2Proof.Machine

/-- Settles O3: what is admitted decodes by the map, whose commands are well formed, and what decodes was admitted. -/
theorem exactlyTheAdmittedAccessesDecode : Obligations.ExactlyTheAdmittedAccessesDecode := by
  unfold Obligations.ExactlyTheAdmittedAccessesDecode
  intro base a
  constructor
  · intro had
    have hd := decodeAccess_admitted had
    obtain ⟨-, -, -, h4⟩ := had
    refine ⟨_, hd, ?_⟩
    cases a.kind with
    | read => exact decodeRead_wellFormed h4
    | write => exact decodeWrite_wellFormed h4 a.data
  · intro hnot
    cases hd : decodeAccess base a with
    | ok i => exact absurd (admitted_of_decodeAccess hd) hnot
    | error r => exact ⟨r, rfl⟩

/-- Settles O10: the access does not decode, and the step is refused for the decoder's reason. -/
theorem unadmittedAccessIsRefused : Obligations.UnadmittedAccessIsRefused := by
  unfold Obligations.UnadmittedAccessIsRefused
  intro s a ts hl ha
  exact ⟨fun hbits => step_host_of_error hl ha (decodeAccess_notWord hbits),
    fun hbits hlo hhi h4 => step_host_of_error hl ha (decodeAccess_misaligned hbits hlo hhi h4)⟩

/-- Settles O6: the agenda's head is the host's turn, and its access decodes. -/
theorem hostStepRunsTheDecodedCommand : Obligations.HostStepRunsTheDecodedCommand := by
  unfold Obligations.HostStepRunsTheDecodedCommand
  intro s a ts i hl ha hd
  exact step_host_of_ok hl ha hd
end

section
/-! PROOFS. What the host's accesses reach: the words of OUTBUF and their bytes (spec/20_memory.md R62 to R64, R72), and
nothing of the engine (R66, R70). -/

namespace Sys2Proof.Machine

/-! ## OUTBUF's commands, inside the buffer and above it -/

/-- A read of a word of the buffer is refused while a render is in progress and returns the word otherwise (R72, R206). -/
theorem exec_outbufRd_inside {k : BitVec 10} {s : State} (hk : k.toNat < 2 * s.cfg.maxFrames) :
    exec (.outbufRd k) s =
      if s.busy then .refused .outbufWhileBusy else .next (s.setHostData (s.outWord k.toNat)) := by
  simp only [exec, execOutbufRd, outbufHas, hk, decide_true, if_true, returnWord]

/-- A write to a word of the buffer is refused while a render is in progress and is done otherwise (R72, R206). -/
theorem exec_outbufWr_inside {k : BitVec 10} {s : State} (w : Word) (hk : k.toNat < 2 * s.cfg.maxFrames) :
    exec (.outbufWr k w) s =
      if s.busy then .refused .outbufWhileBusy else .next (s.setOutbuf (outWrite s.outbuf k.toNat w)) := by
  simp only [exec, execOutbufWr, outbufHas, hk, decide_true, if_true]

/-- A read above the buffer returns 0, busy or not (R62). -/
theorem exec_outbufRd_above {k : BitVec 10} {s : State} (hk : 2 * s.cfg.maxFrames ≤ k.toNat) :
    exec (.outbufRd k) s = .next (s.setHostData 0) := by
  simp only [exec, execOutbufRd, outbufHas, not_lt.2 hk, decide_false, Bool.false_eq_true, if_false, returnWord]

/-- A write above the buffer is ignored, busy or not (R62). -/
theorem exec_outbufWr_above {k : BitVec 10} {s : State} (w : Word) (hk : 2 * s.cfg.maxFrames ≤ k.toNat) :
    exec (.outbufWr k w) s = .next s := by
  simp only [exec, execOutbufWr, outbufHas, not_lt.2 hk, decide_false, Bool.false_eq_true, if_false]

/-! ## The bytes of a word -/

/-- After a word write, byte j of the word's four is byte j of the value written (R64). -/
theorem outByte_outWrite_inside (e : Nat) (m : List Host.Cell) (k : Nat) (v : Word) {j : Nat} (hj : j < 4) :
    outByte e (outWrite m k v) (outAddr k + j) = v.extractLsb' (8 * j) 8 := by
  rw [← outRead_byte e _ k hj, outRead_outWrite_same]

/-! ## Frames -/

/-- A host's access changes no channel record (R66, R70). -/
theorem hostAccess_channels {s t : State} {base : Nat} {a : Access} {i : Instr} (hd : decodeAccess base a = .ok i)
    (h : exec i s = .next t) : t.channels = s.channels := by
  rcases hostAccess_cases hd h with ⟨-, w, rfl | rfl⟩ | ⟨-, -, -, hw⟩
  · rfl
  · rfl
  · rcases exec_decodeWrite hw with rfl | ⟨-, rfl⟩ | rfl | ⟨-, rfl⟩ | rfl | ⟨-, rfl⟩ | rfl | ⟨-, -, rfl⟩ <;> rfl

/-- A host's read leads to a state with another returned word, and at most one more drawn value (R66, R205). -/
theorem hostAccess_read {s t : State} {base : Nat} {a : Access} {i : Instr} (hk : a.kind = .read)
    (hd : decodeAccess base a = .ok i) (h : exec i s = .next t) :
    ∃ w, t = s.setHostData w ∨ t = (s.setDraws (s.draws + 1)).setHostData w := by
  rcases hostAccess_cases hd h with ⟨-, hread⟩ | ⟨hwrite, -⟩
  · exact hread
  · rw [hk] at hwrite
    cases hwrite

end Sys2Proof.Machine

open Sys2Proof Sys2Proof.Machine

/-- Settles O12: OUTBUF's commands inside the buffer, where a busy CORE refuses them, and above it. -/
theorem outbufIsRefusedWhileBusy : Obligations.OutbufIsRefusedWhileBusy := by
  unfold Obligations.OutbufIsRefusedWhileBusy
  intro k w s hbusy
  refine ⟨fun hk => ?_, fun hk => ⟨exec_outbufRd_above hk, exec_outbufWr_above w hk⟩⟩
  rw [exec_outbufRd_inside hk, exec_outbufWr_inside w hk, if_pos hbusy, if_pos hbusy]
  exact ⟨rfl, rfl⟩

/-- Settles O31: a word's bytes are `outRead_byte`'s, also of the word that OUTBUF_WR has written. -/
theorem outbufIsLittleEndian : Obligations.OutbufIsLittleEndian := by
  unfold Obligations.OutbufIsLittleEndian
  refine ⟨fun s k j hj => outRead_byte s.outbufEpoch s.outbuf k hj, fun k w s t hk he j hj => ?_⟩
  rw [exec_outbufWr_inside w hk] at he
  split at he
  · cases he
  · cases he
    exact outByte_outWrite_inside s.outbufEpoch s.outbuf k.toNat w hj

/-- Settles O32: every access keeps the configuration, the voices and the channels, and a read's two outcomes differ from the
state before in the model's own fields only. -/
theorem hostAccessesLeaveTheEngineAlone : Obligations.HostAccessesLeaveTheEngineAlone := by
  unfold Obligations.HostAccessesLeaveTheEngineAlone
  intro base a i s t hd he
  obtain ⟨hcfg, hvoices⟩ := hostAccess_cfg_voices hd he
  refine ⟨hcfg, hostAccess_channels hd he, hvoices, fun hread => ?_⟩
  obtain ⟨w, rfl | rfl⟩ := hostAccess_read hread hd he
  · exact ⟨rfl, ⟨rfl, rfl, rfl⟩, ⟨rfl, rfl, rfl⟩, rfl, fun _ => rfl, rfl, rfl⟩
  · exact ⟨rfl, ⟨rfl, rfl, rfl⟩, ⟨rfl, rfl, rfl⟩, rfl, fun _ => rfl, rfl, rfl⟩
end

section
/-! PROOFS. The encodings (spec/30_encoding.md R80 to R86): the opcode map row by row, the registers and ranges of the address
map at the offsets that the encoder writes, and the fields of a patch record. -/

namespace Sys2Proof

/-! ## The opcode map, row by row (R82) -/

theorem decodeEvent_nonStatus {w : EventWord} (h : (eventCommand w).toNat < 8) : decodeEvent w = .nonStatus := by
  unfold decodeEvent
  split
  case h_9 => rfl
  all_goals omega

theorem decodeEvent_noteOff {w : EventWord} (h : eventCommand w = 0x8) :
    decodeEvent w = .noteOff (eventChannel w) (eventData1 w) (eventData2 w) := by
  simp [decodeEvent, h]

theorem decodeEvent_noteOnV0 {w : EventWord} (h : eventCommand w = 0x9) (hv : eventData2 w = 0) :
    decodeEvent w = .noteOnV0 (eventChannel w) (eventData1 w) := by
  simp [decodeEvent, h, hv]

theorem decodeEvent_noteOn {w : EventWord} (h : eventCommand w = 0x9) (hv : eventData2 w ≠ 0) :
    decodeEvent w = .noteOn (eventChannel w) (eventData1 w) (eventData2 w) := by
  simp only [decodeEvent, h, if_neg hv]
  rfl

theorem decodeEvent_polyPressure {w : EventWord} (h : eventCommand w = 0xA) : decodeEvent w = .polyPressure := by
  simp [decodeEvent, h]

theorem decodeEvent_controlChange {w : EventWord} (h : eventCommand w = 0xB) :
    decodeEvent w = .controlChange (eventChannel w) (eventData1 w) (eventData2 w) := by
  simp [decodeEvent, h]

theorem decodeEvent_programChange {w : EventWord} (h : eventCommand w = 0xC) :
    decodeEvent w = .programChange (eventChannel w) (eventData1 w) := by
  simp [decodeEvent, h]

theorem decodeEvent_channelPressure {w : EventWord} (h : eventCommand w = 0xD) :
    decodeEvent w = .channelPressure (eventChannel w) (eventData1 w) := by
  simp [decodeEvent, h]

theorem decodeEvent_pitchBend {w : EventWord} (h : eventCommand w = 0xE) :
    decodeEvent w = .pitchBend (eventChannel w) (eventData1 w) (eventData2 w) := by
  simp [decodeEvent, h]

theorem decodeEvent_system {w : EventWord} (h : eventCommand w = 0xF) : decodeEvent w = .system := by
  simp [decodeEvent, h]

/-! ## The map's masks (R82) -/

/-- A mask keeps a field that it covers. -/
theorem extract_and_of_covered {n : Nat} (w : BitVec n) {mask : BitVec n} {start len : Nat}
    (h : mask.extractLsb' start len = BitVec.allOnes len) :
    (w &&& mask).extractLsb' start len = w.extractLsb' start len := by
  rw [BitVec.extractLsb'_and, h, BitVec.and_allOnes]

/-- Under a mask that covers the command nibble, a word's command is its row's. -/
theorem eventCommand_of_masked {w mask row : EventWord} (hw : w &&& mask = row) (hmask : eventCommand mask = 0xF) :
    eventCommand w = eventCommand row := by
  rw [← hw]
  exact (extract_and_of_covered w hmask).symm

/-- Under a mask that covers the second data value, a word's value is its row's. -/
theorem eventData2_of_masked {w mask row : EventWord} (hw : w &&& mask = row) (hmask : eventData2 mask = 0x7F) :
    eventData2 w = eventData2 row := by
  rw [← hw]
  exact (extract_and_of_covered w hmask).symm

/-- A word whose bit 23 is clear has a command below 8 (R81). -/
theorem eventCommand_lt_of_masked {w : EventWord} (hw : w &&& 0x800000#24 = 0x000000#24) : (eventCommand w).toNat < 8 := by
  have hbit : w.extractLsb' 23 1 = 0#1 := by
    rw [← extract_and_of_covered w (mask := 0x800000#24) (by decide), hw]
    rfl
  have hbit' := congrArg BitVec.toNat hbit
  rw [toNat_extract, BitVec.toNat_ofNat] at hbit'
  rw [eventCommand, toNat_extract]
  omega

/-! ## The address map at the encoder's offsets (R61) -/

/-- A read that the encoder writes decodes to what the map gives its offset. -/
theorem decode_readAccess {base off : Nat} {i : Instr} (h : off < windowBytes) (h4 : off % 4 = 0) (hi : decodeRead off = i) :
    decode base (.access (readAccess base off)) = .ok i := by
  rw [decode, decodeAccess_readAccess base off h h4, hi]

/-- A write that the encoder writes decodes to what the map gives its offset and word. -/
theorem decode_writeAccess {base off : Nat} {w : Word} {i : Instr} (h : off < windowBytes) (h4 : off % 4 = 0)
    (hi : decodeWrite off w = i) : decode base (.access (writeAccess base off w)) = .ok i := by
  rw [decode, decodeAccess_writeAccess base off w h h4, hi]

/-- An OUTBUF word's offset is an aligned one of the window (R61, R63). -/
theorem outbufOffset_admitted (k : BitVec 10) :
    offOutbuf + 4 * k.toNat < windowBytes ∧ (offOutbuf + 4 * k.toNat) % 4 = 0 := by
  have hk := k.isLt
  simp only [offOutbuf, windowBytes]
  omega

/-- A VOICE_STAT word's offset is an aligned one of the window, below VOICE_STAT's end (R61, R205). -/
theorem voiceStatOffset_admitted (i : BitVec 8) (word1 : Bool) :
    offVoiceStat + 8 * i.toNat + 4 * word1.toNat < windowBytes ∧
    (offVoiceStat + 8 * i.toNat + 4 * word1.toNat) % 4 = 0 ∧
    offVoiceStat + 8 * i.toNat + 4 * word1.toNat < offVoiceStatEnd := by
  have hi := i.isLt
  have hw := word1.toNat_le
  simp only [offVoiceStat, windowBytes, offVoiceStatEnd]
  omega

/-- The offset of an OUTBUF word names that word (R206). -/
theorem outbufIndex_word (k : BitVec 10) : outbufIndex (offOutbuf + 4 * k.toNat) = k := by
  rw [outbufIndex, Nat.add_sub_cancel_left, Nat.mul_div_cancel_left _ (by decide), BitVec.ofNat_toNat, BitVec.setWidth_eq]

/-- The offset of a VOICE_STAT word names its voice (R205). -/
theorem voiceStatIndex_word (i : BitVec 8) (word1 : Bool) :
    voiceStatIndex (offVoiceStat + 8 * i.toNat + 4 * word1.toNat) = i := by
  have hw := word1.toNat_le
  have hi : (offVoiceStat + 8 * i.toNat + 4 * word1.toNat - offVoiceStat) / 8 = i.toNat := by omega
  rw [voiceStatIndex, hi, BitVec.ofNat_toNat, BitVec.setWidth_eq]

/-- The offset of a VOICE_STAT word names which of the two words it is (R205). -/
theorem voiceStatWord1_word (i : BitVec 8) (word1 : Bool) :
    voiceStatWord1 (offVoiceStat + 8 * i.toNat + 4 * word1.toNat) = word1 := by
  have hw : (offVoiceStat + 8 * i.toNat + 4 * word1.toNat) / 4 % 2 = word1.toNat := by
    have := word1.toNat_le
    simp only [offVoiceStat]
    omega
  rw [voiceStatWord1, hw]
  cases word1 <;> rfl

theorem decodeRead_outbuf {off : Nat} (h : offOutbuf ≤ off) : decodeRead off = .outbufRd (outbufIndex off) := by
  simp only [offOutbuf] at h
  simp only [decodeRead, offEvent, offRender, offStatus, offCtrl, offOutbuf]
  rw [if_neg (by omega), if_neg (by omega), if_neg (by omega), if_neg (by omega), if_pos h]

theorem decodeRead_voiceStat {off : Nat} (h : offVoiceStat ≤ off) (h' : off < offVoiceStatEnd) :
    decodeRead off = .voiceStatRd (voiceStatIndex off) (voiceStatWord1 off) := by
  simp only [offVoiceStat, offVoiceStatEnd] at h h'
  simp only [decodeRead, offEvent, offRender, offStatus, offCtrl, offOutbuf, offVoiceStat, offVoiceStatEnd]
  rw [if_neg (by omega), if_neg (by omega), if_neg (by omega), if_neg (by omega), if_neg (by omega), if_pos ⟨h, h'⟩]

/-- A read of a reserved offset (R62) keeps the offset. -/
theorem decodeRead_reserved {off : BitVec 13} (h : ReservedRead off) : decodeRead off.toNat = .reservedRd off := by
  obtain ⟨-, hrange⟩ := h
  simp only [decodeRead, offEvent, offRender, offStatus, offCtrl, offOutbuf, offVoiceStat, offVoiceStatEnd]
  rw [if_neg (by omega), if_neg (by omega), if_neg (by omega), if_neg (by omega), if_neg (by omega), if_neg (by omega),
    BitVec.ofNat_toNat, BitVec.setWidth_eq]

theorem decodeWrite_outbuf {off : Nat} (h : offOutbuf ≤ off) (w : Word) :
    decodeWrite off w = .outbufWr (outbufIndex off) w := by
  simp only [offOutbuf] at h
  simp only [decodeWrite, offEvent, offRender, offStatus, offCtrl, offOutbuf]
  rw [if_neg (by omega), if_neg (by omega), if_neg (by omega), if_neg (by omega), if_pos h]

/-- A write to a reserved or read-only offset (R62) keeps the offset. -/
theorem decodeWrite_reserved {off : BitVec 13} (h : ReservedWrite off) (w : Word) :
    decodeWrite off.toNat w = .reservedWr off := by
  obtain ⟨-, hlo, hhi⟩ := h
  simp only [decodeWrite, offEvent, offRender, offStatus, offCtrl, offOutbuf]
  rw [if_neg (by omega), if_neg (by omega), if_neg (by omega), if_neg (by omega), if_neg (by omega),
    BitVec.ofNat_toNat, BitVec.setWidth_eq]

theorem decodeWrite_event (e : EventWord) : decodeWrite offEvent (0#8 ++ e) = .eventWr e :=
  congrArg Instr.eventWr (extract_append_low 0#8 e)

theorem decodeWrite_render (frames : BitVec 16) : decodeWrite offRender (0#16 ++ frames) = .renderWr frames :=
  congrArg Instr.renderWr (extract_append_low 0#16 frames)

theorem decodeWrite_status (d e r : Bool) : decodeWrite offStatus (statusWriteWord d e r) = .statusWr d e r := by
  cases d <;> cases e <;> cases r <;> rfl

theorem decodeWrite_ctrl (ie : Bool) : decodeWrite offCtrl (0#31 ++ BitVec.ofBool ie) = .ctrlWr ie := by
  cases ie <;> rfl

/-! ## Patch records (R84) -/

theorem patchField7_toNat (r : Vector Byte 16) (b : Fin 16) : (patchField7 r b).toNat = r[b].toNat % 128 := by
  rw [patchField7, toNat_extract, pow_zero, Nat.div_one]
  rfl

theorem patchField2_toNat (r : Vector Byte 16) (b : Fin 16) : (patchField2 r b).toNat = r[b].toNat % 4 := by
  rw [patchField2, toNat_extract, pow_zero, Nat.div_one]
  rfl

/-- Bit 0 of a byte says whether its number is odd. -/
theorem getLsbD_zero_iff_mod_two (x : Byte) : x.getLsbD 0 = true ↔ x.toNat % 2 = 1 := by
  rw [BitVec.getLsbD, Nat.testBit_zero, decide_eq_true_iff]

end Sys2Proof

open Sys2Proof Sys2Proof.Machine

/-- Settles O2: an event row by its command nibble, a host-access row by what the map gives its offset. -/
theorem decodeOfEncodeIsTheCommand : Obligations.DecodeOfEncodeIsTheCommand := by
  unfold Obligations.DecodeOfEncodeIsTheCommand
  intro base i hwf
  cases i with
  | nonStatus => rfl
  | noteOff c n v => simp [decode, encode, decodeEvent_noteOff]
  | noteOnV0 c n => simp [decode, encode, decodeEvent_noteOnV0]
  | noteOn c n v =>
    have hv : v ≠ 0 := of_decide_eq_true hwf
    have hd2 : eventData2 (eventWord 0x9 c n v) ≠ 0 := by rwa [eventData2_eventWord]
    rw [encode, decode, decodeEvent_noteOn (eventCommand_eventWord 0x9 c n v) hd2, eventChannel_eventWord,
      eventData1_eventWord, eventData2_eventWord]
  | polyPressure => rfl
  | controlChange c k v => simp [decode, encode, decodeEvent_controlChange]
  | programChange c p => simp [decode, encode, decodeEvent_programChange]
  | channelPressure c p => simp [decode, encode, decodeEvent_channelPressure]
  | pitchBend c l m => simp [decode, encode, decodeEvent_pitchBend]
  | system => rfl
  | eventWr e => exact decode_writeAccess (by decide) (by decide) (decodeWrite_event e)
  | eventRd => exact decode_readAccess (by decide) (by decide) rfl
  | renderWr frames => exact decode_writeAccess (by decide) (by decide) (decodeWrite_render frames)
  | renderRd => exact decode_readAccess (by decide) (by decide) rfl
  | statusRd => exact decode_readAccess (by decide) (by decide) rfl
  | statusWr d e r => exact decode_writeAccess (by decide) (by decide) (decodeWrite_status d e r)
  | ctrlRd => exact decode_readAccess (by decide) (by decide) rfl
  | ctrlWr ie => exact decode_writeAccess (by decide) (by decide) (decodeWrite_ctrl ie)
  | voiceStatRd i word1 =>
    obtain ⟨hin, h4, hend⟩ := voiceStatOffset_admitted i word1
    refine decode_readAccess hin h4 ?_
    rw [decodeRead_voiceStat (by omega) hend, voiceStatIndex_word, voiceStatWord1_word]
  | outbufRd k =>
    obtain ⟨hin, h4⟩ := outbufOffset_admitted k
    refine decode_readAccess hin h4 ?_
    rw [decodeRead_outbuf (Nat.le_add_right _ _), outbufIndex_word]
  | outbufWr k w =>
    obtain ⟨hin, h4⟩ := outbufOffset_admitted k
    refine decode_writeAccess hin h4 ?_
    rw [decodeWrite_outbuf (Nat.le_add_right _ _), outbufIndex_word]
  | reservedRd off =>
    have hoff : ReservedRead off := of_decide_eq_true hwf
    exact decode_readAccess off.isLt hoff.1 (decodeRead_reserved hoff)
  | reservedWr off =>
    have hoff : ReservedWrite off := of_decide_eq_true hwf
    exact decode_writeAccess off.isLt hoff.1 (decodeWrite_reserved hoff 0)

/-- Settles O1: under a row's mask the command nibble is the row's, and the nibble selects the row. -/
theorem eventRowsFollowTheOpcodeMap : Obligations.EventRowsFollowTheOpcodeMap := by
  unfold Obligations.EventRowsFollowTheOpcodeMap
  intro w
  refine ⟨fun h => decodeEvent_nonStatus (eventCommand_lt_of_masked h), fun h => ?noteOff, fun h => ?noteOnV0,
    fun h hv => ?noteOn, fun h => ?polyPressure, fun h => ?controlChange, fun h => ?programChange,
    fun h => ?channelPressure, fun h => ?pitchBend, fun h => ?system⟩
  case noteOff => exact decodeEvent_noteOff (eventCommand_of_masked h (by decide))
  case noteOnV0 =>
    exact decodeEvent_noteOnV0 (eventCommand_of_masked h (by decide)) (eventData2_of_masked h (by decide))
  case noteOn => exact decodeEvent_noteOn (eventCommand_of_masked h (by decide)) hv
  case polyPressure => exact decodeEvent_polyPressure (eventCommand_of_masked h (by decide))
  case controlChange => exact decodeEvent_controlChange (eventCommand_of_masked h (by decide))
  case programChange => exact decodeEvent_programChange (eventCommand_of_masked h (by decide))
  case channelPressure => exact decodeEvent_channelPressure (eventCommand_of_masked h (by decide))
  case pitchBend => exact decodeEvent_pitchBend (eventCommand_of_masked h (by decide))
  case system => exact decodeEvent_system (eventCommand_of_masked h (by decide))

/-- Settles O4: each field is its byte's low bits as a number, and a record written from a patch decodes to that patch. -/
theorem patchRecordLayout : Obligations.PatchRecordLayout := by
  unfold Obligations.PatchRecordLayout
  refine ⟨fun r => ?_, decodePatch_encodePatch, rfl⟩
  exact ⟨patchField2_toNat r 0, patchField7_toNat r 1, patchField7_toNat r 2, patchField7_toNat r 3,
    patchField7_toNat r 4, patchField7_toNat r 5, getLsbD_zero_iff_mod_two r[6], patchField7_toNat r 7,
    patchField7_toNat r 8, patchField7_toNat r 9, patchField7_toNat r 10, rfl, patchField2_toNat r 12,
    patchField7_toNat r 13, patchField7_toNat r 14⟩

/-- Settles O5: the decoders computed on the words. -/
theorem writtenOutWordsDecode : Obligations.WrittenOutWordsDecode := by
  unfold Obligations.WrittenOutWordsDecode
  decide
end

section
/-! PROOFS. The voice events (spec/40_voice_events.md R100 to R107): the allocator's answers, what NOTE_OFF and NOTE_ON write,
and that no event takes a voice out of use. -/

namespace Sys2Proof.Machine

/-! ## Frames -/

/-- Everything but the voice file is unchanged. -/
abbrev VoicesOnly (s t : State) : Prop :=
  SameConfig s t ∧ SameChannels s t ∧ SameFifo s t ∧ SameSequencer s t ∧ SameSticky s t ∧ SameCtrl s t ∧ SameMemory s t ∧
    SameOwn s t ∧ SameHostData s t

theorem voicesOnly_refl (s : State) : VoicesOnly s s :=
  ⟨rfl, rfl, rfl, ⟨rfl, rfl, rfl⟩, ⟨rfl, rfl, rfl⟩, rfl, fun _ => rfl, ⟨rfl, rfl, rfl⟩, rfl⟩

theorem voicesOnly_setVoices (s : State) (vs : List Voice) : VoicesOnly s (s.setVoices vs) := voicesOnly_refl s

theorem voicesOnly_releaseNote (c : BitVec 4) (n : BitVec 7) (s : State) : VoicesOnly s (releaseNote c n s) :=
  voicesOnly_setVoices s _

theorem voicesOnly_noteOn (c : BitVec 4) (n vel : BitVec 7) (s : State) : VoicesOnly s (noteOn c n vel s) := by
  rcases noteOn_cases c n vel s with e | ⟨i, v, -, -, e⟩ | ⟨i, v, -, -, e⟩ <;> rw [e]
  · exact voicesOnly_refl s
  · exact voicesOnly_setVoices s _
  · exact voicesOnly_setVoices s _

/-! ## Release -/

theorem plays_iff (c : BitVec 4) (n : BitVec 7) (v : Voice) :
    plays c n v = true ↔ v.inUse = true ∧ v.channel = c ∧ v.note = n := by
  simp only [plays, Bool.and_eq_true, beq_iff_eq]

/-- A release acts voice by voice (R105). -/
theorem releaseNote_voice? (c : BitVec 4) (n : BitVec 7) (s : State) (i : Nat) :
    (releaseNote c n s).voice? i = (s.voice? i).map fun v => if plays c n v then releaseVoice v else v :=
  List.getElem?_map

/-! ## Allocation -/

/-- A search finds the first position that passes its test. -/
theorem findIdx?_eq_some_of_getElem? {α : Type} {vs : List α} {p : α → Bool} {i : Nat} {v : α} (hi : vs[i]? = some v)
    (hp : p v = true) (hbelow : ∀ j u, j < i → vs[j]? = some u → p u = false) : vs.findIdx? p = some i := by
  obtain ⟨hlt, rfl⟩ := List.getElem?_eq_some_iff.1 hi
  refine List.findIdx?_eq_some_iff_getElem.2 ⟨hlt, hp, fun j hj => ?_⟩
  simp [hbelow j _ hj (List.getElem?_eq_getElem (hj.trans hlt))]

/-- No voice is free when all are in use: pass 1 of `Allocate` finds none (R103). -/
theorem freeVoice_eq_none {vs : List Voice} (h : ∀ v ∈ vs, v.inUse = true) : freeVoice vs = none :=
  List.findIdx?_eq_none_iff.2 fun v hv => by simp [h v hv]

/-- `Allocate` drops the note when all voices are in use and none is releasable (R103). -/
theorem allocate_eq_none {vs : List Voice} (h : ∀ v ∈ vs, v.inUse = true ∧ v.releasable = false) : allocate vs = none := by
  have hfree : freeVoice vs = none := freeVoice_eq_none fun v hv => (h v hv).1
  have hsteal : stealableVoice vs = none := List.findIdx?_eq_none_iff.2 fun v hv => (h v hv).2
  simp only [allocate, hfree, hsteal]

/-- `Allocate` takes voice `i`, and leaves it at rest and every other voice as it was. -/
def AllocatesAtRest (vs : List Voice) (i : Nat) : Prop :=
  ∃ ws, allocate vs = some (ws, i) ∧ ws[i]? = some .atRest ∧ ∀ j, j ≠ i → ws[j]? = vs[j]?

/-- Pass 1 of `Allocate`: the lowest free voice, which is at rest already (R103). -/
theorem allocatesAtRest_of_free {vs : List Voice} {i : Nat} (hi : vs[i]? = some .atRest)
    (hbelow : ∀ j v, j < i → vs[j]? = some v → v.inUse = true) : AllocatesAtRest vs i := by
  have hfree : freeVoice vs = some i :=
    findIdx?_eq_some_of_getElem? hi rfl fun j v hj hv => by simp [hbelow j v hj hv]
  exact ⟨vs, by simp only [allocate, hfree], hi, fun _ _ => rfl⟩

/-- Pass 2 of `Allocate`: the lowest releasable voice, put to rest (R103, R104). -/
theorem allocatesAtRest_of_stealable {vs : List Voice} {i : Nat} {old : Voice} (huse : ∀ v ∈ vs, v.inUse = true)
    (hi : vs[i]? = some old) (hold : old.releasable = true)
    (hbelow : ∀ j v, j < i → vs[j]? = some v → v.releasable = false) : AllocatesAtRest vs i := by
  have hsteal : stealableVoice vs = some i := findIdx?_eq_some_of_getElem? hi hold hbelow
  have hlt : i < vs.length := (List.getElem?_eq_some_iff.1 hi).1
  exact ⟨deallocate vs i, by simp only [allocate, freeVoice_eq_none huse, hsteal], List.getElem?_set_self hlt,
    fun j hj => List.getElem?_set_ne hj.symm⟩

/-! ## NOTE_ON -/

/-- NOTE_ON starts the voice that `Allocate` put at rest, and leaves every other voice as it was (R102). -/
theorem noteOn_of_allocatesAtRest {s : State} {i : Nat} (h : AllocatesAtRest s.voices i) (c : BitVec 4) (n vel : BitVec 7) :
    (noteOn c n vel s).voice? i =
      some (startVoice s.cfg c n vel (patchIndex s.cfg (s.channel c).program) .atRest) ∧
    ∀ j, j ≠ i → (noteOn c n vel s).voice? j = s.voice? j := by
  obtain ⟨ws, ha, hi, hother⟩ := h
  simp only [noteOn, ha, State.voice?, State.setVoices_voices]
  constructor
  · rw [List.getElem?_modify_eq, hi]
    rfl
  · intro j hj
    rw [List.getElem?_modify_ne _ _ hj.symm, hother j hj]

/-! ## Voices in use -/

/-- Every voice in use before is in use after. -/
def KeepsInUse (vs ws : List Voice) : Prop :=
  ∀ (i : Nat) (v : Voice), vs[i]? = some v → v.inUse = true → ∃ v' : Voice, ws[i]? = some v' ∧ v'.inUse = true

theorem keepsInUse_refl (vs : List Voice) : KeepsInUse vs vs := fun _ v hi hu => ⟨v, hi, hu⟩

/-- A voice that starts is in use, whatever became of its record before (R102, R104). -/
theorem keepsInUse_start {vs ws : List Voice} {i : Nat} (hlen : ws.length = vs.length) (hother : ∀ j, j ≠ i → ws[j]? = vs[j]?)
    (cfg : Config) (c : BitVec 4) (n vel p : BitVec 7) : KeepsInUse vs (ws.modify i (startVoice cfg c n vel p)) := by
  intro j v hj hu
  by_cases hji : j = i
  · subst hji
    have hlt : j < ws.length := hlen ▸ (List.getElem?_eq_some_iff.1 hj).1
    exact ⟨startVoice cfg c n vel p ws[j], by rw [List.getElem?_modify_eq, List.getElem?_eq_getElem hlt]; rfl, rfl⟩
  · exact ⟨v, by rw [List.getElem?_modify_ne _ _ (Ne.symm hji), hother j hji, hj], hu⟩

theorem keepsInUse_noteOn (c : BitVec 4) (n vel : BitVec 7) (s : State) :
    KeepsInUse s.voices (noteOn c n vel s).voices := by
  rcases noteOn_cases c n vel s with e | ⟨i, v, -, -, e⟩ | ⟨i, v, -, -, e⟩ <;> rw [e]
  · exact keepsInUse_refl s.voices
  · exact keepsInUse_start rfl (fun _ _ => rfl) _ _ _ _ _
  · exact keepsInUse_start List.length_set (fun j hj => List.getElem?_set_ne hj.symm) _ _ _ _ _

/-- A release keeps the voice in use (R105). -/
theorem keepsInUse_releaseNote (c : BitVec 4) (n : BitVec 7) (s : State) :
    KeepsInUse s.voices (releaseNote c n s).voices := by
  intro i v hi hu
  refine ⟨_, (releaseNote_voice? c n s i).trans (congrArg _ hi), ?_⟩
  dsimp only
  split <;> exact hu

/-- Every event keeps the voices in use (R107). -/
theorem keepsInUse_event {w : EventWord} {s t : State} (he : exec (decodeEvent w) s = .next t) :
    KeepsInUse s.voices t.voices := by
  rcases decodeEvent_cases w with e | e | e | ⟨c, n, v, e⟩ | ⟨c, n, e⟩ | ⟨c, n, v, -, e⟩ | ⟨c, k, v, e⟩ | ⟨c, p, e⟩ | ⟨c, p, e⟩ |
    ⟨c, l, m, e⟩ <;> rw [e] at he <;> cases he
  · exact keepsInUse_refl _
  · exact keepsInUse_refl _
  · exact keepsInUse_refl _
  · exact keepsInUse_releaseNote c n s
  · exact keepsInUse_releaseNote c n s
  · exact keepsInUse_noteOn c n v s
  · exact keepsInUse_refl _
  · exact keepsInUse_refl _
  · exact keepsInUse_refl _
  · exact keepsInUse_refl _

/-- Only a render and a reset change the voice file: a host's access and an idle CORE leave it alone (R66, R70, R232). -/
theorem step_voices {s t : State} (h : step s = .next t) : t.voices = s.voices ∨ (∃ ts, s.agenda = .reset :: ts) ∨
    (s.busy = true ∧ (s.agenda = [] ∨ ∃ ts, s.agenda = .core :: ts)) := by
  obtain ⟨-, ⟨ha, hc⟩ | ⟨ts, ha, hc⟩ | ⟨ts, ha, -⟩ | ⟨a, ts, i, -, hd, he⟩⟩ := step_cases h
  · rcases coreTurn_cases hc with ⟨hb, -⟩ | ⟨-, rfl⟩
    · exact .inr (.inr ⟨hb, .inl ha⟩)
    · exact .inl rfl
  · rcases coreTurn_cases hc with ⟨hb, -⟩ | ⟨-, rfl⟩
    · exact .inr (.inr ⟨hb, .inr ⟨ts, ha⟩⟩)
    · exact .inl rfl
  · exact .inr (.inl ⟨ts, ha⟩)
  · obtain ⟨-, hvoices⟩ := hostAccess_cfg_voices hd he
    exact .inl hvoices

end Sys2Proof.Machine

open Sys2Proof Sys2Proof.Machine

/-- Settles O13: both commands are `releaseNote`, which releases exactly the voices that `plays` accepts. -/
theorem noteOffReleasesTheMatchingVoices : Obligations.NoteOffReleasesTheMatchingVoices := by
  unfold Obligations.NoteOffReleasesTheMatchingVoices
  intro c n vel s
  refine ⟨releaseNote c n s, rfl, rfl, List.length_map _, fun i v hi => ?_, voicesOnly_releaseNote c n s⟩
  rw [releaseNote_voice?, hi, Option.map_some, ← plays_iff]
  exact ⟨fun hp => by rw [if_pos hp]; rfl, fun hp => by rw [if_neg hp]⟩

/-- Settles O14: pass 1 of `Allocate` takes the lowest free voice, and NOTE_ON starts it. -/
theorem noteOnTakesTheLowestFreeVoice : Obligations.NoteOnTakesTheLowestFreeVoice := by
  unfold Obligations.NoteOnTakesTheLowestFreeVoice
  intro c n vel s i hi hbelow
  obtain ⟨htaken, hother⟩ := noteOn_of_allocatesAtRest (allocatesAtRest_of_free hi hbelow) c n vel
  exact ⟨noteOn c n vel s, rfl, htaken, patchIndex_toNat _ _, hother, voicesOnly_noteOn c n vel s⟩

/-- Settles O15: pass 2 of `Allocate` puts the lowest releasable voice to rest, and NOTE_ON starts it. -/
theorem noteOnStealsTheLowestReleasableVoice : Obligations.NoteOnStealsTheLowestReleasableVoice := by
  unfold Obligations.NoteOnStealsTheLowestReleasableVoice
  intro c n vel s i old huse hi hold hbelow
  obtain ⟨htaken, hother⟩ := noteOn_of_allocatesAtRest (allocatesAtRest_of_stealable huse hi hold hbelow) c n vel
  exact ⟨noteOn c n vel s, rfl, htaken, patchIndex_toNat _ _, hother, voicesOnly_noteOn c n vel s⟩

/-- Settles O16: `Allocate` answers none. -/
theorem noteOnIsDroppedWithoutAVoice : Obligations.NoteOnIsDroppedWithoutAVoice := by
  unfold Obligations.NoteOnIsDroppedWithoutAVoice
  intro c n vel s h
  simp only [exec, execNoteOn, noteOn, allocate_eq_none h]

/-- Settles O17: a release leaves the voice in use, and the voice that a NOTE_ON takes is in use after it. -/
theorem noEventFreesAVoice : Obligations.NoEventFreesAVoice := by
  unfold Obligations.NoEventFreesAVoice
  exact fun w s t i v he hi hu => keepsInUse_event he i v hi hu

/-- Settles O54: the other steps leave the voice file as it was, and so a voice in use in use. -/
theorem onlyARenderOrAResetFreesAVoice : Obligations.OnlyARenderOrAResetFreesAVoice := by
  unfold Obligations.OnlyARenderOrAResetFreesAVoice
  intro s t i v v' hst hi hi' hu hu'
  refine (step_voices hst).resolve_left fun hvoices => ?_
  have hsame : v = v' := Option.some.inj (hi.symm.trans ((congrArg (·[i]?) hvoices).symm.trans hi'))
  rw [hsame, hu'] at hu
  cases hu
end

section
/-! PROOFS. The channel events and the ignored ones (spec/41_channel_events.md R120 to R132): the record that each command
writes for its channel, the frame of such a write, and the words that change nothing. -/

namespace Sys2Proof.Machine

/-! ## The frame -/

/-- Everything but the channel file is unchanged. -/
abbrev ChannelsOnly (s t : State) : Prop :=
  SameConfig s t ∧ SameVoices s t ∧ SameFifo s t ∧ SameSequencer s t ∧ SameSticky s t ∧ SameCtrl s t ∧ SameMemory s t ∧
    SameOwn s t ∧ SameHostData s t

theorem channelsOnly_setChannel (s : State) (c : BitVec 4) (ch : Channel) : ChannelsOnly s (s.setChannel c ch) :=
  ⟨rfl, rfl, rfl, ⟨rfl, rfl, rfl⟩, ⟨rfl, rfl, rfl⟩, rfl, fun _ => rfl, ⟨rfl, rfl, rfl⟩, rfl⟩

/-- A write of channel `c` stores its record there, and leaves the other channels and everything else. -/
theorem setChannel_spec (s : State) (c : BitVec 4) (ch : Channel) :
    (s.setChannel c ch).channel c = ch ∧ (∀ c', c' ≠ c → (s.setChannel c ch).channel c' = s.channel c') ∧
      ChannelsOnly s (s.setChannel c ch) :=
  ⟨State.channel_setChannel_same s c ch, fun _ => State.channel_setChannel_other s ch, channelsOnly_setChannel s c ch⟩

/-! ## Control change -/

/-- The record that CONTROL_CHANGE leaves: the controller stored, and the pan coefficients recomputed when it is the pan
controller (R120, R121). -/
theorem controlChange_eq (k v : BitVec 7) (ch : Channel) :
    controlChange k v ch = { ch.setController k v with
      panRight := if k = 10 then panRom v else ch.panRight
      panLeft := if k = 10 then panRom (127 - v) else ch.panLeft } := by
  by_cases hk : k = 10
  · subst hk
    have hpan : (ch.setController 10 v).cc[ccPan] = v := Channel.controller_setController_same ch 10 v
    rw [controlChange, if_pos ((toFin_eq_ccPan 10).2 rfl), panUpdate, hpan]
    rfl
  · rw [controlChange, if_neg (mt (toFin_eq_ccPan k).1 hk), if_neg hk, if_neg hk]
    rfl

/-! ## Pitch bend -/

theorem bendRaw14_eq_iff (l m : BitVec 7) (raw : BitVec 14) : bendRaw14 l m = raw ↔ 128 * m.toNat + l.toNat = raw.toNat := by
  rw [← bendRaw14_toNat, BitVec.toNat_inj]

theorem pitchBend_of_cached {cfg : Config} {l m : BitVec 7} {ch : Channel} (h : 128 * m.toNat + l.toNat = ch.bendRaw.toNat) :
    pitchBend cfg l m ch = ch :=
  if_neg (not_not.2 ((bendRaw14_eq_iff l m _).2 h))

theorem pitchBend_of_changed {cfg : Config} {l m : BitVec 7} {ch : Channel} (h : 128 * m.toNat + l.toNat ≠ ch.bendRaw.toNat) :
    pitchBend cfg l m ch = bendUpdate cfg (bendRaw14 l m) ch :=
  if_pos (mt (bendRaw14_eq_iff l m _).1 h)

/-- PITCH_BEND leaves the controllers, the pan coefficients, the program and the pressure (R125, R126). -/
theorem pitchBend_frame (cfg : Config) (l m : BitVec 7) (ch : Channel) :
    (pitchBend cfg l m ch).cc = ch.cc ∧ (pitchBend cfg l m ch).panLeft = ch.panLeft ∧
      (pitchBend cfg l m ch).panRight = ch.panRight ∧ (pitchBend cfg l m ch).program = ch.program ∧
      (pitchBend cfg l m ch).pressure = ch.pressure := by
  by_cases h : 128 * m.toNat + l.toNat = ch.bendRaw.toNat
  · rw [pitchBend_of_cached h]
    exact ⟨rfl, rfl, rfl, rfl, rfl⟩
  · rw [pitchBend_of_changed h]
    exact ⟨rfl, rfl, rfl, rfl, rfl⟩

/-- The table offset of the bend that `l` and `m` hold (R83, R126). -/
theorem bendOffset_bendRaw14 (cfg : Config) (l m : BitVec 7) : bendOffset cfg (bendRaw14 l m) =
    min (max (8192 + Int.tdiv ((128 * m.toNat + l.toNat - 8192 : Int) * cfg.bendRange) 12) 0) 16383 := by
  rw [bendOffset, bendValue, bendRaw14_toNat, clamp]
  push_cast
  rfl

/-- The 15 bits of the index that `BendUpdate` stores hold its exact value (R126). -/
theorem bendUpdate_bendIndex (cfg : Config) (raw : BitVec 14) (ch : Channel) :
    (bendUpdate cfg raw ch).bendIndex.toInt = bendOffset cfg raw - 8192 := by
  obtain ⟨hlo, hhi⟩ := bendOffset_range cfg raw
  exact bendIndex_exact hlo hhi

/-! ## Ignored events -/

/-- A word that is no status word has a command below 8 (R81). -/
theorem eventCommand_lt_of_bit23 {w : EventWord} (h : w.getLsbD 23 = false) : (eventCommand w).toNat < 8 := by
  have hmsb : (eventCommand w).msb = false := by
    rw [eventCommand, BitVec.msb_eq_getLsbD_last, BitVec.getLsbD_extractLsb']
    simpa using h
  have hlt := BitVec.msb_eq_false_iff_two_mul_lt.1 hmsb
  omega

/-- A word that is no status word, or whose command is 0xA or 0xF, changes no state (R130, R131, R132). -/
theorem exec_ignored {w : EventWord} (h : w.getLsbD 23 = false ∨ eventCommand w = 0xA ∨ eventCommand w = 0xF) (s : State) :
    exec (decodeEvent w) s = .next s := by
  rcases h with h | h | h
  · rw [decodeEvent_nonStatus (eventCommand_lt_of_bit23 h)]
    rfl
  · rw [decodeEvent_polyPressure h]
    rfl
  · rw [decodeEvent_system h]
    rfl

/-- A drain of one entry more takes the head off the FIFO, executes it, and drains the rest (R181). -/
theorem drain_succ_of_cons {s : State} {w : EventWord} {q : List EventWord} (h : s.queue = w :: q) (k : Nat) :
    drain (k + 1) s = andThen (exec (decodeEvent w) (s.setQueue q)) (drain k) := by
  rw [drain, h]

end Sys2Proof.Machine

open Sys2Proof Sys2Proof.Machine

/-- Settles O18: the record is `controlChange_eq`'s, written for channel `c` alone. -/
theorem controlChangeStoresAndPans : Obligations.ControlChangeStoresAndPans := by
  unfold Obligations.ControlChangeStoresAndPans
  intro c k v s
  refine ⟨s.setChannel c (controlChange k v (s.channel c)), rfl, ?_⟩
  rw [State.channel_setChannel_same, controlChange_eq]
  exact ⟨Channel.controller_setController_same _ k v, fun k' => Channel.controller_setController_other _ v,
    fun hk => ⟨if_pos hk, if_pos hk⟩, fun hk => ⟨if_neg hk, if_neg hk⟩, rfl, rfl, rfl, rfl, rfl,
    (setChannel_spec s c _).2⟩

/-- Settles O19: the command is one write of its channel's record, and the voice file is in that write's frame. -/
theorem programChangeStoresTheProgram : Obligations.ProgramChangeStoresTheProgram := by
  unfold Obligations.ProgramChangeStoresTheProgram
  exact fun c p s => ⟨s.setChannel c { s.channel c with program := p }, rfl, setChannel_spec s c _⟩

/-- Settles O20: the command is one write of its channel's record. -/
theorem channelPressureStoresThePressure : Obligations.ChannelPressureStoresThePressure := by
  unfold Obligations.ChannelPressureStoresThePressure
  exact fun c p s => ⟨s.setChannel c { s.channel c with pressure := p }, rfl, setChannel_spec s c _⟩

/-- Settles O21: a bend that is not the cached one runs `BendUpdate`, whose clamped offset fits the index's 15 bits. -/
theorem pitchBendUpdatesIndexAndMultiplier : Obligations.PitchBendUpdatesIndexAndMultiplier := by
  unfold Obligations.PitchBendUpdatesIndexAndMultiplier
  intro c l m s
  refine ⟨s.setChannel c (pitchBend s.cfg l m (s.channel c)), rfl, ?_⟩
  rw [State.channel_setChannel_same, ← bendOffset_bendRaw14]
  obtain ⟨hcc, hleft, hright, hprogram, hpressure⟩ := pitchBend_frame s.cfg l m (s.channel c)
  refine ⟨pitchBend_of_cached, fun h => ?changed, hcc, hleft, hright, hprogram, hpressure,
    (setChannel_spec s c _).2⟩
  case changed =>
    rw [pitchBend_of_changed h]
    exact ⟨bendRaw14_toNat l m, bendUpdate_bendIndex s.cfg _ _, rfl⟩

/-- Settles O22: such a word decodes to one of the three commands, and the drain goes on from the state without it. -/
theorem ignoredEventsChangeNothing : Obligations.IgnoredEventsChangeNothing := by
  unfold Obligations.IgnoredEventsChangeNothing
  refine fun s => ⟨rfl, rfl, rfl, fun w hw => ⟨exec_ignored hw s, fun k q hq => ?_⟩⟩
  rw [drain_succ_of_cons hq, exec_ignored hw, andThen_next]
  rfl
end

section
/-! PROOFS. The envelope generator (spec/42_envelope.md R140 to R147): one Update with the increments and the target written
as numbers, the gates, and how many Updates a ramp takes. -/

namespace Sys2Proof.Machine

/-! ## One Update -/

theorem envInc_eq (cfg : Config) (x : BitVec 7) : envInc cfg x = (if x = 0 then 1 else x.toNat) * 2 ^ cfg.envShift := by
  rw [envInc, Nat.shiftLeft_eq]
  by_cases hx : x = 0
  · rw [if_pos hx, hx]
    rfl
  · rw [if_neg hx, max_eq_left (Nat.one_le_iff_ne_zero.2 fun h => hx (BitVec.eq_of_toNat_eq h))]

theorem envTarget_eq (s : BitVec 7) : envTarget s = 256 * s.toNat := by
  rw [envTarget, Nat.shiftLeft_eq, Nat.mul_comm]

/-- A level up to the ceiling is stored exactly (R27). -/
theorem toNat_ofNat_of_le_envMax {x : Nat} (h : x ≤ envMax) : (BitVec.ofNat 16 x).toNat = x := by
  rw [BitVec.toNat_ofNat, Nat.mod_eq_of_lt (lt_of_le_of_lt h (by decide))]

/-- A level that falls is stored exactly (R27). -/
theorem toNat_ofNat_sub (l : BitVec 16) (x : Nat) : (BitVec.ofNat 16 (l.toNat - x)).toNat = l.toNat - x := by
  rw [BitVec.toNat_ofNat, Nat.mod_eq_of_lt (lt_of_le_of_lt (Nat.sub_le _ _) l.isLt)]

theorem envActive_iff {e : Envelope} : envActive e = true ↔ e.phase ≠ .off := decide_eq_true_iff

theorem envActive_eq_false_iff {e : Envelope} : envActive e = false ↔ e.phase = .off := by
  rw [envActive, decide_eq_false_iff_not, not_not]

/-- An active record that an Update brings to off has level 0: decay with target 0 and release end there (R142). -/
theorem envUpdate_level_of_ends {cfg : Config} {e : Envelope} {a d s r : BitVec 7} (h : e.phase ≠ .off)
    (hoff : (envUpdate cfg e a d s r).phase = .off) : (envUpdate cfg e a d s r).level = 0 := by
  obtain ⟨phase, l⟩ := e
  cases phase with
  | off => exact absurd rfl h
  | sustain => cases hoff
  | attack =>
    rcases le_or_gt envMax (l.toNat + envInc cfg a) with htop | hramp
    · rw [envUpdate_attack_top _ _ _ _ _ _ htop] at hoff
      cases hoff
    · rw [envUpdate_attack_ramp _ _ _ _ _ _ hramp] at hoff
      cases hoff
  | decay =>
    rcases le_or_gt l.toNat (envTarget s + envInc cfg d) with htarget | hramp
    · rw [envUpdate_decay_target _ _ _ _ _ _ htarget] at hoff ⊢
      have hs : s = 0 := by
        by_contra hs
        rw [if_neg hs] at hoff
        cases hoff
      rw [(envTarget_eq_zero s).2 hs]
      rfl
    · rw [envUpdate_decay_ramp _ _ _ _ _ _ hramp] at hoff
      cases hoff
  | release =>
    rcases le_or_gt l.toNat (envInc cfg r) with hend | hramp
    · rw [envUpdate_release_end _ _ _ _ _ _ hend]
    · rw [envUpdate_release_ramp _ _ _ _ _ _ hramp] at hoff
      cases hoff

/-! ## Ramps -/

/-- A record that a step moves `inc` further along a ramp, and to `stop` in the step that reaches `distance`, is still on the
ramp before ⌈distance / inc⌉ steps, and then at `stop` (R147). -/
theorem iterate_ramp {α : Type} {step : α → α} {ramp : Nat → α} {stop : α} {distance inc : Nat} (hinc : 0 < inc)
    (hdistance : 0 < distance) (hmove : ∀ x, x + inc < distance → step (ramp x) = ramp (x + inc))
    (hstop : ∀ x, x < distance → distance ≤ x + inc → step (ramp x) = stop) :
    (∀ b, b < (distance + inc - 1) / inc → step^[b] (ramp 0) = ramp (inc * b)) ∧
      step^[(distance + inc - 1) / inc] (ramp 0) = stop := by
  have hlt : ∀ b, b < distance ⌈/⌉ inc ↔ inc * b < distance := fun b => by
    rw [← not_le, ceilDiv_le_iff_le_mul hinc, not_le]
  have hon : ∀ b, inc * b < distance → step^[b] (ramp 0) = ramp (inc * b) := by
    intro b
    induction b with
    | zero => exact fun _ => rfl
    | succ b ih =>
      intro hb
      rw [Nat.mul_succ] at hb ⊢
      rw [Function.iterate_succ_apply', ih (by omega), hmove _ hb]
  rw [← Nat.ceilDiv_eq_add_pred_div]
  refine ⟨fun b hb => hon b ((hlt b).1 hb), ?_⟩
  obtain ⟨k, hk⟩ := Nat.exists_eq_succ_of_ne_zero (Nat.ne_of_gt ((hlt 0).2 hdistance))
  have hbefore : inc * k < distance := (hlt k).1 (by omega)
  have hreached : distance ≤ inc * k + inc := not_lt.1 (mt (hlt (k + 1)).2 (by omega))
  rw [hk, Function.iterate_succ_apply', hon k hbefore, hstop _ hbefore hreached]

/-- The record of an attack that has risen by `x` from level 0. -/
def risen (x : Nat) : Envelope := ⟨.attack, BitVec.ofNat 16 x⟩

/-- The record in phase `p` that has fallen by `x` from level `l`. -/
def fallen (p : EnvPhase) (l : BitVec 16) (x : Nat) : Envelope := ⟨p, BitVec.ofNat 16 (l.toNat - x)⟩

theorem fallen_zero (p : EnvPhase) (l : BitVec 16) : fallen p l 0 = ⟨p, l⟩ := by
  rw [fallen, Nat.sub_zero, BitVec.ofNat_toNat, BitVec.setWidth_eq]

/-- An attack from level 0 (R142, R147). -/
theorem attack_lasts (cfg : Config) (a d s r : BitVec 7) :
    (∀ b, b < (envMax + envInc cfg a - 1) / envInc cfg a →
      (envUpdate cfg · a d s r)^[b] (risen 0) = risen (envInc cfg a * b)) ∧
    (envUpdate cfg · a d s r)^[(envMax + envInc cfg a - 1) / envInc cfg a] (risen 0) = ⟨.decay, 0x7FFF⟩ := by
  refine iterate_ramp (envInc_pos cfg a) (by decide) (fun x hx => ?move) (fun x hx hreached => ?stop)
  case move =>
    have hlevel : (BitVec.ofNat 16 x).toNat = x := toNat_ofNat_of_le_envMax (by omega)
    rw [risen, envUpdate_attack_ramp _ _ _ _ _ _ (by rwa [hlevel]), hlevel, risen]
  case stop =>
    have hlevel : (BitVec.ofNat 16 x).toNat = x := toNat_ofNat_of_le_envMax (by omega)
    exact envUpdate_attack_top _ _ _ _ _ _ (by rwa [hlevel])

/-- A decay from a level above the target (R142, R147). -/
theorem decay_lasts (cfg : Config) (a d s r : BitVec 7) {l : BitVec 16} (hl : envTarget s < l.toNat) :
    (∀ b, b < (l.toNat - envTarget s + envInc cfg d - 1) / envInc cfg d →
      (envUpdate cfg · a d s r)^[b] (fallen .decay l 0) = fallen .decay l (envInc cfg d * b)) ∧
    (envUpdate cfg · a d s r)^[(l.toNat - envTarget s + envInc cfg d - 1) / envInc cfg d] (fallen .decay l 0) =
      ⟨if s = 0 then .off else .sustain, BitVec.ofNat 16 (envTarget s)⟩ := by
  refine iterate_ramp (envInc_pos cfg d) (by omega) (fun x hx => ?move) (fun x hx hreached => ?stop)
  case move =>
    have hlevel := toNat_ofNat_sub l x
    rw [fallen, envUpdate_decay_ramp _ _ _ _ _ _ (by omega), hlevel, Nat.sub_sub, fallen]
  case stop =>
    have hlevel := toNat_ofNat_sub l x
    exact envUpdate_decay_target _ _ _ _ _ _ (by omega)

/-- A release from a level above 0 (R142, R147). -/
theorem release_lasts (cfg : Config) (a d s r : BitVec 7) {l : BitVec 16} (hl : 0 < l.toNat) :
    (∀ b, b < (l.toNat + envInc cfg r - 1) / envInc cfg r →
      (envUpdate cfg · a d s r)^[b] (fallen .release l 0) = fallen .release l (envInc cfg r * b)) ∧
    (envUpdate cfg · a d s r)^[(l.toNat + envInc cfg r - 1) / envInc cfg r] (fallen .release l 0) = ⟨.off, 0⟩ := by
  refine iterate_ramp (envInc_pos cfg r) hl (fun x hx => ?move) (fun x hx hreached => ?stop)
  case move =>
    have hlevel := toNat_ofNat_sub l x
    rw [fallen, envUpdate_release_ramp _ _ _ _ _ _ (by omega), hlevel, Nat.sub_sub, fallen]
  case stop =>
    have hlevel := toNat_ofNat_sub l x
    exact envUpdate_release_end _ _ _ _ _ _ (by omega)

end Sys2Proof.Machine

open Sys2Proof Sys2Proof.Machine

/-- Settles O33: each clause is the equation of its branch of Update, whose new level 16 bits hold. -/
theorem envelopeUpdateRampsAndClamps : Obligations.EnvelopeUpdateRampsAndClamps := by
  unfold Obligations.EnvelopeUpdateRampsAndClamps
  simp only [← envInc_eq, ← envTarget_eq]
  rintro cfg ⟨phase, l⟩ a d s r
  refine ⟨envUpdate_hold cfg _ a d s r, ?attackTop, ?attackRamp, ?decayTarget, ?decayRamp, ?releaseEnd, ?releaseRamp⟩ <;>
    rintro ⟨⟩ h
  case attackTop =>
    rw [envUpdate_attack_top _ _ _ _ _ _ h]
    exact ⟨rfl, rfl⟩
  case attackRamp =>
    rw [envUpdate_attack_ramp _ _ _ _ _ _ h]
    exact ⟨rfl, toNat_ofNat_of_le_envMax h.le⟩
  case decayTarget =>
    rw [envUpdate_decay_target _ _ _ _ _ _ h]
    exact ⟨envTarget_toNat s, rfl⟩
  case decayRamp =>
    rw [envUpdate_decay_ramp _ _ _ _ _ _ h]
    exact ⟨rfl, by rw [toNat_ofNat_sub, Nat.sub_add_cancel (by omega)]⟩
  case releaseEnd =>
    rw [envUpdate_release_end _ _ _ _ _ _ h]
    exact ⟨rfl, rfl⟩
  case releaseRamp =>
    rw [envUpdate_release_ramp _ _ _ _ _ _ h]
    exact ⟨rfl, by rw [toNat_ofNat_sub, Nat.sub_add_cancel (by omega)]⟩

/-- Settles O34: the gates write the phase alone, and an Update from off holds, from release at level 0 ends. -/
theorem gatesSetThePhaseOnly : Obligations.GatesSetThePhaseOnly := by
  unfold Obligations.GatesSetThePhaseOnly
  refine ⟨fun e => ⟨rfl, rfl, ?kept, envActive_iff⟩,
    fun cfg e a d s r => ⟨?returns, fun hoff => ?stays, fun hon hoff => ?ends⟩⟩
  case kept =>
    obtain ⟨phase, l⟩ := e
    rintro ⟨⟩
    rfl
  case returns =>
    rintro rfl
    exact envUpdate_release_end cfg 0 a d s r (Nat.zero_le _)
  case stays => exact envUpdate_hold cfg e a d s r (.inl (envActive_eq_false_iff.1 hoff))
  case ends => exact envUpdate_level_of_ends (envActive_iff.1 hon) (envActive_eq_false_iff.1 hoff)

/-- Settles O35: each phase is a ramp, and a decay's target lies below the ceiling. -/
theorem envelopePhasesLastTheirBlocks : Obligations.EnvelopePhasesLastTheirBlocks := by
  unfold Obligations.EnvelopePhasesLastTheirBlocks
  intro cfg a d s r l hl
  obtain ⟨hattack, hattackEnd⟩ := attack_lasts cfg a d s r
  obtain ⟨hdecay, hdecayEnd⟩ := decay_lasts cfg a d s r (l := 0x7FFF) (lt_of_le_of_lt (envTarget_le s) (by decide))
  obtain ⟨hrelease, hreleaseEnd⟩ := release_lasts cfg a d s r hl
  rw [fallen_zero] at hdecay hdecayEnd hrelease hreleaseEnd
  exact ⟨fun b hb => congrArg (·.phase) (hattack b hb), hattackEnd, fun b hb => congrArg (·.phase) (hdecay b hb), hdecayEnd,
    fun b hb => congrArg (·.phase) (hrelease b hb), hreleaseEnd⟩
end

section
/-! PROOFS. The modulator (spec/43_modulation.md R160 to R167): the lookup's clamp, FM and its split form, the ranges of the
modulation indices, and what one ModStep does to a voice. -/

namespace Sys2Proof.Machine

/-! ## The lookup and FM -/

/-- The entry read is the one at the clamped index's position (R161). -/
theorem powLookup_eq_powRom {i : Int} {p : Nat} (h : clamp i (-8192) 8191 = p - 8192) : powLookup i = powRom p := by
  rw [powLookup, h, Int.sub_add_cancel, Int.toNat_natCast]

theorem fm_toNat (step : Word) (i : Int) : (fm step i).toNat = step.toNat * (powLookup i).toNat / 2 ^ 15 % 2 ^ 32 :=
  scaleStep_toNat step (powLookup i)

/-- The halves of a word, as a quotient and a remainder, make it up (R162). -/
theorem halves_toNat (w : Word) :
    (w.extractLsb' 16 16).toNat * 2 ^ 16 + (w.extractLsb' 0 16).toNat = w.toNat := by
  rw [BitVec.extractLsb'_toNat, BitVec.extractLsb'_toNat, Nat.shiftRight_eq_div_pow, Nat.shiftRight_zero]
  omega

/-- A product's floor by 2^15 splits at the step's halves: the high half's product has no remainder (R162). -/
theorem floor_split (hi lo m : Nat) : (hi * 2 ^ 16 + lo) * m / 2 ^ 15 = ((hi * m) <<< 1) + ((lo * m) >>> 15) := by
  have hparts : (hi * 2 ^ 16 + lo) * m = lo * m + 2 ^ 15 * (hi * m * 2 ^ 1) := by ring
  rw [hparts, Nat.add_mul_div_left _ _ (by decide), Nat.add_comm, Nat.shiftLeft_eq, Nat.shiftRight_eq_div_pow]

/-! ## The modulation indices -/

/-- A factor in [0, N] keeps a product between N times the ends of the other factor's range, where that range meets 0. -/
theorem mul_mem_range {n N : Nat} {x lo hi : Int} (hn : n ≤ N) (hlo : lo ≤ x) (hhi : x ≤ hi) (hlo0 : lo ≤ 0) (hhi0 : 0 ≤ hi) :
    N * lo ≤ n * x ∧ n * x ≤ N * hi := by
  have hn' : (n : Int) ≤ N := Int.ofNat_le.2 hn
  constructor
  · calc N * lo ≤ n * lo := mul_le_mul_of_nonpos_right hn' hlo0
      _ ≤ n * x := mul_le_mul_of_nonneg_left hlo (Int.natCast_nonneg n)
  · calc n * x ≤ n * hi := mul_le_mul_of_nonneg_left hhi (Int.natCast_nonneg n)
      _ ≤ N * hi := mul_le_mul_of_nonneg_right hn' hhi0

theorem pitchIndex_mem_range (p : Patch) {e : Envelope} (h : e.level.toNat ≤ envMax) :
    -8192 ≤ pitchIndex p e ∧ pitchIndex p e ≤ 8127 := by
  have hlo : -128 ≤ p.penvDepth.toInt := BitVec.le_toInt p.penvDepth
  have hhi : p.penvDepth.toInt ≤ 127 := Int.le_of_lt_add_one (BitVec.toInt_lt (x := p.penvDepth))
  have hprod := mul_mem_range (N := 32767) h hlo hhi (by decide) (by decide)
  rw [pitchIndex_eq]
  omega

theorem vibratoIndex_mem_range (cfg : Config) (p : Patch) (ch : Channel) (ph : Word) :
    -1009 ≤ vibratoIndex cfg p ch ph ∧ vibratoIndex cfg p ch ph ≤ 1008 := by
  have hlo : -32768 ≤ waveSample cfg p.vibWave ph := BitVec.le_toInt _
  have hhi : waveSample cfg p.vibWave ph ≤ 32767 := Int.le_of_lt_add_one BitVec.toInt_lt
  have hgain : (ch.controller 1).toNat * p.vibDepth.toNat ≤ 127 * 127 :=
    Nat.mul_le_mul (Nat.le_of_lt_succ (ch.controller 1).isLt) (Nat.le_of_lt_succ p.vibDepth.isLt)
  have hprod := mul_mem_range hgain hlo hhi (by decide) (by decide)
  rw [vibratoIndex_eq, mul_assoc, ← Nat.cast_mul, mul_comm]
  omega

/-- A closed mod wheel or a depth of 0 stops the vibrato (R166). -/
theorem vibratoIndex_eq_zero (cfg : Config) {p : Patch} {ch : Channel} (ph : Word)
    (h : ch.controller 1 = 0 ∨ p.vibDepth = 0) : vibratoIndex cfg p ch ph = 0 := by
  rw [vibratoIndex_eq]
  rcases h with hwheel | hdepth
  · rw [hwheel]
    simp
  · rw [hdepth]
    simp

/-! ## ModStep -/

theorem waveSample_eq (cfg : Config) (w : BitVec 2) (ph : Word) :
    waveSample cfg w ph = (cfg.waveRom[w.toFin].getD (ph.toNat / 2 ^ (32 - cfg.tableBits)) 0).toInt := by
  rw [waveSample, tableIndex, Nat.shiftRight_eq_div_pow]

theorem advancePitch_of_penvEn {cfg : Config} {v : Voice} (h : v.penvEn = true) :
    advancePitch cfg v = pitchUpdate cfg (patchAt cfg v.patch) v.pitch := if_pos h

theorem composedStep_of_penvEn {cfg : Config} {v : Voice} (h : v.penvEn = true) (ch : Channel) :
    composedStep cfg ch v =
      fm (fm (scaleStep v.phaseStepBase ch.bendMult)
          (pitchIndex (patchAt cfg v.patch) (pitchUpdate cfg (patchAt cfg v.patch) v.pitch)))
        (vibratoIndex cfg (patchAt cfg v.patch) ch v.vibPhase) := by
  rw [composedStep, if_pos h, advancePitch_of_penvEn h]

theorem composedStep_of_not_penvEn {cfg : Config} {v : Voice} (h : v.penvEn = false) (ch : Channel) :
    composedStep cfg ch v =
      fm (scaleStep v.phaseStepBase ch.bendMult) (vibratoIndex cfg (patchAt cfg v.patch) ch v.vibPhase) := by
  rw [composedStep, if_neg (Bool.eq_false_iff.1 h)]

theorem modStep_phaseStepCurrent (cfg : Config) (ch : Channel) (v : Voice) :
    (modStep cfg ch v).phaseStepCurrent = composedStep cfg ch v := rfl

theorem modStep_vibPhase_toNat (cfg : Config) (ch : Channel) (v : Voice) :
    (modStep cfg ch v).vibPhase.toNat =
      (v.vibPhase.toNat + (patchAt cfg v.patch).vibRate.toNat * 2 ^ 21) % 2 ^ 32 := by
  rw [modStep, BitVec.toNat_add, vibratoStep_toNat]
  rfl

end Sys2Proof.Machine

open Sys2Proof Sys2Proof.Machine

/-- Settles O39: the split form is `floor_split` at the step's two halves. -/
theorem fmEqualsTheSplitForm : Obligations.FmEqualsTheSplitForm := by
  unfold Obligations.FmEqualsTheSplitForm
  refine ⟨fm_toNat, fun step m => ?split, fm_zero⟩
  case split => rw [← floor_split, halves_toNat, scaleStep_toNat]

/-- Settles O40: in each clause the clamped index is the position less 8192. -/
theorem powLookupClampsTheIndex : Obligations.PowLookupClampsTheIndex := by
  unfold Obligations.PowLookupClampsTheIndex
  refine fun i => ⟨fun hlow => ?below, fun hhigh => ?above, fun p hp hi => ?inside⟩ <;>
    apply powLookup_eq_powRom <;> rw [clamp]
  case below => omega
  case above => omega
  case inside =>
    have hp' : p < 16384 := hp
    omega

/-- Settles O41: the indices are floors of products of bounded factors. -/
theorem modulationIndicesStayInRange : Obligations.ModulationIndicesStayInRange := by
  unfold Obligations.ModulationIndicesStayInRange
  refine ⟨fun p e => pitchIndex_mem_range p, fun cfg p ch ph => ?vibrato⟩
  case vibrato =>
    obtain ⟨hlo, hhi⟩ := vibratoIndex_mem_range cfg p ch ph
    exact ⟨hlo, hhi, vibratoIndex_eq_zero cfg ph⟩

/-- Settles O42: the composed step as numbers, with and without a pitch envelope; the frame is ModStep's record update. -/
theorem modStepComposesBendEnvelopeAndVibrato : Obligations.ModStepComposesBendEnvelopeAndVibrato := by
  unfold Obligations.ModStepComposesBendEnvelopeAndVibrato
  intro cfg ch v
  refine ⟨?step, modStep_vibPhase_toNat cfg ch v, rfl, rfl⟩
  rw [← waveSample_eq, ← vibratoIndex_eq, modStep_phaseStepCurrent]
  cases h : v.penvEn with
  | false => rw [composedStep_of_not_penvEn h, fm_toNat, scaleStep_toNat, if_neg Bool.false_ne_true]
  | true =>
    rw [composedStep_of_penvEn h, fm_toNat, fm_toNat, scaleStep_toNat, pitchIndex_eq, if_pos rfl]
    rfl

/-- Settles O43: each of the three multipliers is unity or absent. -/
theorem modStepUnmodulatedKeepsTheBase : Obligations.ModStepUnmodulatedKeepsTheBase := by
  unfold Obligations.ModStepUnmodulatedKeepsTheBase
  intro cfg ch v hbend hpenv hvib
  calc (modStep cfg ch v).phaseStepCurrent
      = fm (scaleStep v.phaseStepBase ch.bendMult) (vibratoIndex cfg (patchAt cfg v.patch) ch v.vibPhase) := by
        rw [modStep_phaseStepCurrent, composedStep_of_not_penvEn hpenv]
    _ = v.phaseStepBase := by rw [vibratoIndex_eq_zero cfg _ hvib, fm_zero, hbend, scaleStep_unity]
end

section
/-! PROOFS. The render (spec/44_render.md R180 to R193): the drain as a run of its events, the envelope pass voice by voice, the
bounds of the scale, the gains and the terms, and what a block leaves in OUTBUF and in the voice file. -/

namespace Sys2Proof.Machine

/-! ## The drain -/

/-- After `o`, the FIFO's head is taken off and the command that `w` decodes to is executed (R181). -/
def runEvent (o : Result) (w : EventWord) : Result :=
  andThen o fun t => exec (decodeEvent w) { t with queue := t.queue.tail }

theorem runEvent_next_of_cons {s : State} {w : EventWord} {q : List EventWord} (h : s.queue = w :: q) :
    runEvent (.next s) w = exec (decodeEvent w) (s.setQueue q) := by
  rw [runEvent, andThen_next, h]
  rfl

/-- A drain of the entries `evs` at the FIFO's head runs them in their order (R181). -/
theorem drain_eq_foldl {evs rest : List EventWord} {s : State} (h : s.queue = evs ++ rest) :
    drain evs.length s = evs.foldl runEvent (.next s) := by
  induction evs generalizing s with
  | nil => rfl
  | cons w evs ih =>
    obtain ⟨u, hu, hkept⟩ := exec_event_engineOnly w (s.setQueue (evs ++ rest))
    calc drain (evs.length + 1) s
        = andThen (exec (decodeEvent w) (s.setQueue (evs ++ rest))) (drain evs.length) := drain_succ_of_cons h _
      _ = drain evs.length u := by rw [hu, andThen_next]
      _ = evs.foldl runEvent (.next u) := ih hkept.queue
      _ = (w :: evs).foldl runEvent (.next s) := by rw [List.foldl_cons, runEvent_next_of_cons (q := evs ++ rest) h, hu]

/-- A CORE turn while busy is the render (R71). -/
theorem step_core_of_busy {s : State} {ts : List Turn} (hl : s.cfg.legal = true) (ha : s.agenda = .core :: ts)
    (hb : s.busy = true) : step s = render (s.setAgenda ts) :=
  (step_of_cons hl ha).trans (if_pos hb)

/-! ## The envelope pass -/

theorem envelopePass_getElem? (cfg : Config) (vs : List Voice) (i : Nat) :
    (envelopePass cfg vs)[i]? = (vs[i]?).map (envelopePassVoice cfg) := List.getElem?_map

theorem envelopePassVoice_of_free (cfg : Config) {v : Voice} (h : v.inUse = false) : envelopePassVoice cfg v = v :=
  if_neg (Bool.eq_false_iff.1 h)

theorem envelopePassVoice_of_active (cfg : Config) {v : Voice} (h : v.inUse = true)
    (hon : (ampUpdate cfg (patchAt cfg v.patch) v.amp).phase ≠ .off) :
    envelopePassVoice cfg v = { v with amp := ampUpdate cfg (patchAt cfg v.patch) v.amp } :=
  (if_pos h).trans (if_pos (envActive_iff.2 hon))

theorem envelopePassVoice_of_ends (cfg : Config) {v : Voice} (h : v.inUse = true)
    (hoff : (ampUpdate cfg (patchAt cfg v.patch) v.amp).phase = .off) : envelopePassVoice cfg v = .atRest :=
  (if_pos h).trans (if_neg (Bool.eq_false_iff.1 (envActive_eq_false_iff.2 hoff)))

/-! ## Scale, gains and terms -/

theorem voiceScale_eq (cfg : Config) (ch : Channel) (v : Voice) :
    voiceScale cfg ch v =
      v.amp.level.toNat * (patchAt cfg v.patch).master.toNat / 128 * v.velocity.toNat / 128 *
        (ch.controller 7).toNat / 128 := by
  simp only [voiceScale, Nat.shiftRight_eq_div_pow]
  rfl

theorem gainLeft_eq (cfg : Config) (ch : Channel) (v : Voice) :
    gainLeft cfg ch v = voiceScale cfg ch v * ch.panLeft.toNat / 128 := Nat.shiftRight_eq_div_pow _ _

theorem gainRight_eq (cfg : Config) (ch : Channel) (v : Voice) :
    gainRight cfg ch v = voiceScale cfg ch v * ch.panRight.toNat / 128 := Nat.shiftRight_eq_div_pow _ _

/-- A 7-bit factor is at most 127. -/
theorem mul_factor_le {x bound : Nat} (h : x ≤ bound) (c : BitVec 7) : x * c.toNat ≤ bound * 127 :=
  Nat.mul_le_mul h (Nat.le_of_lt_succ c.isLt)

/-- A voice of scale 0 has gains 0 (R184, R188). -/
theorem gains_eq_zero {cfg : Config} {ch : Channel} {v : Voice} (h : voiceScale cfg ch v = 0) :
    gainLeft cfg ch v = 0 ∧ gainRight cfg ch v = 0 := by
  rw [gainLeft_eq, gainRight_eq, h, Nat.zero_mul, Nat.zero_mul]
  exact ⟨rfl, rfl⟩

/-- A term is the floor of the exact quotient (R10, R186). -/
theorem mixTerm_eq_floor (gain : Nat) (smp : Int) : mixTerm gain smp = ⌊((gain : ℚ) * smp) / 256⌋ := by
  have hfloor := Rat.floor_intCast_div_natCast (gain * smp) 256
  push_cast at hfloor
  rw [hfloor, mixTerm_eq]

/-- A gain within its bound keeps a term within R186's. -/
theorem mixTerm_natAbs_le {gain : Nat} (h : gain ≤ 31753) (smp : BitVec 16) :
    (mixTerm gain smp.toInt).natAbs ≤ 4064384 := by
  have hlo : -32768 ≤ smp.toInt := BitVec.le_toInt smp
  have hhi : smp.toInt ≤ 32767 := Int.le_of_lt_add_one (BitVec.toInt_lt (x := smp))
  have hprod := mul_mem_range h hlo hhi (by decide) (by decide)
  rw [mixTerm_eq]
  omega

/-! ## OUTBUF -/

theorem renderBlock_memByte (n : Nat) (s : State) (a : Nat) :
    (renderBlock n s).memByte a = outByte s.outbufEpoch
      (renderVoices s.cfg s.channels s.outbufEpoch n (envelopePass s.cfg s.voices) s.outbuf).2 a := rfl

theorem renderBlock_outWord (n : Nat) (s : State) (k : Nat) :
    (renderBlock n s).outWord k = outRead s.outbufEpoch
      (renderVoices s.cfg s.channels s.outbufEpoch n (envelopePass s.cfg s.voices) s.outbuf).2 k := rfl

/-- The sample that frame `f` of a voice's block reads (R185). -/
def frameSample (cfg : Config) (ch : Channel) (f : Nat) (v : Voice) : Int :=
  waveSample cfg (patchAt cfg v.patch).wave (v.phaseAcc + BitVec.ofNat 32 f * (modStep cfg ch v).phaseStepCurrent)

theorem frameSample_eq (cfg : Config) (ch : Channel) (f : Nat) (v : Voice) :
    frameSample cfg ch f v = (cfg.waveRom[(patchAt cfg v.patch).wave.toFin].getD
      ((v.phaseAcc + BitVec.ofNat 32 f * (modStep cfg ch v).phaseStepCurrent).toNat / 2 ^ (32 - cfg.tableBits)) 0).toInt :=
  waveSample_eq _ _ _

/-- A voice's block adds one term to each of the two words of each of its frames (R185, R186, R187). -/
theorem voiceRender_word (cfg : Config) (ch : Channel) (e : Nat) {n f : Nat} (hf : f < n) (v : Voice) (m : List Host.Cell) :
    outRead e (voiceRender cfg ch e n v m).2 (2 * f) =
        outRead e m (2 * f) + wrap32 (mixTerm (gainLeft cfg ch v) (frameSample cfg ch f v)) ∧
      outRead e (voiceRender cfg ch e n v m).2 (2 * f + 1) =
        outRead e m (2 * f + 1) + wrap32 (mixTerm (gainRight cfg ch v) (frameSample cfg ch f v)) := by
  have hword := renderFrames_word cfg (patchAt cfg v.patch).wave e (gainLeft cfg ch v) (gainRight cfg ch v)
    (modStep cfg ch v).phaseStepCurrent n 0 v.phaseAcc m f
  rwa [if_pos ⟨Nat.zero_le f, by omega⟩, if_pos ⟨Nat.zero_le f, by omega⟩] at hword

/-- Where each voice's block adds a term of that voice alone to a word, the voices in use together add the sum (R190). -/
theorem renderVoices_word (cfg : Config) (chs : Vector Channel numChannels) (e n k : Nat) (term : Voice → Word)
    (hterm : ∀ v m, outRead e (voiceRender cfg chs[v.channel.toFin] e n v m).2 k = outRead e m k + term v)
    (vs : List Voice) (m : List Host.Cell) :
    outRead e (renderVoices cfg chs e n vs m).2 k =
      outRead e m k + ((vs.filter fun v => v.inUse).map term).sum := by
  induction vs generalizing m with
  | nil => exact (BitVec.add_zero _).symm
  | cons v vs ih =>
    rw [renderVoices, ih]
    cases hv : v.inUse with
    | false => rw [List.filter_cons_of_neg (by simp [hv]), if_neg Bool.false_ne_true]
    | true =>
      rw [List.filter_cons_of_pos hv, if_pos rfl, hterm, List.map_cons, List.sum_cons, BitVec.add_assoc]

/-- Mixing a term of 0 changes no byte (R186, R188). -/
theorem outByte_mixWord_zero (e : Nat) (m : List Host.Cell) (k a : Nat) : outByte e (mixWord e m k 0) a = outByte e m a := by
  rw [mixWord, Int.add_zero, wrap32, BitVec.ofInt_toInt, outByte_outWrite_self]

theorem mixTerm_zero (smp : Int) : mixTerm 0 smp = 0 := by
  rw [mixTerm_eq, Int.natCast_zero, Int.zero_mul, Int.zero_ediv]

/-- Frames of gains 0 change no byte (R188). -/
theorem outByte_renderFrames_zero (cfg : Config) (wave : BitVec 2) (e : Nat) (step : Word) (n f : Nat) (acc : Word)
    (m : List Host.Cell) (a : Nat) : outByte e (renderFrames cfg wave e 0 0 step n f acc m).2 a = outByte e m a := by
  induction n generalizing f acc m with
  | zero => rfl
  | succ n ih => rw [renderFrames, ih, mixFrame, mixTerm_zero, outByte_mixWord_zero, outByte_mixWord_zero]

end Sys2Proof.Machine

open Sys2Proof Sys2Proof.Machine

/-- Settles O7: the drain of exactly the pending entries is the fold over them. -/
theorem renderStepRunsThePendingEvents : Obligations.RenderStepRunsThePendingEvents := by
  unfold Obligations.RenderStepRunsThePendingEvents
  intro s ts evs rest hl ha hb hq hk
  have hdrain : drain s.pendingK (s.setAgenda ts) = evs.foldl runEvent (.next (s.setAgenda ts)) := by
    rw [hk]
    exact drain_eq_foldl hq
  rw [step_core_of_busy hl ha hb, render]
  exact congrArg (andThen · _) hdrain

/-- Settles O44: each clause is one branch of the pass on a voice, and the pass is a map over the voices. -/
theorem envelopePassAdvancesOrFrees : Obligations.EnvelopePassAdvancesOrFrees := by
  unfold Obligations.EnvelopePassAdvancesOrFrees
  refine ⟨fun cfg p h => patchAt_of_lt h, fun cfg vs i v hi => ?_⟩
  rw [envelopePass_getElem?, hi]
  exact ⟨fun h => congrArg some (envelopePassVoice_of_free cfg h),
    fun h hon => congrArg some (envelopePassVoice_of_active cfg h hon),
    fun h hoff => congrArg some (envelopePassVoice_of_ends cfg h hoff)⟩

/-- Settles O45: each factor is at most 127, and each quotient's bound gives the next product's. -/
theorem scaleAndGainsAreBounded : Obligations.ScaleAndGainsAreBounded := by
  unfold Obligations.ScaleAndGainsAreBounded
  refine ⟨mixTerm_eq_floor, fun cfg ch v hlevel => ?_⟩
  have hlevel' : v.amp.level.toNat ≤ 32767 := hlevel
  intro master volume s1 s2
  have hp1 : v.amp.level.toNat * master ≤ 32767 * 127 := mul_factor_le hlevel' _
  have hs1 : s1 ≤ 32511 := by omega
  have hp2 : s1 * v.velocity.toNat ≤ 32511 * 127 := mul_factor_le hs1 _
  have hs2 : s2 ≤ 32257 := by omega
  have hp3 : s2 * volume ≤ 32257 * 127 := mul_factor_le hs2 _
  have hscale : voiceScale cfg ch v = s2 * volume / 128 := voiceScale_eq cfg ch v
  have hs3 : voiceScale cfg ch v ≤ 32004 := by omega
  have hleft : gainLeft cfg ch v ≤ 31753 := by
    have := mul_factor_le hs3 ch.panLeft
    rw [gainLeft_eq]
    omega
  have hright : gainRight cfg ch v ≤ 31753 := by
    have := mul_factor_le hs3 ch.panRight
    rw [gainRight_eq]
    omega
  exact ⟨hscale, gainLeft_eq cfg ch v, gainRight_eq cfg ch v, ⟨by omega, by omega, by omega⟩, ⟨hs1, hs2, hs3⟩, hleft, hright,
    fun smp => ⟨mixTerm_natAbs_le hleft smp, mixTerm_natAbs_le hright smp⟩⟩

/-- Settles O46: each voice adds its term to each word of the frame, and the voices in use add up. -/
theorem blockMixesTheSumOfItsVoices : Obligations.BlockMixesTheSumOfItsVoices := by
  unfold Obligations.BlockMixesTheSumOfItsVoices
  intro s n f hf
  simp only [← frameSample_eq, renderBlock_outWord]
  exact ⟨renderVoices_word _ _ _ _ _ _ (fun v m => (voiceRender_word _ _ _ hf v m).1) _ _,
    renderVoices_word _ _ _ _ _ _ (fun v m => (voiceRender_word _ _ _ hf v m).2) _ _⟩

/-- Settles O47: the voices' block writes inside its frames, and not at all when no voice is in use. -/
theorem blockWritesOnlyItsFrames : Obligations.BlockWritesOnlyItsFrames := by
  unfold Obligations.BlockWritesOnlyItsFrames
  intro s n a
  rw [renderBlock_memByte]
  exact ⟨renderVoices_outside _ _ _ _ _ _, fun h => by rw [renderVoices_silent _ _ _ _ _ _ h, State.memByte]⟩

/-- Settles O48: the voice file is the map of `renderBlock_voices`, and the block's other writes are OUTBUF's, the sequencer's
and DONE's. -/
theorem blockAdvancesEveryVoice : Obligations.BlockAdvancesEveryVoice := by
  unfold Obligations.BlockAdvancesEveryVoice
  intro s n
  refine ⟨fun i v hi => ?_, renderBlock_voices_length n s, rfl, rfl, rfl, rfl, rfl, rfl, ⟨rfl, rfl, rfl⟩, rfl⟩
  rw [State.voice?, renderBlock_voices, List.getElem?_map, hi]
  exact ⟨fun h => congrArg some (if_neg (Bool.eq_false_iff.1 h)), fun h => congrArg some (if_pos h)⟩

/-- Settles O49: a scale of 0 makes both gains 0, and frames of gains 0 change no byte. -/
theorem silentVoiceAddsNothingAndAdvances : Obligations.SilentVoiceAddsNothingAndAdvances := by
  unfold Obligations.SilentVoiceAddsNothingAndAdvances
  intro cfg ch epoch n v m h
  obtain ⟨hleft, hright⟩ := gains_eq_zero h
  refine ⟨fun a => ?_, voiceRender_voice cfg ch epoch n v m⟩
  rw [voiceRender, hleft, hright]
  exact outByte_renderFrames_zero _ _ _ _ _ _ _ _ _

/-- Settles O50: the drain takes the pending entries off, and the block writes the sequencer and DONE. -/
theorem renderCompletesAndSignals : Obligations.RenderCompletesAndSignals := by
  unfold Obligations.RenderCompletesAndSignals
  intro s
  obtain ⟨u, -, hkept, hrender⟩ := render_cases s
  exact ⟨renderBlock s.pendingN u, hrender, rfl, rfl, rfl, rfl, hkept.queue, hkept.evovf, hkept.rnovr,
    (renderBlock_voices_length _ u).trans hkept.voiceCount, hkept.cfg, hkept.ie,
    ⟨hkept.agenda, hkept.draws, hkept.outbufEpoch⟩, hkept.hostData⟩
end

section
/-! PROOFS. The host interface (spec/45_host_interface.md R200 to R206): the bits of the words that a read returns, what each
access to a register answers in each of its cases, and what it leaves unchanged. -/

namespace Sys2Proof.Machine

/-! ## The words of STATUS, CTRL and VOICE_STAT

A word is written as the concatenation of its fields, so a bit or a field of it is found by dropping the fields below it. -/

/-- STATUS, bit by bit and field by field (R42). -/
theorem statusWord_fields (s : State) :
    s.statusWord.getLsbD 0 = s.busy ∧ s.statusWord.getLsbD 1 = s.done ∧ s.statusWord.getLsbD 2 = s.evovf ∧
    s.statusWord.getLsbD 3 = s.rnovr ∧ s.statusWord.getLsbD 4 = s.evFull ∧ s.statusWord.getLsbD 5 = s.evEmpty ∧
    s.statusWord.extractLsb' 6 2 = 0#2 ∧ s.statusWord.extractLsb' 16 16 = 0#16 ∧
    s.statusWord.extractLsb' 8 8 = s.evCount := by
  rw [State.statusWord]
  simp (disch := decide) only [BitVec.getLsbD_append, BitVec.getLsbD_ofBool, BitVec.extractLsb'_append_eq_of_le,
    BitVec.extractLsb'_append_eq_right, BitVec.extractLsb'_eq_self, Nat.reduceSub, Nat.reduceLT, ↓reduceIte, decide_true,
    Bool.true_and, and_self]

theorem evEmpty_eq (s : State) : s.evEmpty = decide (s.queue = []) :=
  decide_eq_decide.2 List.length_eq_zero_iff

/-- The count is exact for every FIFO that an EVQ_DEPTH of R7 allows (R42). -/
theorem evCount_toNat {s : State} (h : s.queue.length ≤ 255) : s.evCount.toNat = s.queue.length := by
  rw [State.evCount, BitVec.toNat_ofNat, Nat.mod_eq_of_lt (by omega)]

theorem ctrlWord_eq (s : State) : s.ctrlWord = if s.ie then 1 else 0 := by
  rw [State.ctrlWord]
  cases s.ie <;> rfl

/-- Word 0 of VOICE_STAT, bit by bit and field by field (R205). -/
theorem voiceStat0_fields (v : Voice) :
    (voiceStat0 v).getLsbD 0 = v.inUse ∧ (voiceStat0 v).getLsbD 1 = v.releasable ∧
    (voiceStat0 v).extractLsb' 2 3 = phaseCode v.amp.phase ∧ (voiceStat0 v).getLsbD 5 = v.penvEn ∧
    (voiceStat0 v).extractLsb' 6 2 = 0#2 ∧ (voiceStat0 v).extractLsb' 8 7 = v.note ∧ (voiceStat0 v).getLsbD 15 = false ∧
    (voiceStat0 v).extractLsb' 16 4 = v.channel ∧ (voiceStat0 v).extractLsb' 20 3 = phaseCode v.pitch.phase ∧
    (voiceStat0 v).getLsbD 23 = false ∧ (voiceStat0 v).extractLsb' 24 7 = v.velocity ∧
    (voiceStat0 v).getLsbD 31 = false := by
  rw [voiceStat0]
  simp (disch := decide) only [BitVec.getLsbD_append, BitVec.getLsbD_ofBool, BitVec.getLsbD_zero,
    BitVec.extractLsb'_append_eq_of_le, BitVec.extractLsb'_append_eq_right, Nat.reduceSub, Nat.reduceLT, ↓reduceIte,
    decide_true, Bool.true_and, and_self]

/-- Word 1 of VOICE_STAT is the two levels (R205). -/
theorem voiceStat1_levels (v : Voice) :
    (voiceStat1 v).extractLsb' 0 16 = v.amp.level ∧ (voiceStat1 v).extractLsb' 16 16 = v.pitch.level :=
  ⟨BitVec.extractLsb'_append_eq_right, BitVec.extractLsb'_append_eq_left⟩

theorem voiceStat_word0 {s : State} {i : Nat} {v : Voice} (hv : s.voice? i = some v) :
    s.voiceStat i false = voiceStat0 v := by
  simp [State.voiceStat, hv]

theorem voiceStat_word1 {s : State} {i : Nat} {v : Voice} (hv : s.voice? i = some v) :
    s.voiceStat i true = voiceStat1 v := by
  simp [State.voiceStat, hv]

/-! ## What an access answers, case by case -/

theorem exec_eventWr_of_room {s : State} (h : s.queue.length < s.cfg.evqDepth) (e : EventWord) :
    exec (.eventWr e) s = .next (s.setQueue (s.queue ++ [e])) := if_pos h

theorem exec_eventWr_of_full {s : State} (h : s.cfg.evqDepth ≤ s.queue.length) (e : EventWord) :
    exec (.eventWr e) s = .next s.raiseEvovf := if_neg (not_lt.2 h)

theorem exec_renderWr_of_idle {s : State} (h : s.busy = false) (frames : BitVec 16) :
    exec (.renderWr frames) s = .next (s.setSequencer true s.queue.length (blockLength s.cfg frames)) :=
  if_neg (Bool.eq_false_iff.1 h)

theorem exec_renderWr_of_busy {s : State} (h : s.busy = true) (frames : BitVec 16) :
    exec (.renderWr frames) s = .next s.raiseRnovr := if_pos h

/-- A STATUS write keeps a sticky bit unless it is written with a 1 (R202). -/
theorem and_not_eq_ite (old clr : Bool) : (old && !clr) = if clr then false else old := by
  cases clr
  · exact Bool.and_true old
  · exact Bool.and_false old

theorem exec_ctrlRd (s : State) : exec .ctrlRd s = .next (s.setHostData (if s.ie then 1 else 0)) := by
  rw [← ctrlWord_eq]
  rfl

/-- A VOICE_STAT read of an absent voice returns 0, busy or not (R62). -/
theorem exec_voiceStatRd_of_absent {i : BitVec 8} {s : State} (h : s.cfg.numVoices ≤ i.toNat) (word1 : Bool) :
    exec (.voiceStatRd i word1) s = .next (s.setHostData 0) := if_pos h

/-- A VOICE_STAT read of a present voice, while busy and while idle (R205). -/
theorem exec_voiceStatRd_of_present {i : BitVec 8} {s : State} (h : i.toNat < s.cfg.numVoices) (word1 : Bool) :
    exec (.voiceStatRd i word1) s =
      if s.busy then .next ((s.setDraws (s.draws + 1)).setHostData (Config.freeVoiceStat s.draws))
      else .next (s.setHostData (s.voiceStat i.toNat word1)) := if_neg (not_le.2 h)

theorem exec_outbufRd_of_idle {k : BitVec 10} {s : State} (hk : k.toNat < 2 * s.cfg.maxFrames) (h : s.busy = false) :
    exec (.outbufRd k) s = .next (s.setHostData (s.outWord k.toNat)) :=
  (exec_outbufRd_inside hk).trans (if_neg (Bool.eq_false_iff.1 h))

theorem exec_outbufWr_of_idle {k : BitVec 10} {s : State} (hk : k.toNat < 2 * s.cfg.maxFrames) (h : s.busy = false)
    (w : Word) : exec (.outbufWr k w) s = .next (s.setOutbuf (outWrite s.outbuf k.toNat w)) :=
  (exec_outbufWr_inside w hk).trans (if_neg (Bool.eq_false_iff.1 h))

/-- A word of the buffer is what was last written to it (R63). -/
theorem outWord_outWrite (s : State) (k : Nat) (w : Word) : (s.setOutbuf (outWrite s.outbuf k w)).outWord k = w :=
  outRead_outWrite_same s.outbufEpoch s.outbuf k w

/-- A read after a write of the same word returns the word written (R63, R206). -/
theorem exec_outbufRd_outWrite {k : BitVec 10} {s : State} (hk : k.toNat < 2 * s.cfg.maxFrames) (h : s.busy = false)
    (w : Word) : exec (.outbufRd k) (s.setOutbuf (outWrite s.outbuf k.toNat w)) =
      .next ((s.setOutbuf (outWrite s.outbuf k.toNat w)).setHostData w) :=
  calc exec (.outbufRd k) (s.setOutbuf (outWrite s.outbuf k.toNat w))
    _ = .next ((s.setOutbuf (outWrite s.outbuf k.toNat w)).setHostData
          ((s.setOutbuf (outWrite s.outbuf k.toNat w)).outWord k.toNat)) := exec_outbufRd_of_idle (by exact hk) h
    _ = .next ((s.setOutbuf (outWrite s.outbuf k.toNat w)).setHostData w) := by rw [outWord_outWrite]

/-! ## Reserved offsets -/

/-- A window offset is its 13 bits. -/
theorem toNat_ofNat_offset {off : Nat} (h : off < 0x1000) : (BitVec.ofNat 13 off).toNat = off := by
  rw [BitVec.toNat_ofNat, Nat.mod_eq_of_lt (by omega)]

theorem decodeRead_reserved_offset {off : Nat} (h4 : off % 4 = 0)
    (h : (0x0010 ≤ off ∧ off < 0x0100) ∨ (0x0900 ≤ off ∧ off < 0x1000)) :
    decodeRead off = .reservedRd (BitVec.ofNat 13 off) := by
  have hoff : (BitVec.ofNat 13 off).toNat = off := toNat_ofNat_offset (by omega)
  have hres : ReservedRead (BitVec.ofNat 13 off) := by
    rw [ReservedRead, hoff]
    exact ⟨h4, h⟩
  rw [← decodeRead_reserved hres, hoff]

theorem decodeWrite_reserved_offset {off : Nat} (h4 : off % 4 = 0) (hlo : 0x0010 ≤ off) (hhi : off < 0x1000) (w : Word) :
    decodeWrite off w = .reservedWr (BitVec.ofNat 13 off) := by
  have hoff : (BitVec.ofNat 13 off).toNat = off := toNat_ofNat_offset hhi
  have hres : ReservedWrite (BitVec.ofNat 13 off) := by
    rw [ReservedWrite, hoff]
    exact ⟨h4, hlo, hhi⟩
  rw [← decodeWrite_reserved hres w, hoff]

end Sys2Proof.Machine

open Sys2Proof Sys2Proof.Machine

/-- Settles O25: the word returned is `State.statusWord`, whose fields are `statusWord_fields`'. -/
theorem statusReadReturnsTheFields : Obligations.StatusReadReturnsTheFields := by
  unfold Obligations.StatusReadReturnsTheFields
  intro s
  obtain ⟨hbusy, hdone, hevovf, hrnovr, hfull, hempty, hreserved, hhigh, hcount⟩ := statusWord_fields s
  refine ⟨s.setHostData s.statusWord, s.statusWord, rfl, rfl, hbusy, hdone, hevovf, hrnovr, hfull,
    hempty.trans (evEmpty_eq s), hreserved, hhigh, fun h => ?_⟩
  rw [hcount, evCount_toNat h]

/-- Settles O29: absent, busy and idle, and the idle word's fields are those of the voice's two words. -/
theorem voiceStatReadReturnsTheVoice : Obligations.VoiceStatReadReturnsTheVoice := by
  unfold Obligations.VoiceStatReadReturnsTheVoice
  refine ⟨⟨rfl, rfl, rfl, rfl, rfl⟩, fun i word1 s => ⟨fun habsent => exec_voiceStatRd_of_absent habsent word1,
    fun hi hbusy => ?busy, fun hi hidle v hv => ⟨s.voiceStat i.toNat word1, ?idle, ?word0, ?word1⟩⟩⟩
  case busy => exact (exec_voiceStatRd_of_present hi word1).trans (if_pos hbusy)
  case idle => exact (exec_voiceStatRd_of_present hi word1).trans (if_neg (Bool.eq_false_iff.1 hidle))
  case word0 =>
    rintro rfl
    rw [voiceStat_word0 hv]
    exact voiceStat0_fields v
  case word1 =>
    rintro rfl
    rw [voiceStat_word1 hv]
    exact voiceStat1_levels v

/-- Settles O30: inside the buffer a word read after a word write gives the word written, and above it the commands act as at a
reserved offset. -/
theorem outbufAccessesReadAndWriteTheirWord : Obligations.OutbufAccessesReadAndWriteTheirWord := by
  unfold Obligations.OutbufAccessesReadAndWriteTheirWord
  intro k w s
  refine ⟨fun hidle hk => ?_, fun hk => ⟨exec_outbufRd_above hk, exec_outbufWr_above w hk⟩⟩
  exact ⟨exec_outbufRd_of_idle hk hidle, s.setOutbuf (outWrite s.outbuf k.toNat w), exec_outbufWr_of_idle hk hidle w,
    outWord_outWrite s k.toNat w, exec_outbufRd_outWrite hk hidle w, fun a ha => outByte_outWrite_outside _ _ _ _ ha,
    rfl, rfl, rfl, rfl, ⟨rfl, rfl, rfl⟩, ⟨rfl, rfl, rfl⟩, rfl, ⟨rfl, rfl, rfl⟩, rfl⟩

/-- Settles O23: `State.setQueue` while the FIFO has room, and `State.raiseEvovf` when it has none. -/
theorem eventWriteAppendsOrIsDropped : Obligations.EventWriteAppendsOrIsDropped := by
  unfold Obligations.EventWriteAppendsOrIsDropped
  refine ⟨fun w => rfl, fun e s => ⟨fun hroom => ?room, fun hfull => ?full⟩⟩
  case room =>
    exact ⟨_, exec_eventWr_of_room hroom e, rfl, ⟨rfl, rfl, rfl⟩, rfl, rfl, rfl, ⟨rfl, rfl, rfl⟩, rfl, fun _ => rfl,
      ⟨rfl, rfl, rfl⟩, rfl⟩
  case full =>
    exact ⟨_, exec_eventWr_of_full hfull e, rfl, rfl, rfl, rfl, rfl, rfl, rfl, ⟨rfl, rfl, rfl⟩, rfl, fun _ => rfl,
      ⟨rfl, rfl, rfl⟩, rfl⟩

/-- Settles O24: `State.setSequencer` with the FIFO's length and the clamped block while idle, and `State.raiseRnovr` while
busy. -/
theorem renderWriteIsAcceptedOrFlagged : Obligations.RenderWriteIsAcceptedOrFlagged := by
  unfold Obligations.RenderWriteIsAcceptedOrFlagged
  refine ⟨fun w => rfl, fun frames s => ⟨fun hidle => ?idle, fun hbusy => ?busy⟩⟩
  case idle =>
    exact ⟨_, exec_renderWr_of_idle hidle frames, rfl, rfl, rfl, ⟨rfl, rfl, rfl⟩, rfl, rfl, rfl, rfl, rfl, fun _ => rfl,
      ⟨rfl, rfl, rfl⟩, rfl⟩
  case busy =>
    exact ⟨_, exec_renderWr_of_busy hbusy frames, ⟨rfl, rfl, rfl⟩, rfl, rfl, rfl, rfl, rfl, rfl, rfl, rfl, fun _ => rfl,
      ⟨rfl, rfl, rfl⟩, rfl⟩

/-- Settles O26: the state after is `State.clearSticky`'s. -/
theorem statusWriteClearsTheNamedBits : Obligations.StatusWriteClearsTheNamedBits := by
  unfold Obligations.StatusWriteClearsTheNamedBits
  exact ⟨fun w => rfl, fun d e r s => ⟨s.clearSticky d e r, rfl, and_not_eq_ite s.done d, and_not_eq_ite s.evovf e,
    and_not_eq_ite s.rnovr r, rfl, rfl, rfl, rfl, ⟨rfl, rfl, rfl⟩, rfl, fun _ => rfl, ⟨rfl, rfl, rfl⟩, rfl⟩⟩

/-- Settles O27: the state after CTRL_WR is `State.setIe`'s, and a read of it returns the new IE. -/
theorem ctrlReadAndWriteActOnInterruptEnable : Obligations.CtrlReadAndWriteActOnInterruptEnable := by
  unfold Obligations.CtrlReadAndWriteActOnInterruptEnable
  exact ⟨exec_ctrlRd, fun w => rfl, fun ie s => ⟨s.setIe ie, rfl, rfl, rfl, exec_ctrlRd (s.setIe ie), rfl, rfl, rfl, rfl,
    ⟨rfl, rfl, rfl⟩, ⟨rfl, rfl, rfl⟩, fun _ => rfl, ⟨rfl, rfl, rfl⟩, rfl⟩⟩

/-- Settles O28: the map at the reserved offsets, and a read that returns the word 0. -/
theorem reservedAndWriteOnlyReadZero : Obligations.ReservedAndWriteOnlyReadZero := by
  unfold Obligations.ReservedAndWriteOnlyReadZero
  exact ⟨rfl, rfl, fun _ h4 h => decodeRead_reserved_offset h4 h,
    fun _ w h4 hlo hhi => decodeWrite_reserved_offset h4 hlo hhi w, fun _ _ => ⟨rfl, rfl, rfl, rfl⟩⟩
end

section
/-! PROOFS. The statements on exceptions (spec/60_exceptions.md R220, R222, R232): what a CORE turn is while idle and while
busy, that an access which keeps the host's duties completes, and that only a render raises DONE. -/

namespace Sys2Proof.Machine

/-! ## The CORE's turn -/

theorem coreTurn_of_idle {s : State} (h : s.busy = false) : coreTurn s = .next s := if_neg (Bool.eq_false_iff.1 h)

theorem coreTurn_of_busy {s : State} (h : s.busy = true) : coreTurn s = render s := if_pos h

/-- The CORE refuses nothing and raises no exception (R220). -/
theorem coreTurn_completes (s : State) : ∃ t, coreTurn s = .next t := by
  cases hb : s.busy with
  | false => exact ⟨s, coreTurn_of_idle hb⟩
  | true =>
    obtain ⟨u, -, -, hrender⟩ := render_cases s
    exact ⟨_, (coreTurn_of_busy hb).trans hrender⟩

/-! ## The host's turn

Of the commands that an admitted access decodes to, only OUTBUF's two can be refused: at a word of the buffer while busy. -/

theorem exec_outbufRd_completes {k : BitVec 10} {s : State} (h : s.busy = false ∨ 2 * s.cfg.maxFrames ≤ k.toNat) :
    ∃ t, exec (.outbufRd k) s = .next t := by
  by_cases hk : k.toNat < 2 * s.cfg.maxFrames
  · exact ⟨_, exec_outbufRd_of_idle hk (h.resolve_right (not_le.2 hk))⟩
  · exact ⟨_, exec_outbufRd_above (not_lt.1 hk)⟩

theorem exec_outbufWr_completes {k : BitVec 10} {s : State} (h : s.busy = false ∨ 2 * s.cfg.maxFrames ≤ k.toNat) (w : Word) :
    ∃ t, exec (.outbufWr k w) s = .next t := by
  by_cases hk : k.toNat < 2 * s.cfg.maxFrames
  · exact ⟨_, exec_outbufWr_of_idle hk (h.resolve_right (not_le.2 hk)) w⟩
  · exact ⟨_, exec_outbufWr_above w (not_lt.1 hk)⟩

theorem exec_voiceStatRd_completes (i : BitVec 8) (word1 : Bool) (s : State) : ∃ t, exec (.voiceStatRd i word1) s = .next t := by
  by_cases hi : i.toNat < s.cfg.numVoices
  · rw [exec_voiceStatRd_of_present hi]
    cases s.busy with
    | false => exact ⟨_, rfl⟩
    | true => exact ⟨_, rfl⟩
  · exact ⟨_, exec_voiceStatRd_of_absent (not_lt.1 hi) word1⟩

theorem exec_eventWr_completes (e : EventWord) (s : State) : ∃ t, exec (.eventWr e) s = .next t := by
  by_cases hq : s.queue.length < s.cfg.evqDepth
  · exact ⟨_, exec_eventWr_of_room hq e⟩
  · exact ⟨_, exec_eventWr_of_full (not_lt.1 hq) e⟩

theorem exec_renderWr_completes (frames : BitVec 16) (s : State) : ∃ t, exec (.renderWr frames) s = .next t := by
  cases hb : s.busy with
  | false => exact ⟨_, exec_renderWr_of_idle hb frames⟩
  | true => exact ⟨_, exec_renderWr_of_busy hb frames⟩

/-- A read completes unless it is of a word of the buffer while busy (R220, R72). -/
theorem exec_decodeRead_completes {off : Nat} {s : State}
    (h : offOutbuf ≤ off → s.busy = false ∨ 2 * s.cfg.maxFrames ≤ (outbufIndex off).toNat) :
    ∃ t, exec (decodeRead off) s = .next t := by
  rcases decodeRead_cases off with ⟨-, e⟩ | ⟨-, e⟩ | ⟨-, e⟩ | ⟨-, e⟩ | ⟨ho, e⟩ | ⟨-, -, e⟩ | ⟨-, -, -, e⟩ <;> rw [e]
  · exact ⟨_, rfl⟩
  · exact ⟨_, rfl⟩
  · exact ⟨_, rfl⟩
  · exact ⟨_, rfl⟩
  · exact exec_outbufRd_completes (h ho)
  · exact exec_voiceStatRd_completes _ _ s
  · exact ⟨_, rfl⟩

/-- A write completes unless it is to a word of the buffer while busy (R220, R72). -/
theorem exec_decodeWrite_completes {off : Nat} {s : State}
    (h : offOutbuf ≤ off → s.busy = false ∨ 2 * s.cfg.maxFrames ≤ (outbufIndex off).toNat) (w : Word) :
    ∃ t, exec (decodeWrite off w) s = .next t := by
  rcases decodeWrite_cases off w with ⟨-, e⟩ | ⟨-, e⟩ | ⟨-, e⟩ | ⟨-, e⟩ | ⟨ho, e⟩ | ⟨-, -, e⟩ <;> rw [e]
  · exact exec_eventWr_completes _ s
  · exact exec_renderWr_completes _ s
  · exact ⟨_, rfl⟩
  · exact ⟨_, rfl⟩
  · exact exec_outbufWr_completes (h ho) w
  · exact ⟨_, rfl⟩

/-- An admitted access at OUTBUF's offsets that is to no word of the buffer names an index above the buffer (R62, R63). -/
theorem le_outbufIndex_of_not_toOutbuf {cfg : Config} {a : Access} (had : Access.admitted cfg.coreBase a)
    (ho : offOutbuf ≤ a.addr - cfg.coreBase) (hnot : ¬ Access.toOutbuf cfg a) :
    2 * cfg.maxFrames ≤ (outbufIndex (a.addr - cfg.coreBase)).toNat := by
  obtain ⟨-, hlo, hhi, -⟩ := had
  simp only [Access.toOutbuf, offOutbuf, windowBytes] at ho hhi hnot
  simp only [outbufIndex, offOutbuf, BitVec.toNat_ofNat]
  omega

/-- A host turn that keeps the host's duties completes (R65, R72). -/
theorem hostTurn_completes {a : Access} {s : State} (had : Access.admitted s.cfg.coreBase a)
    (hout : s.busy = true → ¬ Access.toOutbuf s.cfg a) : ∃ t, hostTurn a s = .next t := by
  have hindex : offOutbuf ≤ a.addr - s.cfg.coreBase →
      s.busy = false ∨ 2 * s.cfg.maxFrames ≤ (outbufIndex (a.addr - s.cfg.coreBase)).toNat := by
    intro ho
    cases hb : s.busy with
    | false => exact .inl rfl
    | true => exact .inr (le_outbufIndex_of_not_toOutbuf had ho (hout hb))
  rw [hostTurn, decodeAccess_admitted had]
  cases a.kind with
  | read => exact exec_decodeRead_completes hindex
  | write => exact exec_decodeWrite_completes hindex a.data

/-! ## DONE -/

/-- A CORE turn that sets DONE is a render (R180, R232). -/
theorem busy_of_coreTurn_raises_done {s t : State} (hc : coreTurn s = .next t) (hs : s.done = false) (ht : t.done = true) :
    s.busy = true := by
  rcases coreTurn_cases hc with ⟨hb, -⟩ | ⟨-, rfl⟩
  · exact hb
  · rw [hs] at ht
    cases ht

/-- No host access sets DONE: STATUS_WR can only clear it, and the others leave it (R202). -/
theorem done_of_hostAccess_done {s t : State} {base : Nat} {a : Access} {i : Instr} (hd : decodeAccess base a = .ok i)
    (he : exec i s = .next t) (ht : t.done = true) : s.done = true := by
  rcases hostAccess_cases hd he with ⟨-, w, rfl | rfl⟩ | ⟨-, -, -, hw⟩
  · exact ht
  · exact ht
  · rcases exec_decodeWrite hw with rfl | ⟨-, rfl⟩ | rfl | ⟨-, rfl⟩ | rfl | ⟨-, rfl⟩ | rfl | ⟨-, -, rfl⟩
    · exact ht
    · exact ht
    · exact ht
    · exact ht
    · exact ht
    · rw [State.clearSticky_done, Bool.and_eq_true] at ht
      exact ht.1
    · exact ht
    · exact ht

end Sys2Proof.Machine

open Sys2Proof Sys2Proof.Machine

/-- Settles O11: a CORE turn and a reset always complete, and a host turn does by the duties that its access keeps. -/
theorem everyDutifulStepCompletes : Obligations.EveryDutifulStepCompletes := by
  unfold Obligations.EveryDutifulStepCompletes
  intro s hl hduty
  cases ha : s.agenda with
  | nil =>
    rw [step_of_nil hl ha]
    exact coreTurn_completes s
  | cons turn ts =>
    rw [step_of_cons hl ha]
    cases turn with
    | host a =>
      obtain ⟨had, hout⟩ := hduty a ts ha
      exact hostTurn_completes had hout
    | core => exact coreTurn_completes _
    | reset => exact ⟨_, rfl⟩

/-- Settles O55: of the four turns of `step_cases`, a reset and a host access leave no DONE that was not set before, and a CORE
turn that sets it is a busy one. -/
theorem onlyARenderSetsDone : Obligations.OnlyARenderSetsDone := by
  unfold Obligations.OnlyARenderSetsDone
  intro s t hst hs ht
  obtain ⟨-, ⟨ha, hc⟩ | ⟨ts, ha, hc⟩ | ⟨ts, -, rfl⟩ | ⟨a, ts, i, -, hd, he⟩⟩ := step_cases hst
  · exact ⟨busy_of_coreTurn_raises_done hc hs ht, .inl ha⟩
  · exact ⟨busy_of_coreTurn_raises_done (s := s.setAgenda ts) hc hs ht, .inr ⟨ts, ha⟩⟩
  · cases ht
  · exact absurd (done_of_hostAccess_done hd he ht) (Bool.eq_false_iff.1 hs)

/-- Settles O8: each clause is a CORE turn, idle or busy, with no turn left or at the agenda's head. -/
theorem coreTurnRendersOrIdles : Obligations.CoreTurnRendersOrIdles := by
  unfold Obligations.CoreTurnRendersOrIdles
  intro s hl
  exact ⟨fun ha hidle => (step_of_nil hl ha).trans (coreTurn_of_idle hidle),
    fun ha hbusy => (step_of_nil hl ha).trans (coreTurn_of_busy hbusy),
    fun ts ha hidle => (step_of_cons hl ha).trans (coreTurn_of_idle (s := s.setAgenda ts) hidle)⟩
end

section
/-! PROOFS. The reset step (spec/70_reset_and_hazards.md R240 to R242): what the host reads after it, and the channel file. -/

namespace Sys2Proof.Machine

/-- A reset puts every channel at its defaults (R23, R240). -/
theorem resetCore_channel (s : State) (c : BitVec 4) : (resetCore s).channel c = .reset := by
  simp [State.channel, resetCore]

/-- The FIFO that a reset leaves empty is not full, since a legal EVQ_DEPTH is at least 1 (R7, R42). -/
theorem resetCore_evFull {s : State} (hl : s.cfg.legal = true) : (resetCore s).evFull = false := by
  obtain ⟨-, -, -, -, -, hdepth, -⟩ := (legal_iff s.cfg).1 hl
  exact decide_eq_false (Nat.ne_of_lt hdepth)

/-- STATUS after a reset: EVEMPTY alone is set (R46, R240). -/
theorem resetCore_statusWord {s : State} (hl : s.cfg.legal = true) : (resetCore s).statusWord = 0x00000020 := by
  rw [State.statusWord, resetCore_evFull hl]
  change 0#16 ++ 0#8 ++ 0#2 ++ BitVec.ofBool true ++ BitVec.ofBool false ++ BitVec.ofBool false ++ BitVec.ofBool false ++
    BitVec.ofBool false ++ BitVec.ofBool false = 0x00000020#32
  decide

/-- CTRL after a reset: IE is clear (R46, R240). -/
theorem resetCore_ctrlWord (s : State) : (resetCore s).ctrlWord = 0 := by
  change 0#31 ++ BitVec.ofBool false = 0#32
  decide

end Sys2Proof.Machine

open Sys2Proof Sys2Proof.Machine

/-- Settles O51: the step is `resetCore` on the state with its turn taken, whatever that state was doing.  Its fields are the
reset values; STATUS needs a FIFO of at least one entry, which a legal configuration has, and OUTBUF, with no byte listed, reads
as free values of the new reset count. -/
theorem resetGivesEveryElementItsValue : Obligations.ResetGivesEveryElementItsValue := by
  unfold Obligations.ResetGivesEveryElementItsValue
  intro s ts hl ha
  refine ⟨resetCore (s.setAgenda ts), step_of_cons hl ha, resetCore_statusWord hl, resetCore_ctrlWord _, rfl, rfl, rfl, rfl, rfl,
    rfl, rfl, rfl, rfl, List.length_replicate, fun v hv => List.eq_of_mem_replicate hv, rfl, fun c => ?_, rfl, fun a => rfl,
    rfl, rfl, rfl, rfl⟩
  rw [resetCore_channel]
  exact ⟨rfl, rfl, rfl, rfl, rfl, rfl, rfl, Channel.reset_controller⟩
end
